-- ==== Sys2Proof/Word.lean ====
section
/-! DEFINITION. The block's word types (00_scope.md section 5; 30_encoding.md R90, R93; 20_memory.md R60). -/

namespace Sys2Proof

/-- A command word or a result word, 32 bits (R90, R93). -/
abbrev Word := BitVec 32

/-- The DATA field of a result word, bits 27:0 (R93). -/
abbrev Data := BitVec 28

/-- One byte of slot memory or of a PDU (R60, R142). -/
abbrev Byte := BitVec 8

/-- A byte address of the 24-bit buffer space (R60, R61). -/
abbrev Addr := BitVec 24

/-- A 37-bit channel map: bit `k` is 1 when data channel `k` is used (R36). -/
abbrev ChanMap := BitVec 37

end Sys2Proof
end

