-- ==== Sys2Proof/Config.lean ====
section
/-! DEFINITION. What an implementation fixes (00_scope.md section 4, R2, R3) and the free values
(93_implementation_defined.md section 1). The parameters are OPEN in the spec: they are an argument of the machine,
held in the `cfg` field of the state, and no step changes them. -/

namespace Sys2Proof

/-- The two command ports: `I`, the interrupt or radio context, and `A`, the application context (R310, D1). -/
inductive Port
  | I
  | A
  deriving DecidableEq, Repr

/-- The two queue instances: TXQ (q = 0) and RXQ (q = 1) (10_state.md section 4). -/
inductive QueueId
  | txq
  | rxq
  deriving DecidableEq, Repr

/-- The configuration parameters of 00_scope.md section 4. They are not registers and reset does not change them (R340). -/
structure Config where
  /-- CAP_TX: slots of TXQ. -/
  capTx : Nat
  /-- CAP_RX: slots of RXQ. -/
  capRx : Nat
  /-- SLOT_BYTES: bytes of one slot, both queues. -/
  slotBytes : Nat
  /-- QBASE_TX: byte address of slot 0 of TXQ. -/
  qbaseTx : Nat
  /-- QBASE_RX: byte address of slot 0 of RXQ. -/
  qbaseRx : Nat
  /-- MAX_PAYLOAD: the largest data-PDU payload length the ARQ unit accepts or builds. -/
  maxPayload : Nat
  deriving DecidableEq, Repr

namespace Config

/-- `CAP[q]` (10_state.md section 4). -/
def cap (c : Config) : QueueId → Nat
  | .txq => c.capTx
  | .rxq => c.capRx

/-- `QBASE[q]` (10_state.md section 4). -/
def qbase (c : Config) : QueueId → Nat
  | .txq => c.qbaseTx
  | .rxq => c.qbaseRx

/-- The configuration of the spec's own vectors (42_queue.md, 95_test_vectors.md "Common conventions").
DESIGN CHOICE (log entry 1): `State.reset` must name one configuration and the spec leaves all of them open; unsafe for a
statement that rests on these numbers, so no statement does: they quantify over the configuration. -/
def vectors : Config :=
  { capTx := 2, capRx := 3, slotBytes := 0x40, qbaseTx := 0x000100, qbaseRx := 0x000200, maxPayload := 27 }

/-- NCH, the number of data channels, fixed (R3). -/
def nch : Nat := 37

/-- HMIN, the least legal hop increment, fixed (R3). -/
def hmin : Nat := 5

/-- HMAX, the greatest legal hop increment, fixed (R3). -/
def hmax : Nat := 16

/-- MINUSED, the least number of used channels in a map, fixed (R3). -/
def minUsed : Nat := 2

/-- FREE VALUE (U6, R310; log entry 3): whether port `A` goes first when both ports present at once, for each draw.
Safe: nothing can be proved of its value. -/
opaque arbiterPicksA : Nat → Bool

/-- FREE VALUE (U1, R35, R76; log entry 6): the byte an address holds after a reset until it is written, for each reset
and each address. Safe: nothing can be proved of its value. -/
opaque byteAtReset : Nat → Nat → Byte

/-- FREE VALUE (U2, U3, U9, R75; log entries 7 and 8): the byte an unowned or racing read returns, for each draw.
Safe: nothing can be proved of its value. -/
opaque unspecifiedByte : Nat → Byte

end Config

end Sys2Proof
end

