-- ==== Sys2Proof/Syntax.lean ====
section
/-! DEFINITION. The commands of the block, one constructor for each row of spec/opcode_table.json
(30_encoding.md R96). A one-bit operand is a `Bool` (true for 1), a wider one a bit vector of its field's width. -/

namespace Sys2Proof

/-- The 27 commands of 30_encoding.md R96. -/
inductive Instr
  /-- SYS.NOP (R130). -/
  | sysNop
  /-- SYS.RDFAULT (R131). -/
  | sysRdfault
  /-- SYS.RDFCMD HALF (R132). -/
  | sysRdfcmd (half : Bool)
  /-- CRC.INIT IV (R141). -/
  | crcInit (iv : BitVec 24)
  /-- CRC.FEED B (R142). -/
  | crcFeed (b : Byte)
  /-- CRC.READ (R143). -/
  | crcRead
  /-- CRC.STAT (R144). -/
  | crcStat
  /-- CRC.TXB K (R145). -/
  | crcTxb (k : BitVec 2)
  /-- PQ.ACQ Q (R172). -/
  | pqAcq (q : QueueId)
  /-- PQ.COMMIT Q (R173). -/
  | pqCommit (q : QueueId)
  /-- CQ.ACQ Q (R174). -/
  | cqAcq (q : QueueId)
  /-- CQ.REL Q (R177). -/
  | cqRel (q : QueueId)
  /-- Q.STAT Q, SEL (R179). -/
  | qStat (q : QueueId) (sel : Bool)
  /-- Q.FLUSH Q (R180). -/
  | qFlush (q : QueueId)
  /-- HOP.SETHOP H (R210). -/
  | hopSethop (h : BitVec 5)
  /-- HOP.STGLO M (R211). -/
  | hopStglo (m : BitVec 24)
  /-- HOP.STGHI M (R212). -/
  | hopStghi (m : BitVec 13)
  /-- HOP.COMMIT AM, AH (R218). -/
  | hopCommit (am : Bool) (ah : Bool)
  /-- HOP.SETUNM C (R220). -/
  | hopSetunm (c : BitVec 6)
  /-- HOP.NEXT (R223). -/
  | hopNext
  /-- HOP.READ (R226). -/
  | hopRead
  /-- HOP.RDMAP SEL (R227). -/
  | hopRdmap (sel : BitVec 2)
  /-- ARQ.RESET (R260). -/
  | arqReset
  /-- ARQ.RX ACCEPT (R261). -/
  | arqRx (accept : Bool)
  /-- ARQ.RXX H0, H1, CRCV, ACCEPT (R262). -/
  | arqRxx (h0 : Byte) (h1 : Byte) (crcv : Bool) (accept : Bool)
  /-- ARQ.TXHDR LLID, MD, LEN (R264). -/
  | arqTxhdr (llid : BitVec 2) (md : Bool) (len : Byte)
  /-- ARQ.READ (R265). -/
  | arqRead
  deriving DecidableEq, Repr

/-- Why a word is ILLEGAL: the three cases R98 lists. -/
inductive Illegal
  /-- UNIT is 5 to 15. -/
  | reservedUnit
  /-- The unit does not define this OP. -/
  | undefinedOp
  /-- A reserved ARG bit is 1. -/
  | reservedArg
  deriving DecidableEq, Repr

end Sys2Proof
end

