-- ==== Sys2Proof/WellFormed.lean ====
section
/-! DEFINITION. Well-formedness. An instruction carries each operand at exactly its field's width (R91, R95, R96), so every
term of `Instr` is well formed and no check on instructions exists: an operand value outside its operation's legal range is
a legal encoding that the operation answers with ERANGE (R95). What can be ill formed is the CONFIGURATION: R2's checks stand
here, one definition each, and the machine refuses a configuration that breaks one (R344, U4). -/

namespace Sys2Proof.Config

/-- One past the last byte of queue `q`'s slot memory: `QBASE[q] + CAP[q] * SLOT_BYTES` (R2, R35). -/
def slotEnd (c : Config) (q : QueueId) : Nat :=
  c.qbase q + c.cap q * c.slotBytes

/-- R2: `1 <= CAP_TX <= 127` and `1 <= CAP_RX <= 127`. -/
def capOk (c : Config) (q : QueueId) : Bool :=
  decide (1 ≤ c.cap q) && decide (c.cap q ≤ 127)

/-- R2: `0 <= MAX_PAYLOAD <= 255`. -/
def payloadOk (c : Config) : Bool :=
  decide (c.maxPayload ≤ 255)

/-- R2: `SLOT_BYTES >= MAX_PAYLOAD + 5`. -/
def slotBytesOk (c : Config) : Bool :=
  decide (c.maxPayload + 5 ≤ c.slotBytes)

/-- R2: `QBASE[q] + CAP[q] * SLOT_BYTES <= 2^24`. -/
def fits (c : Config) (q : QueueId) : Bool :=
  decide (c.slotEnd q ≤ 2 ^ 24)

/-- R2: the two slot-memory ranges do not overlap. -/
def disjoint (c : Config) : Bool :=
  decide (c.slotEnd .txq ≤ c.qbaseRx) || decide (c.slotEnd .rxq ≤ c.qbaseTx)

/-- R2: the configuration is well formed. -/
def wellFormed (c : Config) : Bool :=
  c.capOk .txq && c.capOk .rxq && c.payloadOk && c.slotBytesOk && c.fits .txq && c.fits .rxq && c.disjoint

end Sys2Proof.Config
end

