-- ==== Sys2Proof/Decode.lean ====
section
/-! DEFINITION. Decoding (30_encoding.md R97, R98) and, after it, encoding (R91, R96). A command word is delivered whole on a
port: it is not fetched from memory, so no byte order arises (R64, R67, R90). -/

namespace Sys2Proof

/-- The field `w[hi:lo]` with `hi = lo + n - 1` (00_scope.md section 5). -/
def field (w : Word) (lo n : Nat) : BitVec n :=
  w.extractLsb' lo n

/-- The Q operand, ARG[20]: 0 selects TXQ, 1 selects RXQ (R96). -/
def queueField (w : Word) : QueueId :=
  if w.getLsbD 20 then .rxq else .txq

/-- One row of R97 with the operand fields of R96. -/
structure Row where
  pattern : Word
  mask : Word
  build : Word → Instr

/-- A word selects a row when `(w & mask) = match` (R97). -/
def Row.selects (r : Row) (w : Word) : Bool :=
  w &&& r.mask == r.pattern

/-- R97, the SYS unit. -/
def sysRows : List Row :=
  [ ⟨0x00000000, 0xFFFFFFFF, fun _ => .sysNop⟩,
    ⟨0x01000000, 0xFFFFFFFF, fun _ => .sysRdfault⟩,
    ⟨0x02000000, 0xFFFFFFFE, fun w => .sysRdfcmd (w.getLsbD 0)⟩ ]

/-- R97, the CRC unit. -/
def crcRows : List Row :=
  [ ⟨0x10000000, 0xFF000000, fun w => .crcInit (field w 0 24)⟩,
    ⟨0x11000000, 0xFFFFFF00, fun w => .crcFeed (field w 0 8)⟩,
    ⟨0x12000000, 0xFFFFFFFF, fun _ => .crcRead⟩,
    ⟨0x13000000, 0xFFFFFFFF, fun _ => .crcStat⟩,
    ⟨0x14000000, 0xFFFFFFFC, fun w => .crcTxb (field w 0 2)⟩ ]

/-- R97, the QUEUE unit. -/
def queueRows : List Row :=
  [ ⟨0x20000000, 0xFFEFFFFF, fun w => .pqAcq (queueField w)⟩,
    ⟨0x21000000, 0xFFEFFFFF, fun w => .pqCommit (queueField w)⟩,
    ⟨0x22000000, 0xFFEFFFFF, fun w => .cqAcq (queueField w)⟩,
    ⟨0x23000000, 0xFFEFFFFF, fun w => .cqRel (queueField w)⟩,
    ⟨0x24000000, 0xFFEFFFFE, fun w => .qStat (queueField w) (w.getLsbD 0)⟩,
    ⟨0x25000000, 0xFFEFFFFF, fun w => .qFlush (queueField w)⟩ ]

/-- R97, the HOP unit. -/
def hopRows : List Row :=
  [ ⟨0x30000000, 0xFFFFFFE0, fun w => .hopSethop (field w 0 5)⟩,
    ⟨0x31000000, 0xFF000000, fun w => .hopStglo (field w 0 24)⟩,
    ⟨0x32000000, 0xFFFFE000, fun w => .hopStghi (field w 0 13)⟩,
    ⟨0x33000000, 0xFFFFFFFC, fun w => .hopCommit (w.getLsbD 0) (w.getLsbD 1)⟩,
    ⟨0x34000000, 0xFFFFFFC0, fun w => .hopSetunm (field w 0 6)⟩,
    ⟨0x35000000, 0xFFFFFFFF, fun _ => .hopNext⟩,
    ⟨0x36000000, 0xFFFFFFFF, fun _ => .hopRead⟩,
    ⟨0x37000000, 0xFFFFFFFC, fun w => .hopRdmap (field w 0 2)⟩ ]

/-- R97, the ARQ unit. -/
def arqRows : List Row :=
  [ ⟨0x40000000, 0xFFFFFFFF, fun _ => .arqReset⟩,
    ⟨0x41000000, 0xFFFFFFFE, fun w => .arqRx (w.getLsbD 0)⟩,
    ⟨0x42000000, 0xFFFC0000, fun w => .arqRxx (field w 0 8) (field w 8 8) (w.getLsbD 16) (w.getLsbD 17)⟩,
    ⟨0x43000000, 0xFFFF00F8, fun w => .arqTxhdr (field w 0 2) (w.getLsbD 2) (field w 8 8)⟩,
    ⟨0x44000000, 0xFFFFFFFF, fun _ => .arqRead⟩ ]

/-- The 27 rows of R97, in its order. -/
def rows : List Row :=
  sysRows ++ crcRows ++ queueRows ++ hopRows ++ arqRows

/-- How many OP values, counted from 0, each UNIT defines (R96, R98); none for UNIT 5 to 15. -/
def opCount (unit : Nat) : Nat :=
  match unit with
  | 0 => 3
  | 1 => 5
  | 2 => 6
  | 3 => 8
  | 4 => 5
  | _ => 0

/-- Which of R98's three cases makes a word that matches no row illegal. -/
def illegalReason (w : Word) : Illegal :=
  if 5 ≤ (field w 28 4).toNat then .reservedUnit
  else if opCount (field w 28 4).toNat ≤ (field w 24 4).toNat then .undefinedOp
  else .reservedArg

/-- R98's loop: the first row the word selects, else ILLEGAL. -/
def decodeRows : List Row → Word → Except Illegal Instr
  | [], w => .error (illegalReason w)
  | r :: rest, w => if r.selects w then .ok (r.build w) else decodeRows rest w

/-- The decoder, total on every 32-bit word (R98). -/
def decode (w : Word) : Except Illegal Instr :=
  decodeRows rows w

/-- The instruction the decoder reads from a word given as the opcode table numbers it; every bit above `nbits` is 0 and a
command is exactly one 32-bit word (R90). -/
def decodeTableWord (nbits w : Nat) : Option Instr :=
  (decode (BitVec.ofNat 32 (w % 2 ^ nbits))).toOption

/-- `UNIT[31:28] OP[27:24] ARG[23:0]` (R91). -/
def commandWord (unit op : BitVec 4) (arg : BitVec 24) : Word :=
  unit ++ op ++ arg

/-- A one-bit operand at ARG bit `lo`. -/
def argBit (b : Bool) (lo : Nat) : BitVec 24 :=
  (BitVec.ofBool b).setWidth 24 <<< lo

/-- The Q operand at ARG[20] (R96). -/
def argQueue (q : QueueId) : BitVec 24 :=
  argBit (q == .rxq) 20

/-- The word of a command, from the operand column of R96; every ARG bit not named there is 0 (R91). -/
def encode : Instr → Word
  | .sysNop => commandWord 0 0 0
  | .sysRdfault => commandWord 0 1 0
  | .sysRdfcmd half => commandWord 0 2 (argBit half 0)
  | .crcInit iv => commandWord 1 0 iv
  | .crcFeed b => commandWord 1 1 (b.setWidth 24)
  | .crcRead => commandWord 1 2 0
  | .crcStat => commandWord 1 3 0
  | .crcTxb k => commandWord 1 4 (k.setWidth 24)
  | .pqAcq q => commandWord 2 0 (argQueue q)
  | .pqCommit q => commandWord 2 1 (argQueue q)
  | .cqAcq q => commandWord 2 2 (argQueue q)
  | .cqRel q => commandWord 2 3 (argQueue q)
  | .qStat q sel => commandWord 2 4 (argQueue q ||| argBit sel 0)
  | .qFlush q => commandWord 2 5 (argQueue q)
  | .hopSethop h => commandWord 3 0 (h.setWidth 24)
  | .hopStglo m => commandWord 3 1 m
  | .hopStghi m => commandWord 3 2 (m.setWidth 24)
  | .hopCommit am ah => commandWord 3 3 (argBit am 0 ||| argBit ah 1)
  | .hopSetunm c => commandWord 3 4 (c.setWidth 24)
  | .hopNext => commandWord 3 5 0
  | .hopRead => commandWord 3 6 0
  | .hopRdmap sel => commandWord 3 7 (sel.setWidth 24)
  | .arqReset => commandWord 4 0 0
  | .arqRx accept => commandWord 4 1 (argBit accept 0)
  | .arqRxx h0 h1 crcv accept =>
      commandWord 4 2 (h0.setWidth 24 ||| h1.setWidth 24 <<< 8 ||| argBit crcv 16 ||| argBit accept 17)
  | .arqTxhdr llid md len => commandWord 4 3 (llid.setWidth 24 ||| argBit md 2 ||| len.setWidth 24 <<< 8)
  | .arqRead => commandWord 4 4 0

end Sys2Proof
end

