-- ==== Sys2Proof/Machine/State.lean ====
section
/-! DEFINITION. The machine's state (10_state.md), the reasons a step can stop, and the state after reset (70_reset_and_hazards.md
R340). -/

namespace Sys2Proof.Machine

/-- A hold state, PH or CH (R31, R32). The value 3 never occurs, so it is no constructor (log entry 13). -/
inductive Hold
  /-- NONE, 0: no slot is held. -/
  | noHold
  /-- HELD, 1: the slot at the side's index is held. -/
  | held
  /-- STALE, 2: a slot was held when Q.FLUSH ran. -/
  | stale
  deriving DecidableEq, Repr

/-- The registers of one queue instance (R28, R29, R31, R32). -/
structure Queue where
  /-- RD, the consumer index (R28). -/
  rd : BitVec 8
  /-- WR, the producer index (R29). -/
  wr : BitVec 8
  /-- PH, the producer hold state (R31). -/
  ph : Hold
  /-- CH, the consumer hold state (R32). -/
  ch : Hold
  deriving DecidableEq, Repr

/-- Slot memory: the bytes written by owned accesses since reset, by address, in one canonical form (addresses strictly
rising, `Memory.wf`). An address that is not listed holds no written byte. -/
abbrev Memory := List Host.Cell

/-- What a port presents: a command word (R90, R92) or one of its own one-byte slot-memory accesses (R60). -/
inductive Request
  | command (w : Word)
  | memRead (a : Addr)
  | memWrite (a : Addr) (v : Byte)
  deriving DecidableEq, Repr

/-- What a port last received: nothing yet, a result word (R93), the byte of a `MemRead`, or the end of a `MemWrite` (R60). -/
inductive Response
  | nothing
  | result (w : Word)
  | readData (v : Byte)
  | writeDone
  deriving DecidableEq, Repr

/-- Everything the spec gives the machine, and below it the model's own fields. -/
structure State where
  /-- The configuration parameters; no step changes them (R340, R344). -/
  cfg : Config
  /-- FAULT (R23). -/
  fault : BitVec 8
  /-- FCMD (R24). -/
  fcmd : Word
  /-- CRC (R25). -/
  crc : BitVec 24
  /-- CNT (R26). -/
  cnt : BitVec 12
  /-- HDR0 (R27). -/
  hdr0 : Byte
  /-- HDR1 (R27). -/
  hdr1 : Byte
  /-- Q[0] (R28 to R32). -/
  txq : Queue
  /-- Q[1] (R28 to R32). -/
  rxq : Queue
  /-- SM[0] and SM[1] (R35). -/
  mem : Memory
  /-- HOP.MAP (R36). -/
  hopMap : ChanMap
  /-- HOP.STG (R37). -/
  hopStg : ChanMap
  /-- HOP.H (R38). -/
  hopH : BitVec 5
  /-- HOP.SH (R39). -/
  hopSh : BitVec 5
  /-- HOP.UNM (R40). -/
  hopUnm : BitVec 6
  /-- HOP.CHAN (R41). -/
  hopChan : BitVec 6
  /-- ARQ.SN (R44). -/
  arqSn : Bool
  /-- ARQ.NESN (R45). -/
  arqNesn : Bool
  /-- Model's own (log entry 7): the addresses whose last write was unowned, strictly rising; they read as any value until
  the next owned write (R75). -/
  racy : List Nat
  /-- The reset input is asserted (R340; log entry 10). -/
  resetIn : Bool
  /-- What port `I` presents, oldest first (R70, R71, R310; log entry 2). -/
  reqI : List Request
  /-- What port `A` presents, oldest first (R70, R71, R310; log entry 2). -/
  reqA : List Request
  /-- The last answer port `I` received (R93; log entry 4). -/
  respI : Response
  /-- The last answer port `A` received (R93; log entry 4). -/
  respA : Response
  /-- The port whose request is being executed: the input `p` of a command's execution (R92; log entry 5). -/
  port : Port
  /-- Model's own: how many free values were drawn (log entry 20). -/
  draws : Nat
  /-- Model's own: how many resets were applied, so that each draws slot memory anew (U1; log entry 20). -/
  resets : Nat
  deriving DecidableEq, Repr

/-- The reasons a step stops with a fault. The block has none: a faulting command is answered with a fault status and the block
goes on (R302, R311, R313), an access outside slot memory leaves it unaffected (U3), and an unowned access returns a free value
(U2). -/
inductive Fault
  /-- Raised by nothing: it stands here only so that the three outcomes of a step can be told apart by a match. Safe. -/
  | neverRaised
  deriving DecidableEq, Repr

/-- The reasons the model gives a step no meaning. -/
inductive Refusal
  /-- Raised by an arm of `exec` for an instruction without a meaning yet; no arm raises it in this model. Safe. -/
  | notModelled (mnemonic : String)
  /-- Raised by `step` when the configuration breaks R2: a model refuses an ill-formed configuration and never runs one (R2,
  R344, U4). Safe: nothing is claimed of such a block. -/
  | illFormedConfig
  deriving DecidableEq, Repr

/-- What executing a command or taking a step answers. -/
abbrev StepResult := Host.Outcome State Fault Refusal

/-- A queue after reset (R340): indices 0, no holds. -/
def Queue.reset : Queue :=
  { rd := 0, wr := 0, ph := .noHold, ch := .noHold }

/-- The block with configuration `c` right after reset (R340). -/
def State.resetWith (c : Config) : State :=
  { cfg := c
    fault := 0x00
    fcmd := 0x00000000
    crc := 0x000000
    cnt := 0
    hdr0 := 0x00
    hdr1 := 0x00
    txq := Queue.reset
    rxq := Queue.reset
    mem := []
    hopMap := 0
    hopStg := 0
    hopH := 0
    hopSh := 0
    hopUnm := 0
    hopChan := 0
    arqSn := false
    arqNesn := false
    racy := []
    resetIn := false
    reqI := []
    reqA := []
    respI := .nothing
    respA := .nothing
    port := .I
    draws := 0
    resets := 0 }

/-- The machine right after reset (R340), in the configuration of the spec's vectors (log entry 1). -/
def State.reset : State :=
  State.resetWith Config.vectors

/-- The registers of queue `q`. -/
def State.queue (s : State) : QueueId → Queue
  | .txq => s.txq
  | .rxq => s.rxq

/-- Writes the registers of queue `q`. -/
def State.setQueue (s : State) (q : QueueId) (v : Queue) : State :=
  { s with
    txq := if q = .txq then v else s.txq
    rxq := if q = .rxq then v else s.rxq }

end Sys2Proof.Machine
end

