-- ==== Sys2Proof/Machine/Operands.lean ====
section
/-! DEFINITION. Operand forms: status codes and result words (R93, R94), port rights (R303), queue roles and slot addresses
(R170, R171), legal ranges (R304), the bit orders of the CRC bytes (R145) and the data-channel header (R250 to R253, R264). -/

namespace Sys2Proof.Machine

/-- The status codes of R94. -/
inductive Status
  | ok
  | full
  | empty
  | stale
  | eseq
  | eport
  | erange
  | eunconf
  | emap
  | illegal
  deriving DecidableEq, Repr

/-- The code of each status (R94); 9 to 14 are never returned. -/
def statusCode : Status → BitVec 4
  | .ok => 0
  | .full => 1
  | .empty => 2
  | .stale => 3
  | .eseq => 4
  | .eport => 5
  | .erange => 6
  | .eunconf => 7
  | .emap => 8
  | .illegal => 15

/-- The result word `STATUS[31:28] DATA[27:0]` (R93). -/
def resultWord (st : Status) (data : Data) : Word :=
  statusCode st ++ data

/-- The six faults (R300, R302). -/
inductive FaultKind
  | illegal
  | seq
  | port
  | range
  | unconf
  | map
  deriving DecidableEq, Repr

/-- The status a fault reports (R94, R302). -/
def faultStatus : FaultKind → Status
  | .illegal => .illegal
  | .seq => .eseq
  | .port => .eport
  | .range => .erange
  | .unconf => .eunconf
  | .map => .emap

/-- The bit of FAULT a fault sets: `bit(s)` of R302 (R23). -/
def faultBit : FaultKind → Nat
  | .illegal => 0
  | .seq => 1
  | .port => 2
  | .range => 3
  | .unconf => 4
  | .map => 5

/-- The port of the other context. -/
def otherPort : Port → Port
  | .I => .A
  | .A => .I

/-- `prod(q)`, the port that may issue PQ.ACQ and PQ.COMMIT (R170). -/
def prod : QueueId → Port
  | .txq => .A
  | .rxq => .I

/-- `cons(q)`, the port that may issue CQ.ACQ and CQ.REL (R170). -/
def cons : QueueId → Port
  | .txq => .I
  | .rxq => .A

/-- The port rights, the table of R303. -/
def portMay (p : Port) : Instr → Bool
  | .sysNop | .sysRdfault | .sysRdfcmd _ => true
  | .crcInit _ | .crcFeed _ | .crcRead | .crcStat | .crcTxb _ => p == .I
  | .pqAcq q | .pqCommit q => p == prod q
  | .cqAcq q | .cqRel q => p == cons q
  | .qStat _ _ => true
  | .qFlush _ => p == .I
  | .hopSethop _ | .hopStglo _ | .hopStghi _ | .hopCommit _ _ | .hopSetunm _ | .hopNext | .hopRead | .hopRdmap _ => p == .I
  | .arqReset | .arqRx _ | .arqRxx _ _ _ _ | .arqTxhdr _ _ _ | .arqRead => p == .I

/-- `slot(q, x) = x mod CAP[q]` (R171). -/
def slotOf (c : Config) (q : QueueId) (x : BitVec 8) : Nat :=
  x.toNat % c.cap q

/-- The first byte of slot `n` of queue `q` (R63). -/
def slotBase (c : Config) (q : QueueId) (n : Nat) : Nat :=
  c.qbase q + n * c.slotBytes

/-- `slotaddr(q, x)`, 24 bits (R171). -/
def slotAddr (c : Config) (q : QueueId) (x : BitVec 8) : Addr :=
  BitVec.ofNat 24 (slotBase c q (slotOf c q x))

/-- The bytes of slot `n` of queue `q` (R63). -/
def inSlot (c : Config) (q : QueueId) (n : Nat) (a : Addr) : Bool :=
  decide (slotBase c q n ≤ a.toNat) && decide (a.toNat < slotBase c q n + c.slotBytes)

/-- The two slot-memory ranges, the only addresses the block gives meaning to (R35, R61). -/
def inSlotMemory (c : Config) (a : Addr) : Bool :=
  (decide (c.qbaseTx ≤ a.toNat) && decide (a.toNat < c.slotEnd .txq)) ||
    (decide (c.qbaseRx ≤ a.toNat) && decide (a.toNat < c.slotEnd .rxq))

/-- `(x + 1) mod (2*CAP[q])`, the index after a commit or release (R30, R173, R177). -/
def indexNext (c : Config) (q : QueueId) (x : BitVec 8) : BitVec 8 :=
  BitVec.ofNat 8 ((x.toNat + 1) % (2 * c.cap q))

/-- A legal hop increment, HMIN to HMAX (R3, R210). -/
def hopLegal (h : BitVec 5) : Bool :=
  decide (Config.hmin ≤ h.toNat) && decide (h.toNat ≤ Config.hmax)

/-- A legal unmapped channel, 0 to 36 (R220). -/
def channelLegal (c : BitVec 6) : Bool :=
  decide (c.toNat < Config.nch)

/-- A legal CRC byte index, 0 to 2 (R145). -/
def crcByteIndexLegal (k : BitVec 2) : Bool :=
  decide (k ≠ 3)

/-- A header that is not malformed: `LLID != 00` and `LEN <= MAX_PAYLOAD` (R256, R257, R264). -/
def headerLegal (c : Config) (llid : BitVec 2) (len : Byte) : Bool :=
  decide (llid ≠ 0) && decide (len.toNat ≤ c.maxPayload)

/-- `bitrev8(b)`: bit `i` of `b` moved to bit `7 - i` (00_scope.md section 5). -/
def bitrev8 (b : Byte) : Byte :=
  BitVec.ofFnLE fun i : Fin 8 => b.getLsbD (7 - i.val)

/-- `bitrev24(c)`: bit `i` of `c` moved to bit `23 - i` (R146). -/
def bitrev24 (c : BitVec 24) : BitVec 24 :=
  BitVec.ofFnLE fun i : Fin 24 => c.getLsbD (23 - i.val)

/-- On-air CRC byte `k`: `bitrev8(CRC[23 - 8*k : 16 - 8*k])` (R145). -/
def crcAirByte (c : BitVec 24) (k : Nat) : Byte :=
  bitrev8 (c.extractLsb' (16 - 8 * k) 8)

/-- LLID of header byte 0 (R253). -/
def hdrLlid (h0 : Byte) : BitVec 2 :=
  h0.extractLsb' 0 2

/-- RXNESN of header byte 0 (R253). -/
def hdrNesn (h0 : Byte) : Bool :=
  h0.getLsbD 2

/-- RXSN of header byte 0 (R253). -/
def hdrSn (h0 : Byte) : Bool :=
  h0.getLsbD 3

/-- MD of header byte 0 (R253). The RFU bits 7:5 are read by nothing (R252). -/
def hdrMd (h0 : Byte) : Bool :=
  h0.getLsbD 4

/-- Header byte 0 for transmission: `{ 0b000, md, SN, NESN, llid }` (R252, R264). -/
def headerByte0 (md sn nesn : Bool) (llid : BitVec 2) : Byte :=
  (0 : BitVec 3) ++ BitVec.ofBool md ++ BitVec.ofBool sn ++ BitVec.ofBool nesn ++ llid

/-- The 2-bit code of a hold state (R31, R32). -/
def holdCode : Hold → BitVec 2
  | .noHold => 0
  | .held => 1
  | .stale => 2

/-- A hold after Q.FLUSH: HELD becomes STALE, NONE and STALE stay (R180). -/
def holdFlushed : Hold → Hold
  | .noHold => .noHold
  | .held => .stale
  | .stale => .stale

/-- Sets bit `i` of an 8-bit register to `b`. -/
def setBit (r : BitVec 8) (i : Nat) (b : Bool) : BitVec 8 :=
  if b then r ||| 1#8 <<< i else r &&& ~~~(1#8 <<< i)

end Sys2Proof.Machine
end

