-- ==== Sys2Proof/Machine/Flags.lean ====
section
/-! DEFINITION. Every derived value and flag: the queue flags (R33, R34), the hop unit's (R42, R43, R205), the CRC step and its
ZERO flag (R140, R143), and the ARQ unit's valid-packet detector and detection bits (R254 to R258). The block has no
condition-code register (R22). -/

namespace Sys2Proof.Machine

/-- `COUNT[q] = (WR - RD) mod (2*CAP[q])`, the non-negative remainder (R33). -/
def queueCount (c : Config) (q : QueueId) (v : Queue) : Nat :=
  (((v.wr.toNat : Int) - v.rd.toNat) % (2 * c.cap q : Nat)).toNat

/-- `EMPTY[q]` (R33). -/
def queueEmpty (c : Config) (q : QueueId) (v : Queue) : Bool :=
  queueCount c q v == 0

/-- `FULL[q]` (R33). -/
def queueFull (c : Config) (q : QueueId) (v : Queue) : Bool :=
  queueCount c q v == c.cap q

/-- `used(m)`: the used channels in ascending order (R205). -/
def usedChannels (m : ChanMap) : List Nat :=
  (List.range Config.nch).filter fun k => m.getLsbD k

/-- `popcount(m)` of a channel map: how many channels are used (R42). -/
def popcount (m : ChanMap) : Nat :=
  (usedChannels m).length

/-- `CONFIGURED = (HMIN <= H <= HMAX) and (NUSED >= MINUSED)` (R42, R43). -/
def hopConfigured (s : State) : Bool :=
  hopLegal s.hopH && decide (Config.minUsed ≤ popcount s.hopMap)

/-- The unmapped channel `u = (c + h) mod 37` (R206). -/
def hopUnmapped (c : BitVec 6) (h : BitVec 5) : Nat :=
  (c.toNat + h.toNat) % Config.nch

/-- REMAPPED: the unmapped channel is not used (R206). -/
def hopRemapped (u : Nat) (m : ChanMap) : Bool :=
  !m.getLsbD u

/-- The channel of R206 for unmapped channel `u`: `u` itself when used, else `used(m)[u mod n]`, counted from 0 (R207). -/
def hopChannel (u : Nat) (m : ChanMap) : Nat :=
  if hopRemapped u m then (usedChannels m).getD (u % popcount m) 0 else u

/-- POLY, the feedback taps of the generator polynomial (R140). -/
def crcPoly : BitVec 24 := 0x00065B

/-- `crc_bit(c, d)`: one input bit advances the register (R140). -/
def crcBit (c : BitVec 24) (d : Bool) : BitVec 24 :=
  if c.getLsbD 23 ^^ d then (c <<< 1) ^^^ crcPoly else c <<< 1

/-- `crc_byte(c, b)`: a byte enters least significant bit first (R140). -/
def crcByte (c : BitVec 24) (b : Byte) : BitVec 24 :=
  (List.range 8).foldl (fun r i => crcBit r (b.getLsbD i)) c

/-- One bit of R146's reflected form. -/
def crcBitReflected (r : BitVec 24) (d : Bool) : BitVec 24 :=
  if r.getLsbD 0 ^^ d then (r >>> 1) ^^^ 0xDA6000 else r >>> 1

/-- One byte of R146's reflected form. -/
def crcByteReflected (r : BitVec 24) (b : Byte) : BitVec 24 :=
  (List.range 8).foldl (fun t i => crcBitReflected t (b.getLsbD i)) r

/-- ZERO, and CRCOK of ARQ.RX: the register is 0 (R143, R147, R256). -/
def crcZero (c : BitVec 24) : Bool :=
  c == 0

/-- CNT after a feed: saturates at 4095 (R142). -/
def cntNext (n : BitVec 12) : BitVec 12 :=
  BitVec.ofNat 12 (min (n.toNat + 1) 4095)

/-- LENOK of ARQ.RX: `CNT = HDR1 + 5` (R256). -/
def lenOk (n : BitVec 12) (h1 : Byte) : Bool :=
  decide (n.toNat = h1.toNat + 5)

/-- What ARQ.RX or ARQ.RXX judges: the header bytes, the CRC and length verdicts, and ACCEPT (R256, R257, R258). -/
structure RxPacket where
  h0 : Byte
  h1 : Byte
  crcOk : Bool
  lenOk : Bool
  accept : Bool
  deriving DecidableEq, Repr

/-- HDROK (R256, R257). -/
def rxHdrOk (c : Config) (k : RxPacket) : Bool :=
  headerLegal c (hdrLlid k.h0) k.h1

/-- VALID: the valid-packet detector (R256, R257). -/
def rxValid (c : Config) (k : RxPacket) : Bool :=
  k.crcOk && k.lenOk && rxHdrOk c k

/-- LASTRXSN, the last received SN: `~ARQ.NESN` (R46). -/
def lastRxSn (s : State) : Bool :=
  !s.arqNesn

/-- EACC: an empty PDU is always accepted (R258). -/
def rxEacc (k : RxPacket) : Bool :=
  k.accept || k.h1 == 0

/-- NEW (R254, R258). -/
def rxNew (s : State) (k : RxPacket) : Bool :=
  rxValid s.cfg k && (hdrSn k.h0 == s.arqNesn)

/-- ACKED (R255, R258). -/
def rxAcked (s : State) (k : RxPacket) : Bool :=
  rxValid s.cfg k && (hdrNesn k.h0 != s.arqSn)

/-- DUP (R254, R258). -/
def rxDup (s : State) (k : RxPacket) : Bool :=
  rxValid s.cfg k && !rxNew s k

/-- DROP (R258). -/
def rxDrop (s : State) (k : RxPacket) : Bool :=
  rxNew s k && !rxEacc k

/-- DELIVER (R258). -/
def rxDeliver (s : State) (k : RxPacket) : Bool :=
  rxNew s k && rxEacc k && k.h1 != 0

/-- `sn' = SN ^ ACKED` (R259). -/
def rxSnNext (s : State) (k : RxPacket) : Bool :=
  s.arqSn ^^ rxAcked s k

/-- `nesn' = NESN ^ (NEW and EACC)` (R259). -/
def rxNesnNext (s : State) (k : RxPacket) : Bool :=
  s.arqNesn ^^ (rxNew s k && rxEacc k)

/-- The DATA field ARQ.RX and ARQ.RXX answer: bits 23 down to 0 as R259 lists them. -/
def rxData (s : State) (k : RxPacket) : Data :=
  (BitVec.ofBool (hdrNesn k.h0) ++ BitVec.ofBool (hdrSn k.h0) ++
    BitVec.ofBool (rxNesnNext s k) ++ BitVec.ofBool (rxSnNext s k) ++
    k.h1 ++ hdrLlid k.h0 ++
    BitVec.ofBool (rxHdrOk s.cfg k) ++ BitVec.ofBool k.lenOk ++ BitVec.ofBool k.crcOk ++
    BitVec.ofBool (hdrMd k.h0) ++ BitVec.ofBool (rxDrop s k) ++ BitVec.ofBool (rxDup s k) ++
    BitVec.ofBool (rxDeliver s k) ++ BitVec.ofBool (rxAcked s k) ++ BitVec.ofBool (rxNew s k) ++
    BitVec.ofBool (rxValid s.cfg k)).setWidth 28

end Sys2Proof.Machine
end

