-- ==== Sys2Proof/Machine/Ops.lean ====
section
/-! DEFINITION. The shared operations: answering a command (R93), taking a fault (R302; there is no trap and no return from
one, R313), the check order of R300, slot memory and its ownership (20_memory.md), what the step takes from the ports (R70,
R310), and the reset input (R340). -/

namespace Sys2Proof.Machine

/-- The port whose request is being executed receives `r`; the other port's last answer stays (R311). -/
def State.respond (s : State) (r : Response) : State :=
  { s with
    respI := if s.port = .I then r else s.respI
    respA := if s.port = .A then r else s.respA }

/-- `return (status, data)`: the command ends and its port receives the result word (R93). -/
def answer (st : Status) (data : Data) (s : State) : StepResult :=
  .next (s.respond (.result (resultWord st data)))

/-- FVALID, FAULT[7]: a fault was taken since reset (R23). -/
def State.faultValid (s : State) : Bool :=
  s.fault.getLsbD 7

/-- Taking a fault `k` of the command word `w`: FAULT[bit(s)] is set, and the first fault since reset also sets FVALID, records
its port in FPORT and its word in FCMD (R302). -/
def State.takeFault (s : State) (k : FaultKind) (w : Word) : State :=
  { s with
    fault :=
      if s.faultValid then setBit s.fault (faultBit k) true
      else setBit (setBit (setBit s.fault (faultBit k) true) 7 true) 6 (s.port == .A)
    fcmd := if s.faultValid then s.fcmd else w }

/-- `raise Fault(status)`: the command is abandoned, the fault is taken and the result is `(status, 0)` (R302). -/
def raiseFault (k : FaultKind) (w : Word) (s : State) : StepResult :=
  answer (faultStatus k) 0 (s.takeFault k w)

/-- The checks of one command after its port check, in order: the first that fails decides the outcome (R300). -/
def runChecks (w : Word) (s : State) (body : StepResult) : List (Bool × FaultKind) → StepResult
  | [] => body
  | (good, k) :: rest => if good then runChecks w s body rest else raiseFault k w s

/-- R300's order for a decoded command: its port, then its own checks as listed, then its rule. The word a fault records is the
command's own (R302; log entry 16). -/
def checked (i : Instr) (s : State) (checks : List (Bool × FaultKind)) (body : StepResult) : StepResult :=
  runChecks (encode i) s body ((portMay s.port i, .port) :: checks)

/-- A word no row matches: the fault ILLEGAL (R301). -/
def illegalCommand (w : Word) (s : State) : StepResult :=
  raiseFault .illegal w s

/-- ARQ.RX's and ARQ.RXX's `arq_update` (R259). -/
def arqUpdate (k : RxPacket) (s : State) : StepResult :=
  answer .ok (rxData s k) { s with arqSn := rxSnNext s k, arqNesn := rxNesnNext s k }

/-! ### Slot memory -/

/-- The byte written at address `a`, if an owned access wrote one since reset. What an unlisted address reads as is decided here
once: no written byte; `slotByte` then gives the byte drawn at reset (U1; log entry 6). -/
def Memory.read : Memory → Nat → Option Byte
  | [], _ => none
  | (b, v) :: rest, a => if a = b then some v else Memory.read rest a

/-- Writes byte `v` at address `a`, keeping the addresses strictly rising. -/
def Memory.write : Memory → Nat → Byte → Memory
  | [], a, v => [(a, v)]
  | (b, u) :: rest, a, v =>
    if a < b then (a, v) :: (b, u) :: rest
    else if a = b then (a, v) :: rest
    else (b, u) :: Memory.write rest a v

/-- Forgets what was written at address `a`. -/
def Memory.erase : Memory → Nat → Memory
  | [], _ => []
  | (b, u) :: rest, a => if a = b then rest else (b, u) :: Memory.erase rest a

/-- The canonical form: addresses strictly rising and inside the 24-bit buffer space (R61). An unlisted address holds no written
byte, so no entry can equal what an unlisted address reads as. -/
def Memory.wf (m : Memory) : Bool :=
  decide (m.Pairwise fun x y => x.1 < y.1) && m.all fun x => decide (x.1 < 2 ^ 24)

/-- Adds an address to a strictly rising list of addresses. -/
def addAddress : List Nat → Nat → List Nat
  | [], a => [a]
  | b :: rest, a => if a < b then a :: b :: rest else if a = b then b :: rest else b :: addAddress rest a

/-- The canonical form of a list of addresses: strictly rising and inside the 24-bit buffer space (R61). -/
def addressesWf (l : List Nat) : Bool :=
  decide (l.Pairwise fun x y => x < y) && l.all fun x => decide (x < 2 ^ 24)

/-- Removes an address from a list of addresses. -/
def dropAddress : List Nat → Nat → List Nat
  | [], _ => []
  | b :: rest, a => if a = b then rest else b :: dropAddress rest a

/-- Port `p` holds, as the producer or the consumer of queue `q`, a slot that holds address `a` (R31, R32, R72). -/
def ownsIn (s : State) (p : Port) (q : QueueId) (a : Addr) : Bool :=
  (p == prod q && (s.queue q).ph == .held && inSlot s.cfg q (slotOf s.cfg q (s.queue q).wr) a) ||
    (p == cons q && (s.queue q).ch == .held && inSlot s.cfg q (slotOf s.cfg q (s.queue q).rd) a)

/-- Port `p` owns the byte at address `a` (R72). -/
def owns (s : State) (p : Port) (a : Addr) : Bool :=
  ownsIn s p .txq a || ownsIn s p .rxq a

/-- The byte slot memory holds at address `a`: none after an unowned write, until the next owned one (R75); else the last byte
an owned access wrote, else the byte drawn at the last reset (U1, R76). -/
def slotByte (s : State) (a : Addr) : Option Byte :=
  if s.racy.contains a.toNat then none
  else some ((Memory.read s.mem a.toNat).getD (Config.byteAtReset s.resets a.toNat))

/-- The byte an access by port `p` reads, if the spec fixes it: an owned access inside slot memory to a byte no unowned write
left open (R61, R73, R75, R76). -/
def readable (s : State) (p : Port) (a : Addr) : Option Byte :=
  if inSlotMemory s.cfg a && owns s p a then slotByte s a else none

/-- `MemRead(a, 1)` by the port being executed: the byte the spec fixes, else any 8-bit value (U1, U2, U3). It changes no state of
the block (R69); drawing a free value only advances the model's counter. -/
def portRead (a : Addr) (s : State) : StepResult :=
  match readable s s.port a with
  | some v => .next (s.respond (.readData v))
  | none => .next (({ s with draws := s.draws + 1 }).respond (.readData (Config.unspecifiedByte s.draws)))

/-- What slot memory holds after a write of `v` at `a` by the port being executed: outside slot memory nothing changes (R61, U3);
an owned write stores the byte (R72, R73); an unowned write leaves the byte open (R75). -/
def State.storeByte (s : State) (a : Addr) (v : Byte) : State :=
  if !inSlotMemory s.cfg a then s
  else if owns s s.port a then
    { s with mem := Memory.write s.mem a.toNat v, racy := dropAddress s.racy a.toNat }
  else { s with mem := Memory.erase s.mem a.toNat, racy := addAddress s.racy a.toNat }

/-- `MemWrite(a, 1, v)` by the port being executed (R60). -/
def portWrite (a : Addr) (v : Byte) (s : State) : StepResult :=
  .next ((s.storeByte a v).respond .writeDone)

/-! ### Ports and reset -/

/-- What port `p` presents, oldest first. -/
def State.requests (s : State) : Port → List Request
  | .I => s.reqI
  | .A => s.reqA

/-- The last answer port `p` received. -/
def State.response (s : State) : Port → Response
  | .I => s.respI
  | .A => s.respA

/-- The port that goes next: the only one presenting a request, or, when both do, one the block chooses (R310, U6; log entry 3). -/
def nextPort (s : State) : Option Port :=
  match s.reqI, s.reqA with
  | [], [] => none
  | _ :: _, [] => some .I
  | [], _ :: _ => some .A
  | _ :: _, _ :: _ => some (if Config.arbiterPicksA s.draws then .A else .I)

/-- Takes the oldest request of port `p`, which becomes the port being executed; a choice between two waiting ports uses up one
free value. -/
def State.grant (s : State) (p : Port) : State :=
  { s with
    port := p
    reqI := if p = .I then s.reqI.tail else s.reqI
    reqA := if p = .A then s.reqA.tail else s.reqA
    draws := if s.reqI.isEmpty || s.reqA.isEmpty then s.draws else s.draws + 1 }

/-- The request the step executes, with the state in which it executes: each port's requests in that port's order (R70, R71). -/
def fetch (s : State) : Option (Request × State) :=
  match nextPort s with
  | none => none
  | some p => (s.requests p).head?.map fun r => (r, s.grant p)

/-- The reset input, asserted between commands (R340): every register at its reset value, slot memory unspecified anew, the
configuration and what the ports present and received unchanged (log entry 10). -/
def State.applyReset (s : State) : State :=
  { State.resetWith s.cfg with
    reqI := s.reqI
    reqA := s.reqA
    respI := s.respI
    respA := s.respA
    port := s.port
    draws := s.draws
    resets := s.resets + 1 }

/-- Outside the block: port `p` presents `r` after what it already presents (R310; log entry 2). -/
def State.present (s : State) (p : Port) (r : Request) : State :=
  { s with
    reqI := if p = .I then s.reqI ++ [r] else s.reqI
    reqA := if p = .A then s.reqA ++ [r] else s.reqA }

/-- The port on which a word is presented when nothing else decides it: `I`, unless the word's command is one only `A` may issue
(R303; log entry 2). -/
def placementPort (w : Word) : Port :=
  match decode w with
  | .ok i => if portMay .I i then .I else .A
  | .error _ => .I

/-- Outside the block: the word `w` is the very next request, presented by `placementPort w` before that port's own requests, with
the other port presenting nothing and reset not asserted (log entry 2). -/
def State.placeWord (s : State) (w : Word) : State :=
  { s with
    resetIn := false
    reqI := if placementPort w = .I then .command w :: s.reqI else []
    reqA := if placementPort w = .A then .command w :: s.reqA else [] }

end Sys2Proof.Machine
end

