-- ==== Sys2Proof/Machine/Arq.lean ====
section
/-! DEFINITION. The ARQ unit's commands (44_arq.md). -/

namespace Sys2Proof.Machine

/-- ARQ.RESET (R260). -/
def execArqReset (s : State) : StepResult :=
  checked .arqReset s [] (answer .ok 0 { s with arqSn := false, arqNesn := false })

/-- What ARQ.RX judges: the CRC unit's state after the received bytes were fed (R256, R261). -/
def crcPacket (accept : Bool) (s : State) : RxPacket :=
  { h0 := s.hdr0, h1 := s.hdr1, crcOk := crcZero s.crc, lenOk := lenOk s.cnt s.hdr1, accept := accept }

/-- ARQ.RX (R261): the CRC unit is read, not changed. -/
def execArqRx (accept : Bool) (s : State) : StepResult :=
  checked (.arqRx accept) s [] (arqUpdate (crcPacket accept s) s)

/-- ARQ.RXX (R257, R262): the radio's CRC verdict and the header bytes are operands, LENOK is 1. -/
def execArqRxx (h0 h1 : Byte) (crcv accept : Bool) (s : State) : StepResult :=
  checked (.arqRxx h0 h1 crcv accept) s []
    (arqUpdate { h0 := h0, h1 := h1, crcOk := crcv, lenOk := true, accept := accept } s)

/-- ARQ.TXHDR's DATA: `{ NESN, SN, b1, b0 }` (R264). -/
def txHeaderData (llid : BitVec 2) (md : Bool) (len : Byte) (s : State) : Data :=
  (BitVec.ofBool s.arqNesn ++ BitVec.ofBool s.arqSn ++ len ++ headerByte0 md s.arqSn s.arqNesn llid).setWidth 28

/-- ARQ.TXHDR (R264): ERANGE for LLID 00 or LEN above MAX_PAYLOAD; read-only. -/
def execArqTxhdr (llid : BitVec 2) (md : Bool) (len : Byte) (s : State) : StepResult :=
  checked (.arqTxhdr llid md len) s [(headerLegal s.cfg llid len, .range)]
    (answer .ok (txHeaderData llid md len s) s)

/-- ARQ.READ (R265): `{ NESN, SN }`. -/
def execArqRead (s : State) : StepResult :=
  checked .arqRead s [] (answer .ok ((BitVec.ofBool s.arqNesn ++ BitVec.ofBool s.arqSn).setWidth 28) s)

end Sys2Proof.Machine
end

