-- ==== Sys2Proof/Machine/Crc.lean ====
section
/-! DEFINITION. The CRC unit's commands (41_crc.md). -/

namespace Sys2Proof.Machine

/-- `zext_28({ (c = 0), c[23:0] })`: ZERO in DATA[24], the register in DATA[23:0] (R142, R143). -/
def crcData (c : BitVec 24) : Data :=
  (BitVec.ofBool (crcZero c) ++ c).setWidth 28

/-- CRC.INIT (R141). -/
def execCrcInit (iv : BitVec 24) (s : State) : StepResult :=
  checked (.crcInit iv) s []
    (answer .ok (iv.setWidth 28) { s with crc := iv, cnt := 0, hdr0 := 0x00, hdr1 := 0x00 })

/-- CRC.FEED (R142): the header capture uses CNT before the feed. -/
def execCrcFeed (b : Byte) (s : State) : StepResult :=
  checked (.crcFeed b) s []
    (answer .ok (crcData (crcByte s.crc b))
      { s with
        crc := crcByte s.crc b
        cnt := cntNext s.cnt
        hdr0 := if s.cnt = 0 then b else s.hdr0
        hdr1 := if s.cnt = 1 then b else s.hdr1 })

/-- CRC.READ (R143). -/
def execCrcRead (s : State) : StepResult :=
  checked .crcRead s [] (answer .ok (crcData s.crc) s)

/-- CRC.STAT (R144): `{ HDR1, HDR0, CNT }`. -/
def execCrcStat (s : State) : StepResult :=
  checked .crcStat s [] (answer .ok (s.hdr1 ++ s.hdr0 ++ s.cnt) s)

/-- CRC.TXB (R145): ERANGE when K is 3. -/
def execCrcTxb (k : BitVec 2) (s : State) : StepResult :=
  checked (.crcTxb k) s [(crcByteIndexLegal k, .range)]
    (answer .ok ((crcAirByte s.crc k.toNat).setWidth 28) s)

end Sys2Proof.Machine
end

