-- ==== Sys2Proof/Machine/Hop.lean ====
section
/-! DEFINITION. The HOP unit's commands (43_hop.md). The unit stops at the channel index: no frequency is computed (R228). -/

namespace Sys2Proof.Machine

/-- HOP.SETHOP (R210): ERANGE outside 5 to 16. -/
def execHopSethop (h : BitVec 5) (s : State) : StepResult :=
  checked (.hopSethop h) s [(hopLegal h, .range)]
    (answer .ok (h.setWidth 28) { s with hopSh := h })

/-- HOP.STGLO (R211): `STG[23:0] <- M`, STG[36:24] unchanged. -/
def execHopStglo (m : BitVec 24) (s : State) : StepResult :=
  checked (.hopStglo m) s []
    (answer .ok 0 { s with hopStg := s.hopStg.extractLsb' 24 13 ++ m })

/-- HOP.STGHI (R212): `STG[36:24] <- M`, STG[23:0] unchanged. -/
def execHopStghi (m : BitVec 13) (s : State) : StepResult :=
  checked (.hopStghi m) s []
    (answer .ok 0 { s with hopStg := m ++ s.hopStg.extractLsb' 0 24 })

/-- The active map after HOP.COMMIT's checks pass (R218). -/
def commitMap (am : Bool) (s : State) : ChanMap :=
  if am then s.hopStg else s.hopMap

/-- The active increment after HOP.COMMIT's checks pass (R218). -/
def commitH (ah : Bool) (s : State) : BitVec 5 :=
  if ah then s.hopSh else s.hopH

/-- HOP.COMMIT (R218): ERANGE before EMAP, all or nothing (R219). -/
def execHopCommit (am ah : Bool) (s : State) : StepResult :=
  checked (.hopCommit am ah) s
    [(!ah || hopLegal s.hopSh, .range), (!am || decide (Config.minUsed ≤ popcount s.hopStg), .map)]
    (answer .ok ((commitH ah s ++ BitVec.ofNat 6 (popcount (commitMap am s))).setWidth 28)
      { s with hopMap := commitMap am s, hopH := commitH ah s })

/-- HOP.SETUNM (R220): ERANGE above 36; HOP.CHAN is unchanged. -/
def execHopSetunm (c : BitVec 6) (s : State) : StepResult :=
  checked (.hopSetunm c) s [(channelLegal c, .range)]
    (answer .ok (c.setWidth 28) { s with hopUnm := c })

/-- HOP.NEXT's DATA: `{ NUSED, 0b00, u, 0b0, rm, ch }` (R223). -/
def hopNextData (u : Nat) (m : ChanMap) : Data :=
  (BitVec.ofNat 6 (popcount m) ++ (0 : BitVec 2) ++ BitVec.ofNat 6 u ++ (0 : BitVec 1) ++
    BitVec.ofBool (hopRemapped u m) ++ BitVec.ofNat 6 (hopChannel u m)).setWidth 28

/-- HOP.NEXT (R223): EUNCONF while unconfigured; the hop starts from the last unmapped channel (R208). The
block counts no connection events, so each HOP.NEXT hops once, whatever came before it; the once an event is `eventHop` of
Machine/Assembly.lean (R224, R352, U7). -/
def execHopNext (s : State) : StepResult :=
  checked .hopNext s [(hopConfigured s, .unconf)]
    (answer .ok (hopNextData (hopUnmapped s.hopUnm s.hopH) s.hopMap)
      { s with
        hopUnm := BitVec.ofNat 6 (hopUnmapped s.hopUnm s.hopH)
        hopChan := BitVec.ofNat 6 (hopChannel (hopUnmapped s.hopUnm s.hopH) s.hopMap) })

/-- HOP.READ's DATA: `{ CONFIGURED, SH, H, UNM, 0b00, CHAN }` (R226). -/
def hopReadData (s : State) : Data :=
  (BitVec.ofBool (hopConfigured s) ++ s.hopSh ++ s.hopH ++ s.hopUnm ++ (0 : BitVec 2) ++ s.hopChan).setWidth 28

/-- HOP.READ (R226). -/
def execHopRead (s : State) : StepResult :=
  checked .hopRead s [] (answer .ok (hopReadData s) s)

/-- HOP.RDMAP's DATA for each SEL (R227). -/
def hopMapData (sel : BitVec 2) (s : State) : Data :=
  if sel = 0 then (s.hopMap.extractLsb' 0 24).setWidth 28
  else if sel = 1 then (s.hopMap.extractLsb' 24 13).setWidth 28
  else if sel = 2 then (s.hopStg.extractLsb' 0 24).setWidth 28
  else (s.hopStg.extractLsb' 24 13).setWidth 28

/-- HOP.RDMAP (R227). -/
def execHopRdmap (sel : BitVec 2) (s : State) : StepResult :=
  checked (.hopRdmap sel) s [] (answer .ok (hopMapData sel s) s)

end Sys2Proof.Machine
end

