-- ==== Sys2Proof/Machine/PacketQueue.lean ====
section
/-! DEFINITION. The QUEUE unit's commands (42_queue.md). -/

namespace Sys2Proof.Machine

/-- PQ.ACQ (R172): a hold already HELD answers its slot again; FULL is a normal status. -/
def execPqAcq (q : QueueId) (s : State) : StepResult :=
  checked (.pqAcq q) s []
    (if (s.queue q).ph = .held then answer .ok ((slotAddr s.cfg q (s.queue q).wr).setWidth 28) s
     else if queueFull s.cfg q (s.queue q) then answer .full 0 s
     else answer .ok ((slotAddr s.cfg q (s.queue q).wr).setWidth 28)
       (s.setQueue q { s.queue q with ph := .held }))

/-- The queue after a commit of a HELD slot (R173). -/
def queueCommitted (c : Config) (q : QueueId) (v : Queue) : Queue :=
  { v with wr := indexNext c q v.wr, ph := .noHold }

/-- PQ.COMMIT (R173): ESEQ with no hold; STALE ends a hold that Q.FLUSH abandoned. -/
def execPqCommit (q : QueueId) (s : State) : StepResult :=
  checked (.pqCommit q) s [(decide ((s.queue q).ph ≠ .noHold), .seq)]
    (if (s.queue q).ph = .stale then answer .stale 0 (s.setQueue q { s.queue q with ph := .noHold })
     else answer .ok (BitVec.ofNat 28 (queueCount s.cfg q (queueCommitted s.cfg q (s.queue q))))
       (s.setQueue q (queueCommitted s.cfg q (s.queue q))))

/-- CQ.ACQ (R174): a hold already HELD answers its slot again; EMPTY is a normal status. -/
def execCqAcq (q : QueueId) (s : State) : StepResult :=
  checked (.cqAcq q) s []
    (if (s.queue q).ch = .held then answer .ok ((slotAddr s.cfg q (s.queue q).rd).setWidth 28) s
     else if queueEmpty s.cfg q (s.queue q) then answer .empty 0 s
     else answer .ok ((slotAddr s.cfg q (s.queue q).rd).setWidth 28)
       (s.setQueue q { s.queue q with ch := .held }))

/-- The queue after a release of a HELD slot (R177). -/
def queueReleased (c : Config) (q : QueueId) (v : Queue) : Queue :=
  { v with rd := indexNext c q v.rd, ch := .noHold }

/-- CQ.REL (R177): ESEQ with no hold; STALE ends a hold that Q.FLUSH abandoned. -/
def execCqRel (q : QueueId) (s : State) : StepResult :=
  checked (.cqRel q) s [(decide ((s.queue q).ch ≠ .noHold), .seq)]
    (if (s.queue q).ch = .stale then answer .stale 0 (s.setQueue q { s.queue q with ch := .noHold })
     else answer .ok (BitVec.ofNat 28 (queueCount s.cfg q (queueReleased s.cfg q (s.queue q))))
       (s.setQueue q (queueReleased s.cfg q (s.queue q))))

/-- Q.STAT's DATA for SEL 0: `{ FULL, EMPTY, COUNT[7:0], WR, RD }` (R179). -/
def queueStatus (c : Config) (q : QueueId) (v : Queue) : Data :=
  (BitVec.ofBool (queueFull c q v) ++ BitVec.ofBool (queueEmpty c q v) ++
    BitVec.ofNat 8 (queueCount c q v) ++ v.wr ++ v.rd).setWidth 28

/-- Q.STAT's DATA for SEL 1: `{ CAP[q][7:0], CH, PH }` (R179). -/
def queueHolds (c : Config) (q : QueueId) (v : Queue) : Data :=
  (BitVec.ofNat 8 (c.cap q) ++ holdCode v.ch ++ holdCode v.ph).setWidth 28

/-- Q.STAT (R179). -/
def execQStat (q : QueueId) (sel : Bool) (s : State) : StepResult :=
  checked (.qStat q sel) s []
    (answer .ok (if sel then queueHolds s.cfg q (s.queue q) else queueStatus s.cfg q (s.queue q)) s)

/-- Q.FLUSH (R180): both indices 0, a hold in progress becomes STALE; no slot byte is touched. -/
def execQFlush (q : QueueId) (s : State) : StepResult :=
  checked (.qFlush q) s []
    (answer .ok 0
      (s.setQueue q
        { rd := 0, wr := 0, ph := holdFlushed (s.queue q).ph, ch := holdFlushed (s.queue q).ch }))

end Sys2Proof.Machine
end

