-- ==== Sys2Proof/Machine/Sys.lean ====
section
/-! DEFINITION. The SYS unit's commands (40_sys.md). -/

namespace Sys2Proof.Machine

/-- SYS.NOP (R130). -/
def execSysNop (s : State) : StepResult :=
  checked .sysNop s [] (answer .ok 0 s)

/-- SYS.RDFAULT (R131). -/
def execSysRdfault (s : State) : StepResult :=
  checked .sysRdfault s [] (answer .ok (s.fault.setWidth 28) s)

/-- SYS.RDFCMD (R132): FCMD[15:0] for HALF 0, FCMD[31:16] for HALF 1. -/
def execSysRdfcmd (half : Bool) (s : State) : StepResult :=
  checked (.sysRdfcmd half) s []
    (answer .ok ((if half then s.fcmd.extractLsb' 16 16 else s.fcmd.extractLsb' 0 16).setWidth 28) s)

end Sys2Proof.Machine
end

