-- ==== Sys2Proof/Machine/Dispatch.lean ====
section
/-! DEFINITION. One arm for each command of 30_encoding.md R96, in the table's order. -/

namespace Sys2Proof.Machine

/-- The meaning of one decoded command, executed for the port in `s.port` (R92). -/
def exec (i : Instr) (s : State) : Host.Outcome State Fault Refusal :=
  match i with
  | .sysNop => Sys2Proof.Machine.execSysNop s
  | .sysRdfault => Sys2Proof.Machine.execSysRdfault s
  | .sysRdfcmd half => Sys2Proof.Machine.execSysRdfcmd half s
  | .crcInit iv => Sys2Proof.Machine.execCrcInit iv s
  | .crcFeed b => Sys2Proof.Machine.execCrcFeed b s
  | .crcRead => Sys2Proof.Machine.execCrcRead s
  | .crcStat => Sys2Proof.Machine.execCrcStat s
  | .crcTxb k => Sys2Proof.Machine.execCrcTxb k s
  | .pqAcq q => Sys2Proof.Machine.execPqAcq q s
  | .pqCommit q => Sys2Proof.Machine.execPqCommit q s
  | .cqAcq q => Sys2Proof.Machine.execCqAcq q s
  | .cqRel q => Sys2Proof.Machine.execCqRel q s
  | .qStat q sel => Sys2Proof.Machine.execQStat q sel s
  | .qFlush q => Sys2Proof.Machine.execQFlush q s
  | .hopSethop h => Sys2Proof.Machine.execHopSethop h s
  | .hopStglo m => Sys2Proof.Machine.execHopStglo m s
  | .hopStghi m => Sys2Proof.Machine.execHopStghi m s
  | .hopCommit am ah => Sys2Proof.Machine.execHopCommit am ah s
  | .hopSetunm c => Sys2Proof.Machine.execHopSetunm c s
  | .hopNext => Sys2Proof.Machine.execHopNext s
  | .hopRead => Sys2Proof.Machine.execHopRead s
  | .hopRdmap sel => Sys2Proof.Machine.execHopRdmap sel s
  | .arqReset => Sys2Proof.Machine.execArqReset s
  | .arqRx accept => Sys2Proof.Machine.execArqRx accept s
  | .arqRxx h0 h1 crcv accept => Sys2Proof.Machine.execArqRxx h0 h1 crcv accept s
  | .arqTxhdr llid md len => Sys2Proof.Machine.execArqTxhdr llid md len s
  | .arqRead => Sys2Proof.Machine.execArqRead s

end Sys2Proof.Machine
end

