-- ==== Sys2Proof/Machine/Step.lean ====
section
/-! DEFINITION. One step of the block: an ill-formed configuration is refused (R344); an asserted reset input is served first
(R340); else one request of one port is executed, atomically (R68, R70); with nothing presented the block waits (R341). -/

namespace Sys2Proof.Machine

/-- Executing one request in the state in which its port was granted. -/
def serve (r : Request) (s : State) : StepResult :=
  match r with
  | .command w =>
    match decode w with
    | .ok i => exec i s
    | .error _ => illegalCommand w s
  | .memRead a => portRead a s
  | .memWrite a v => portWrite a v s

/-- One step. -/
def step (s : State) : Host.Outcome State Fault Refusal :=
  if s.cfg.wellFormed then
    if s.resetIn then .next s.applyReset
    else
      match fetch s with
      | none => .next s
      | some (r, t) => serve r t
  else .refused .illFormedConfig

/-- The state in which the word numbered as the opcode table numbers it is the very next request (log entry 2). Commands come from
the ports (R21): this stands for a caller issuing the word. -/
def State.withFetchWord (s : State) (nbits w : Nat) : State :=
  s.placeWord (BitVec.ofNat 32 (w % 2 ^ nbits))

end Sys2Proof.Machine
end

