-- ==== Sys2Proof/Machine/Assembly.lean ====
section
/-! DEFINITION. Assembler text (R100), the pseudo-instructions (R101), and the command sequences the spec gives a caller: a
transmission (R150), a connection's start (R345) and end (R346), an event's hop (R224, R268). Nothing here executes: each is a list
of commands or requests. -/

namespace Sys2Proof.Machine

/-- The mnemonic of a command (R96). -/
def mnemonic : Instr → String
  | .sysNop => "SYS.NOP"
  | .sysRdfault => "SYS.RDFAULT"
  | .sysRdfcmd _ => "SYS.RDFCMD"
  | .crcInit _ => "CRC.INIT"
  | .crcFeed _ => "CRC.FEED"
  | .crcRead => "CRC.READ"
  | .crcStat => "CRC.STAT"
  | .crcTxb _ => "CRC.TXB"
  | .pqAcq _ => "PQ.ACQ"
  | .pqCommit _ => "PQ.COMMIT"
  | .cqAcq _ => "CQ.ACQ"
  | .cqRel _ => "CQ.REL"
  | .qStat _ _ => "Q.STAT"
  | .qFlush _ => "Q.FLUSH"
  | .hopSethop _ => "HOP.SETHOP"
  | .hopStglo _ => "HOP.STGLO"
  | .hopStghi _ => "HOP.STGHI"
  | .hopCommit _ _ => "HOP.COMMIT"
  | .hopSetunm _ => "HOP.SETUNM"
  | .hopNext => "HOP.NEXT"
  | .hopRead => "HOP.READ"
  | .hopRdmap _ => "HOP.RDMAP"
  | .arqReset => "ARQ.RESET"
  | .arqRx _ => "ARQ.RX"
  | .arqRxx _ _ _ _ => "ARQ.RXX"
  | .arqTxhdr _ _ _ => "ARQ.TXHDR"
  | .arqRead => "ARQ.READ"

/-- A number in assembler text; R100 allows decimal (log entry 22). -/
def asmNumber (n : Nat) : String :=
  Nat.repr n

/-- A one-bit operand in assembler text. -/
def asmBit (b : Bool) : String :=
  asmNumber b.toNat

/-- `Q` is written `TXQ` or `RXQ` (R100). -/
def asmQueue : QueueId → String
  | .txq => "TXQ"
  | .rxq => "RXQ"

/-- The operands of a command in the order of R96's operand column (R100). -/
def asmOperands : Instr → List String
  | .sysNop | .sysRdfault | .crcRead | .crcStat | .hopNext | .hopRead | .arqReset | .arqRead => []
  | .sysRdfcmd half => [asmBit half]
  | .crcInit iv => [asmNumber iv.toNat]
  | .crcFeed b => [asmNumber b.toNat]
  | .crcTxb k => [asmNumber k.toNat]
  | .pqAcq q | .pqCommit q | .cqAcq q | .cqRel q | .qFlush q => [asmQueue q]
  | .qStat q sel => [asmQueue q, asmBit sel]
  | .hopSethop h => [asmNumber h.toNat]
  | .hopStglo m => [asmNumber m.toNat]
  | .hopStghi m => [asmNumber m.toNat]
  | .hopCommit am ah => [asmBit am, asmBit ah]
  | .hopSetunm c => [asmNumber c.toNat]
  | .hopRdmap sel => [asmNumber sel.toNat]
  | .arqRx accept => [asmBit accept]
  | .arqRxx h0 h1 crcv accept => [asmNumber h0.toNat, asmNumber h1.toNat, asmBit crcv, asmBit accept]
  | .arqTxhdr llid md len => [asmNumber llid.toNat, asmBit md, asmNumber len.toNat]

/-- The assembler text of a command: `MNEMONIC`, then its operands, comma separated (R100). -/
def asm (i : Instr) : String :=
  match asmOperands i with
  | [] => mnemonic i
  | ops => mnemonic i ++ " " ++ String.intercalate ", " ops

/-- `CRC.FEEDS b0, ..., bn` (R101). -/
def pseudoFeeds (bytes : List Byte) : List Instr :=
  bytes.map .crcFeed

/-- `HOP.STAGEMAP m` (R101). -/
def pseudoStageMap (m : ChanMap) : List Instr :=
  [.hopStglo (m.extractLsb' 0 24), .hopStghi (m.extractLsb' 24 13)]

/-- `HOP.START h, m` (R101). -/
def pseudoHopStart (h : BitVec 5) (m : ChanMap) : List Instr :=
  [.hopSethop h] ++ pseudoStageMap m ++ [.hopCommit true true, .hopSetunm 0]

/-- `Q.ENQ q`, around the port's own slot writes (R101). -/
def pseudoEnq (q : QueueId) (writes : List (Addr × Byte)) : List Request :=
  [.command (encode (.pqAcq q))] ++ writes.map (fun x => .memWrite x.1 x.2) ++ [.command (encode (.pqCommit q))]

/-- `Q.DEQ q`, around the port's own slot reads (R101). -/
def pseudoDeq (q : QueueId) (reads : List Addr) : List Request :=
  [.command (encode (.cqAcq q))] ++ reads.map .memRead ++ [.command (encode (.cqRel q))]

/-- Transmission of a PDU with its CRC (R150). -/
def transmitCrc (iv : BitVec 24) (pdu : List Byte) : List Instr :=
  [.crcInit iv] ++ pseudoFeeds pdu ++ [.crcTxb 0, .crcTxb 1, .crcTxb 2]

/-- The commands port `I` issues when a connection is created, in R345's order. -/
def connectionStart (h : BitVec 5) (m : ChanMap) : List Instr :=
  [.qFlush .txq, .qFlush .rxq, .arqReset] ++ pseudoStageMap m ++ [.hopSethop h, .hopCommit true true, .hopSetunm 0]

/-- How port `I` begins a connection event: at an instant the commit of the staged map or increment or both, which `instant` names,
before the event's hop (R219, R268 step 1, R351); then HOP.NEXT, exactly once in every event, whether or not a packet is exchanged
(R224, R268 step 2, R352). The block counts no events (R315): `execHopNext` runs as often as it is commanded. -/
def eventHop (instant : Option (Bool × Bool)) : List Instr :=
  (instant.elim [] fun x => [.hopCommit x.1 x.2]) ++ [.hopNext]

/-- The commands port `I` issues when a connection ends (R346). -/
def connectionEnd : List Instr :=
  [.qFlush .txq, .qFlush .rxq]

end Sys2Proof.Machine
end

