-- ==== Sys2Proof/Safety.lean ====
section
/-! DEFINITION. What claims are stated in: the legal values of 10_state.md, what a fault and a completed command leave, sequences of
commands, quiet runs, the trace of a queue, and two blocks joined by a lossy link (44_arq.md R267). -/

namespace Sys2Proof.Machine

/-! ### Legal states -/

/-- The states in which every register holds a legal value (10_state.md section 7), the queues keep R175 and R185, and slot memory
is in its canonical form. -/
structure State.Legal (s : State) : Prop where
  /-- R2: the configuration is well formed. -/
  config : s.cfg.wellFormed = true
  /-- R28, R30: RD is below 2*CAP. -/
  rdRange : ∀ q, (s.queue q).rd.toNat < 2 * s.cfg.cap q
  /-- R29, R30: WR is below 2*CAP. -/
  wrRange : ∀ q, (s.queue q).wr.toNat < 2 * s.cfg.cap q
  /-- R185: COUNT is at most CAP. -/
  countLe : ∀ q, queueCount s.cfg q (s.queue q) ≤ s.cfg.cap q
  /-- R175: a producer hold leaves room. -/
  producerRoom : ∀ q, (s.queue q).ph = .held → queueCount s.cfg q (s.queue q) < s.cfg.cap q
  /-- R175: a consumer hold has an item. -/
  consumerItem : ∀ q, (s.queue q).ch = .held → 1 ≤ queueCount s.cfg q (s.queue q)
  /-- R36: MAP is 0 or has at least 2 used channels. -/
  mapLegal : s.hopMap = 0 ∨ 2 ≤ popcount s.hopMap
  /-- R38: H is 0 or 5 to 16. -/
  hLegal : s.hopH = 0 ∨ (5 ≤ s.hopH.toNat ∧ s.hopH.toNat ≤ 16)
  /-- R39: SH is 0 or 5 to 16. -/
  shLegal : s.hopSh = 0 ∨ (5 ≤ s.hopSh.toNat ∧ s.hopSh.toNat ≤ 16)
  /-- R40: UNM is 0 to 36. -/
  unmLegal : s.hopUnm.toNat ≤ 36
  /-- R41: CHAN is 0 to 36. -/
  chanLegal : s.hopChan.toNat ≤ 36
  /-- R23, R24: before the first fault FAULT and FCMD are 0. -/
  faultFirst : s.fault.getLsbD 7 = false → s.fault = 0 ∧ s.fcmd = 0
  /-- R23: once FVALID is 1, some fault bit is. -/
  faultSome : s.fault.getLsbD 7 = true → s.fault.extractLsb' 0 6 ≠ 0
  /-- R27, R144: a header register that has captured no byte since CRC.INIT or reset is 0. -/
  headersFirst : (s.cnt = 0 → s.hdr0 = 0) ∧ (s.cnt.toNat < 2 → s.hdr1 = 0)
  /-- Slot memory is in its canonical form. -/
  memWf : Memory.wf s.mem = true
  /-- The open addresses are in their canonical form. -/
  racyWf : addressesWf s.racy = true
  /-- An open address holds no written byte. -/
  racyOpen : ∀ a ∈ s.racy, Memory.read s.mem a = none
  /-- R35, R61: only slot memory is held. -/
  memInside : ∀ x ∈ s.mem, inSlotMemory s.cfg (BitVec.ofNat 24 x.1) = true
  /-- R35, R61: only slot memory is open. -/
  racyInside : ∀ a ∈ s.racy, inSlotMemory s.cfg (BitVec.ofNat 24 a) = true

/-! ### What a command answers -/

/-- The status field of the result word the executing port received, if it received one (R93). -/
def statusOf (s t : State) : Option (BitVec 4) :=
  match t.response s.port with
  | .result w => some (w.extractLsb' 28 4)
  | _ => none

/-- R302 written out: FAULT gains one bit; the first fault since reset also sets FVALID, records its port in FPORT and its word in
FCMD; the port receives the status and 28 zero bits; nothing else changes. -/
def FaultTaken (bit : Nat) (code : BitVec 4) (w : Word) (s t : State) : Prop :=
  (∀ j, t.fault.getLsbD j =
    if j = bit then true
    else if s.fault.getLsbD 7 = false ∧ j = 7 then true
    else if s.fault.getLsbD 7 = false ∧ j = 6 then decide (s.port = .A)
    else s.fault.getLsbD j) ∧
  t.fcmd = (if s.fault.getLsbD 7 then s.fcmd else w) ∧
  t.response s.port = .result (code ++ (0 : BitVec 28)) ∧
  t.response (otherPort s.port) = s.response (otherPort s.port) ∧
  t = { s with fault := t.fault, fcmd := t.fcmd, respI := t.respI, respA := t.respA }

/-- The command ends in the fault with this FAULT bit and status code, its own word being the faulting one. -/
def FaultsWith (i : Instr) (s : State) (bit : Nat) (code : BitVec 4) : Prop :=
  ∃ t, exec i s = .next t ∧ FaultTaken bit code (encode i) s t

/-- The command is EPORT: FAULT bit 2, status 5 (R303). -/
def FaultsPort (i : Instr) (s : State) : Prop :=
  FaultsWith i s 2 5

/-- The command is ERANGE: FAULT bit 3, status 6 (R304). -/
def FaultsRange (i : Instr) (s : State) : Prop :=
  FaultsWith i s 3 6

/-- The command completes: the registers become exactly those of `u`, and the executing port receives a result word of which
`fields` holds. Every register, slot-memory byte and port that `u` shares with `s` is unchanged. -/
def Completes (i : Instr) (s u : State) (fields : Word → Prop) : Prop :=
  ∃ w, exec i s = .next (u.respond (.result w)) ∧ fields w

/-- A result word with status OK, these low bits, and every bit above them 0 (R93). -/
def OkLow (n : Nat) (v : BitVec n) (w : Word) : Prop :=
  w.extractLsb' 0 n = v ∧ w.extractLsb' n (32 - n) = 0

/-- Every bit of R259's result word and the two bits it leaves, written out for a packet with these header bytes and verdicts. -/
def ArqUpdateRule (i : Instr) (s : State) (h0 h1 : Byte) (crcok lenok accept : Bool) : Prop :=
  ∀ hdrok valid new acked eacc : Bool,
    (hdrok = true ↔ (h0.extractLsb' 0 2 ≠ 0 ∧ h1.toNat ≤ s.cfg.maxPayload)) →
    (valid = true ↔ (crcok = true ∧ lenok = true ∧ hdrok = true)) →
    (new = true ↔ (valid = true ∧ h0.getLsbD 3 = s.arqNesn)) →
    (acked = true ↔ (valid = true ∧ h0.getLsbD 2 ≠ s.arqSn)) →
    (eacc = true ↔ (accept = true ∨ h1 = 0)) →
    Completes i s
      { s with
        arqSn := if acked then !s.arqSn else s.arqSn
        arqNesn := if new ∧ eacc then !s.arqNesn else s.arqNesn }
      fun w =>
        w.getLsbD 0 = valid ∧ w.getLsbD 1 = new ∧ w.getLsbD 2 = acked ∧
        w.getLsbD 3 = (new && eacc && decide (h1 ≠ 0)) ∧ w.getLsbD 4 = (valid && !new) ∧
        w.getLsbD 5 = (new && !eacc) ∧ w.getLsbD 6 = h0.getLsbD 4 ∧ w.getLsbD 7 = crcok ∧
        w.getLsbD 8 = lenok ∧ w.getLsbD 9 = hdrok ∧ w.extractLsb' 10 2 = h0.extractLsb' 0 2 ∧
        w.extractLsb' 12 8 = h1 ∧ w.getLsbD 20 = (if acked then !s.arqSn else s.arqSn) ∧
        w.getLsbD 21 = (if new ∧ eacc then !s.arqNesn else s.arqNesn) ∧
        w.getLsbD 22 = h0.getLsbD 3 ∧ w.getLsbD 23 = h0.getLsbD 2 ∧ w.extractLsb' 24 8 = 0

/-! ### Ownership (R72) -/

/-- Address `a` lies in queue `q`'s slot memory (R35). -/
def InQueueMemory (c : Config) (q : QueueId) (a : Addr) : Prop :=
  c.qbase q ≤ a.toNat ∧ a.toNat < c.qbase q + c.cap q * c.slotBytes

/-- From `s` to `t`, what port `p` owns in queue `q`'s slot memory becomes exactly `now`; what it owns elsewhere, and all that the
other port owns, stays. -/
def OwnershipBecomes (s t : State) (p : Port) (q : QueueId) (now : Addr → Prop) : Prop :=
  ∀ b : Addr, (InQueueMemory s.cfg q b → (owns t p b = true ↔ now b)) ∧
    (¬ InQueueMemory s.cfg q b → owns t p b = owns s p b) ∧
    owns t (otherPort p) b = owns s (otherPort p) b

/-- Address `b` is one of the SLOT_BYTES bytes from slot address `a` on (R63). -/
def InSlotAt (c : Config) (a b : Addr) : Prop :=
  a.toNat ≤ b.toNat ∧ b.toNat < a.toNat + c.slotBytes

/-! ### Sequences of commands -/

/-- The command `i` issued by port `p`. -/
def issue (p : Port) (i : Instr) (s : State) : StepResult :=
  exec i { s with port := p }

/-- Commands issued one after the other, stopping at the first stop. -/
def issueAll : List (Port × Instr) → State → StepResult
  | [], s => .next s
  | (p, i) :: rest, s =>
    match issue p i s with
    | .next t => issueAll rest t
    | .fault r => .fault r
    | .refused r => .refused r

/-- The commands of one port. -/
def onPort (p : Port) (l : List Instr) : List (Port × Instr) :=
  l.map fun i => (p, i)

/-- The next state with `f` applied; a stop stays. -/
def mapNext (f : State → State) : StepResult → StepResult
  | .next t => .next (f t)
  | .fault r => .fault r
  | .refused r => .refused r

/-- The state with another slot memory: its bytes, its open addresses and the reset it was drawn at. -/
def State.withSlotMemory (s : State) (m : Memory) (l : List Nat) (n : Nat) : State :=
  { s with mem := m, racy := l, resets := n }

/-- The step writes slot-memory address `a`: the request it serves is a write there. -/
def WritesTo (a : Addr) (s : State) : Prop :=
  ∃ t v, fetch s = some (.memWrite a v, t)

/-- A run of steps in which reset is not asserted and no port writes address `a`. -/
inductive QuietRun (a : Addr) : State → State → Prop
  | refl (s : State) : QuietRun a s s
  | step {s t u : State} (quiet : ¬ WritesTo a s) (awake : s.resetIn = false) (taken : Machine.step s = .next t)
      (rest : QuietRun a t u) : QuietRun a s u

/-! ### The trace of a queue (R178) -/

/-- A queue's history: the slot address each side was last given, those published by commits and those taken by releases. -/
structure QueueTrace where
  state : State
  producerSlot : Addr
  consumerSlot : Addr
  published : List Addr
  taken : List Addr

/-- The slot address in the OK result of an acquire (R172, R174), else the one before. -/
def slotAnswered (s t : State) (before : Addr) : Addr :=
  match t.response s.port with
  | .result w => if w.extractLsb' 28 4 = 0 then w.extractLsb' 0 24 else before
  | _ => before

/-- One command and what it adds to queue `q`'s history: an acquire answered OK gives a slot, a commit or release answered OK
publishes or takes the slot its side was given. -/
def QueueTrace.issue (q : QueueId) (h : QueueTrace) (c : Port × Instr) : QueueTrace :=
  match exec c.2 { h.state with port := c.1 } with
  | .next t =>
    { state := t
      producerSlot :=
        if c.2 = .pqAcq q then slotAnswered { h.state with port := c.1 } t h.producerSlot else h.producerSlot
      consumerSlot :=
        if c.2 = .cqAcq q then slotAnswered { h.state with port := c.1 } t h.consumerSlot else h.consumerSlot
      published :=
        if c.2 = .pqCommit q ∧ statusOf { h.state with port := c.1 } t = some 0
        then h.published ++ [h.producerSlot] else h.published
      taken :=
        if c.2 = .cqRel q ∧ statusOf { h.state with port := c.1 } t = some 0
        then h.taken ++ [h.consumerSlot] else h.taken }
  | _ => h

/-! ### Two blocks and a lossy link (R266, R267) -/

/-- What becomes of one packet: nothing arrives, bytes arrive whose CRC the radio rejects, or the packet arrives intact. -/
inductive Fate
  | lost
  | damaged (h0 h1 : Byte)
  | intact

/-- The sender's block and the receiver's, how many payloads the sender's caller saw acknowledged, and the numbers of the payloads
the receiver's caller was told to deliver. -/
structure Link where
  sender : State
  receiver : State
  acked : Nat
  delivered : List Nat

/-- One connection event: the fate of each packet, whether each caller can take a payload, and the reply's header operands. -/
structure Exchange where
  forward : Fate
  back : Fate
  accept : Bool
  acceptBack : Bool
  md : Bool
  replyLlid : BitVec 2
  replyMd : Bool
  replyLen : Byte

/-- Port `I` issues one command: the state it leaves and the result word. -/
def ask (i : Instr) (s : State) : State × Word :=
  match issue .I i s with
  | .next t =>
    match t.respI with
    | .result w => (t, w)
    | _ => (t, 0)
  | _ => (s, 0)

/-- The receiver's side of one packet: ARQ.RXX with the radio's verdict (R262), or nothing when nothing arrives. -/
def receive (f : Fate) (hdr : Word) (accept : Bool) (s : State) : State × Word :=
  match f with
  | .lost => (s, 0)
  | .damaged h0 h1 => ask (.arqRxx h0 h1 false accept) s
  | .intact => ask (.arqRxx (hdr.extractLsb' 0 8) (hdr.extractLsb' 8 8) true accept) s

/-- The sender's half of an event: it sends the first payload not yet acknowledged, its header rebuilt (R266), and the receiver's
caller keeps the payload on DELIVER (R258). -/
def Link.send (pay : Nat → BitVec 2 × Byte) (l : Link) (e : Exchange) : Link :=
  { l with
    sender := (ask (.arqTxhdr (pay l.acked).1 e.md (pay l.acked).2) l.sender).1
    receiver := (receive e.forward (ask (.arqTxhdr (pay l.acked).1 e.md (pay l.acked).2) l.sender).2 e.accept l.receiver).1
    delivered :=
      if (receive e.forward (ask (.arqTxhdr (pay l.acked).1 e.md (pay l.acked).2) l.sender).2 e.accept l.receiver).2.getLsbD 3
      then l.delivered ++ [l.acked] else l.delivered }

/-- The receiver's reply: the sender's caller goes on to the next payload on ACKED (R255, R266). -/
def Link.reply (l : Link) (e : Exchange) : Link :=
  { l with
    receiver := (ask (.arqTxhdr e.replyLlid e.replyMd e.replyLen) l.receiver).1
    sender := (receive e.back (ask (.arqTxhdr e.replyLlid e.replyMd e.replyLen) l.receiver).2 e.acceptBack l.sender).1
    acked :=
      if (receive e.back (ask (.arqTxhdr e.replyLlid e.replyMd e.replyLen) l.receiver).2 e.acceptBack l.sender).2.getLsbD 2
      then l.acked + 1 else l.acked }

/-- One connection event (R268, steps 3 to 5). -/
def Link.event (pay : Nat → BitVec 2 × Byte) (l : Link) (e : Exchange) : Link :=
  (l.send pay e).reply e

end Sys2Proof.Machine
end

