-- ==== Sys2Proof/Certificates/Slice0/Obligations.lean ====
section
/-! DEFINITION. The statements for the provers, file by file of spec/. A per-command statement gives the command's word, its result
word bit by bit, the registers it leaves (all others, slot memory and the ports' requests being those of the state before), and the
faults of its forms. -/

open Sys2Proof Sys2Proof.Machine

/-! ### Encoding (30_encoding.md) -/

/-- R96, R97, R98: every command, with every operand at every value of its field, decodes back from its own word. -/
def Obligations.DecodeOfEncode : Prop :=
  ∀ i : Instr, decode (encode i) = .ok i

/-- R98, R99: a word decodes to a command only if it is that command's own word, so no bit of a legal word is ignored. -/
def Obligations.EncodeOfDecode : Prop :=
  ∀ (w : Word) (i : Instr), decode w = .ok i → encode i = w

/-- Words written out from R96, one of each unit, and an illegal one of each kind. -/
def Obligations.SomeWordsDecode : Prop :=
  decode 0x02000001 = .ok (.sysRdfcmd true) ∧ decode 0x10555555 = .ok (.crcInit 0x555555) ∧
  decode 0x24100001 = .ok (.qStat .rxq true) ∧ decode 0x33000001 = .ok (.hopCommit true false) ∧
  decode 0x4203050E = .ok (.arqRxx 0x0E 0x05 true true) ∧ decode 0x43001B07 = .ok (.arqTxhdr 3 true 27) ∧
  decode 0x5A000000 = .error .reservedUnit ∧ decode 0x26000000 = .error .undefinedOp ∧
  decode 0x11000100 = .error .reservedArg

/-- R97: a word selects at most one row. -/
def Obligations.AtMostOneRowMatches : Prop :=
  ∀ (w : Word) (m n : Nat) (hm : m < rows.length) (hn : n < rows.length),
    (rows[m]).selects w = true → (rows[n]).selects w = true → m = n

/-- R98: which words are illegal. UNIT 5 to 15 and an OP its unit does not define never decode; any other word that is illegal has a
reserved ARG bit set: clearing some of its ARG bits gives a command of the same UNIT and OP. -/
def Obligations.IllegalWordCases : Prop :=
  ∀ w : Word,
    (5 ≤ (w.extractLsb' 28 4).toNat → decode w = .error .reservedUnit) ∧
    ((w.extractLsb' 28 4 = 0 ∧ 3 ≤ (w.extractLsb' 24 4).toNat ∨ w.extractLsb' 28 4 = 1 ∧ 5 ≤ (w.extractLsb' 24 4).toNat ∨
      w.extractLsb' 28 4 = 2 ∧ 6 ≤ (w.extractLsb' 24 4).toNat ∨ w.extractLsb' 28 4 = 3 ∧ 8 ≤ (w.extractLsb' 24 4).toNat ∨
      w.extractLsb' 28 4 = 4 ∧ 5 ≤ (w.extractLsb' 24 4).toNat) → decode w = .error .undefinedOp) ∧
    (decode w = .error .reservedArg →
      ∃ i, (encode i).extractLsb' 24 8 = w.extractLsb' 24 8 ∧ encode i ≠ w ∧ encode i &&& w = encode i)

/-! ### The step (20_memory.md section 4, 60_exceptions.md section 2) -/

/-- When port `p`'s oldest request is the next, the step takes it: a word that decodes to `i` runs `exec i`, a read is `portRead` and
a write `portWrite` (R60, R71), each in the state in which that request is taken, the other port's requests stay, and `p` is the
executing port; no register differs in that state. -/
def Obligations.StepRunsDecodedCommand : Prop :=
  ∀ (s : State) (p : Port) (r : Request),
    s.cfg.wellFormed = true → s.resetIn = false → nextPort s = some p → (s.requests p).head? = some r →
    ∃ t, t.port = p ∧ t.requests p = (s.requests p).tail ∧
      t.requests (otherPort p) = s.requests (otherPort p) ∧
      t = { s with port := t.port, reqI := t.reqI, reqA := t.reqA, draws := t.draws } ∧
      (∀ w i, r = .command w → decode w = .ok i → step s = exec i t) ∧
      (∀ a, r = .memRead a → step s = portRead a t) ∧
      ∀ a v, r = .memWrite a v → step s = portWrite a v t

/-- R301: a word that matches no row is the fault ILLEGAL, status 15, FAULT bit 0, on either port, recording the word itself. -/
def Obligations.IllegalWordFaults : Prop :=
  ∀ (s : State) (p : Port) (w : Word) (e : Illegal),
    s.cfg.wellFormed = true → s.resetIn = false → nextPort s = some p →
    (s.requests p).head? = some (.command w) → decode w = .error e →
    ∃ t, step s = .next t ∧ FaultTaken 0 15 w (s.grant p) t

/-- R93, R311: every command, in every state and on either port, ends in a next state and answers its own port with a result word,
leaving the other port's last answer and both ports' requests as they were. -/
def Obligations.EveryCommandAnswers : Prop :=
  ∀ (i : Instr) (s : State), ∃ t w, exec i s = .next t ∧ t.response s.port = .result w ∧
    t.response (otherPort s.port) = s.response (otherPort s.port) ∧ t.reqI = s.reqI ∧ t.reqA = s.reqA

/-- R302, R311, R340, R341: no step of a well-formed configuration stops: whatever is presented, there is a next state. That a step
serving an unowned or outside access goes on is the model's choice (log entries 7 and 8: R75 also lets a model fault it). -/
def Obligations.StepNeverStops : Prop :=
  ∀ s : State, s.cfg.wellFormed = true → ∃ t, step s = .next t

/-- R2, R344: the configurations that are well formed, written out; the step refuses every other one, and no step changes the
configuration. -/
def Obligations.ConfigurationRule : Prop :=
  (∀ c : Config, c.wellFormed = true ↔
    1 ≤ c.capTx ∧ c.capTx ≤ 127 ∧ 1 ≤ c.capRx ∧ c.capRx ≤ 127 ∧ c.maxPayload ≤ 255 ∧
    c.maxPayload + 5 ≤ c.slotBytes ∧ c.qbaseTx + c.capTx * c.slotBytes ≤ 2 ^ 24 ∧
    c.qbaseRx + c.capRx * c.slotBytes ≤ 2 ^ 24 ∧
    ∀ a, ¬ ((c.qbaseTx ≤ a ∧ a < c.qbaseTx + c.capTx * c.slotBytes) ∧
      (c.qbaseRx ≤ a ∧ a < c.qbaseRx + c.capRx * c.slotBytes))) ∧
  (∀ s : State, s.cfg.wellFormed = false → step s = .refused .illFormedConfig) ∧
  ∀ s t : State, step s = .next t → t.cfg = s.cfg

/-- R70, R71, R310, R341: a step without reset either waits, when nothing is presented, or takes the oldest request of one port that
presents one; the other port's requests and last answer stay, so every run keeps each port's order. -/
def Obligations.StepKeepsEachPortsOrder : Prop :=
  (∀ s t : State, step s = .next t → s.resetIn = false →
    (t = s ∧ s.reqI = [] ∧ s.reqA = []) ∨
    ∃ p, s.requests p ≠ [] ∧ t.port = p ∧ t.requests p = (s.requests p).tail ∧
      t.requests (otherPort p) = s.requests (otherPort p) ∧ t.response (otherPort p) = s.response (otherPort p)) ∧
  ∀ s : State, s.cfg.wellFormed = true → s.resetIn = false → s.reqI = [] → s.reqA = [] → step s = .next s

/-! ### Reset (70_reset_and_hazards.md) -/

/-- R340: the reset input gives every register its reset value and leaves the configuration and the ports' requests and answers;
every slot byte holds a free value drawn at that reset, the state is otherwise that of `State.resetWith`. -/
def Obligations.ResetValues : Prop :=
  ∀ s : State, s.cfg.wellFormed = true → s.resetIn = true → ∃ t, step s = .next t ∧
    t.cfg = s.cfg ∧ t.fault = 0 ∧ t.fcmd = 0 ∧ t.crc = 0 ∧ t.cnt = 0 ∧ t.hdr0 = 0 ∧ t.hdr1 = 0 ∧
    (∀ q, (t.queue q).rd = 0 ∧ (t.queue q).wr = 0 ∧ (t.queue q).ph = .noHold ∧ (t.queue q).ch = .noHold) ∧
    t.hopMap = 0 ∧ t.hopStg = 0 ∧ t.hopH = 0 ∧ t.hopSh = 0 ∧ t.hopUnm = 0 ∧ t.hopChan = 0 ∧
    t.arqSn = false ∧ t.arqNesn = false ∧
    (∀ q, queueCount t.cfg q (t.queue q) = 0 ∧ queueEmpty t.cfg q (t.queue q) = true ∧
      queueFull t.cfg q (t.queue q) = false) ∧
    hopConfigured t = false ∧ popcount t.hopMap = 0 ∧ lastRxSn t = true ∧
    (∀ a, slotByte t a = some (Config.byteAtReset t.resets a.toNat)) ∧
    t.resetIn = false ∧ t.reqI = s.reqI ∧ t.reqA = s.reqA ∧ t.respI = s.respI ∧ t.respA = s.respA

/-- R343: right after reset, whatever the configuration. SYS: nothing is recorded. CRC: the register is 0 and a CRC.FEED starts from
it. QUEUE: PQ.ACQ answers OK and CQ.ACQ EMPTY. HOP: HOP.NEXT answers EUNCONF, and still does after a legal map and increment are
staged and committed by two commits unless these install both. ARQ: from SN = NESN = 0, ARQ.READ answers 0, ARQ.RX finds no packet,
and ARQ.RXX judges a valid packet against them. -/
def Obligations.RightAfterReset : Prop :=
  ∀ c : Config, c.wellFormed = true →
    (∀ p, ∃ t, issue p .sysRdfault (State.resetWith c) = .next t ∧ t.response p = .result 0x00000000) ∧
    (∃ t, issue .I .crcRead (State.resetWith c) = .next t ∧ t.respI = .result 0x01000000) ∧
    (∀ b, ∃ t, issue .I (.crcFeed b) (State.resetWith c) = .next t ∧ t.crc = crcByte 0 b ∧ t.cnt = 1 ∧ t.hdr0 = b) ∧
    (∀ q, ∃ t, issue (prod q) (.pqAcq q) (State.resetWith c) = .next t ∧ (t.queue q).ph = .held ∧
      t.response (prod q) = .result ((0 : BitVec 8) ++ BitVec.ofNat 24 (c.qbase q))) ∧
    (∀ q, ∃ t, issue (cons q) (.cqAcq q) (State.resetWith c) = .next t ∧ t.response (cons q) = .result 0x20000000) ∧
    (∃ t, issue .I .hopNext (State.resetWith c) = .next t ∧ t.respI = .result 0x70000000) ∧
    (∀ (h : BitVec 5) (m : ChanMap) (am ah bm bh : Bool), 5 ≤ h.toNat → h.toNat ≤ 16 → 2 ≤ popcount m →
      ∃ t, issueAll (onPort .I ([.hopSethop h] ++ pseudoStageMap m ++ [.hopCommit am ah, .hopCommit bm bh, .hopNext]))
          (State.resetWith c) = .next t ∧
        (t.respI = .result 0x70000000 ↔ ¬ ((am || bm) = true ∧ (ah || bh) = true))) ∧
    (∃ t, issue .I .arqRead (State.resetWith c) = .next t ∧ t.respI = .result 0x00000000) ∧
    (∀ accept, ∃ t w, issue .I (.arqRx accept) (State.resetWith c) = .next t ∧ t.respI = .result w ∧ w.getLsbD 0 = false ∧
      t.arqSn = false ∧ t.arqNesn = false) ∧
    ∀ (h0 h1 : Byte) (accept : Bool), h0.extractLsb' 0 2 ≠ 0 → h1.toNat ≤ c.maxPayload →
      ∃ t w, issue .I (.arqRxx h0 h1 true accept) (State.resetWith c) = .next t ∧ t.respI = .result w ∧ w.getLsbD 0 = true ∧
        t.arqSn = h0.getLsbD 2 ∧ t.arqNesn = (!h0.getLsbD 3 && (accept || decide (h1 = 0)))

/-! ### The SYS unit (40_sys.md) -/

/-- R130, R131, R132: the three SYS commands on either port: their words, and results with no effect on any register. -/
def Obligations.SysCommandsRead : Prop :=
  encode .sysNop = 0x00000000 ∧ encode .sysRdfault = 0x01000000 ∧ encode (.sysRdfcmd false) = 0x02000000 ∧
  encode (.sysRdfcmd true) = 0x02000001 ∧
  ∀ s : State,
    Completes .sysNop s s (fun w => w = 0) ∧
    Completes .sysRdfault s s (OkLow 8 s.fault) ∧
    Completes (.sysRdfcmd false) s s (OkLow 16 (s.fcmd.extractLsb' 0 16)) ∧
    Completes (.sysRdfcmd true) s s (OkLow 16 (s.fcmd.extractLsb' 16 16))

/-! ### The CRC unit (41_crc.md) -/

/-- R140: one input bit advances the register: with feedback `fb = c[23] ^ d`, every bit is the one below it, with `fb` added at the
taps 10, 9, 6, 4, 3, 1 and 0; a byte is eight such steps, least significant bit first. -/
def Obligations.CrcStepRule : Prop :=
  (∀ (c : BitVec 24) (d : Bool) (j : Nat), j < 24 →
    (crcBit c d).getLsbD j =
      ((decide (0 < j) && c.getLsbD (j - 1)) ^^
        (decide (j ∈ [0, 1, 3, 4, 6, 9, 10]) && (c.getLsbD 23 ^^ d)))) ∧
  ∀ (c : BitVec 24) (b : Byte),
    crcByte c b =
      crcBit (crcBit (crcBit (crcBit (crcBit (crcBit (crcBit (crcBit c (b.getLsbD 0)) (b.getLsbD 1)) (b.getLsbD 2))
        (b.getLsbD 3)) (b.getLsbD 4)) (b.getLsbD 5)) (b.getLsbD 6)) (b.getLsbD 7)

/-- R141: CRC.INIT. -/
def Obligations.CrcInitRule : Prop :=
  ∀ (iv : BitVec 24) (s : State),
    encode (.crcInit iv) = (0x10 : BitVec 8) ++ iv ∧
    (s.port = .I → Completes (.crcInit iv) s { s with crc := iv, cnt := 0, hdr0 := 0, hdr1 := 0 } (OkLow 24 iv)) ∧
    (s.port = .A → FaultsPort (.crcInit iv) s)

/-- R142: CRC.FEED: the register advances by the byte, CNT saturates at 4095, the first two bytes are captured, and ZERO is bit 24 of
the result. -/
def Obligations.CrcFeedRule : Prop :=
  ∀ (b : Byte) (s : State),
    encode (.crcFeed b) = (0x110000 : BitVec 24) ++ b ∧
    (s.port = .I →
      Completes (.crcFeed b) s
        { s with
          crc := crcByte s.crc b
          cnt := if s.cnt.toNat < 4095 then s.cnt + 1 else 4095
          hdr0 := if s.cnt = 0 then b else s.hdr0
          hdr1 := if s.cnt = 1 then b else s.hdr1 }
        fun w => w.extractLsb' 0 24 = crcByte s.crc b ∧ w.getLsbD 24 = decide (crcByte s.crc b = 0) ∧ w.extractLsb' 25 7 = 0) ∧
    (s.port = .A → FaultsPort (.crcFeed b) s)

/-- R143, R144: CRC.READ and CRC.STAT. -/
def Obligations.CrcReadsRule : Prop :=
  encode .crcRead = 0x12000000 ∧ encode .crcStat = 0x13000000 ∧
  ∀ s : State,
    (s.port = .I →
      Completes .crcRead s s
        (fun w => w.extractLsb' 0 24 = s.crc ∧ w.getLsbD 24 = decide (s.crc = 0) ∧ w.extractLsb' 25 7 = 0) ∧
      Completes .crcStat s s
        (fun w => w.extractLsb' 0 12 = s.cnt ∧ w.extractLsb' 12 8 = s.hdr0 ∧ w.extractLsb' 20 8 = s.hdr1 ∧
          w.extractLsb' 28 4 = 0)) ∧
    (s.port = .A → FaultsPort .crcRead s ∧ FaultsPort .crcStat s)

/-- R145: CRC.TXB: bit `j` of on-air byte `k` is `CRC[23 - 8*k - j]`; `K = 3` is ERANGE, after the port check. -/
def Obligations.CrcTxbRule : Prop :=
  ∀ (k : BitVec 2) (s : State),
    encode (.crcTxb k) = (0x05000000 : BitVec 30) ++ k ∧
    (s.port = .I → k ≠ 3 →
      Completes (.crcTxb k) s s
        fun w => (∀ j, j < 8 → w.getLsbD j = s.crc.getLsbD (23 - 8 * k.toNat - j)) ∧ w.extractLsb' 8 24 = 0) ∧
    (s.port = .I → k = 3 → FaultsRange (.crcTxb k) s) ∧
    (s.port = .A → FaultsPort (.crcTxb k) s)

/-- R148: after CRC.INIT and the bytes of `d`, CRC.TXB 0, 1, 2 give three bytes, and feeding three bytes leaves the register 0 exactly
when they are those. -/
def Obligations.CrcResidue : Prop :=
  ∀ (iv : BitVec 24) (d : List Byte) (s : State),
    ∃ t t0 t1 t2,
      issueAll (onPort .I (.crcInit iv :: pseudoFeeds d)) s = .next t ∧
      Completes (.crcTxb 0) { t with port := .I } { t with port := .I } (OkLow 8 t0) ∧
      Completes (.crcTxb 1) { t with port := .I } { t with port := .I } (OkLow 8 t1) ∧
      Completes (.crcTxb 2) { t with port := .I } { t with port := .I } (OkLow 8 t2) ∧
      ∀ x y z : Byte, ∃ u, issueAll (onPort .I (pseudoFeeds [x, y, z])) t = .next u ∧
        (u.crc = 0 ↔ x = t0 ∧ y = t1 ∧ z = t2)

/-- R146: the reflected form, with the reversed constant, gives the same register, bit-reversed, for every register and byte. -/
def Obligations.CrcReflectedForm : Prop :=
  bitrev24 0x00065B = 0xDA6000 ∧
  ∀ (c : BitVec 24) (b : Byte), crcByteReflected (bitrev24 c) b = bitrev24 (crcByte c b)

/-! ### The QUEUE unit (42_queue.md) -/

/-- R171, R172: PQ.ACQ. -/
def Obligations.PqAcqRule : Prop :=
  encode (.pqAcq .txq) = 0x20000000 ∧ encode (.pqAcq .rxq) = 0x20100000 ∧
  ∀ (q : QueueId) (s : State) (a : BitVec 24),
    a = BitVec.ofNat 24 (s.cfg.qbase q + (s.queue q).wr.toNat % s.cfg.cap q * s.cfg.slotBytes) →
    (s.port = prod q →
      ((s.queue q).ph = .held → Completes (.pqAcq q) s s (OkLow 24 a)) ∧
      ((s.queue q).ph ≠ .held → queueCount s.cfg q (s.queue q) = s.cfg.cap q →
        Completes (.pqAcq q) s s fun w => w = 0x10000000) ∧
      ((s.queue q).ph ≠ .held → queueCount s.cfg q (s.queue q) ≠ s.cfg.cap q →
        Completes (.pqAcq q) s (s.setQueue q { s.queue q with ph := .held }) (OkLow 24 a))) ∧
    (s.port ≠ prod q → FaultsPort (.pqAcq q) s)

/-- R173: PQ.COMMIT. -/
def Obligations.PqCommitRule : Prop :=
  encode (.pqCommit .txq) = 0x21000000 ∧ encode (.pqCommit .rxq) = 0x21100000 ∧
  ∀ (q : QueueId) (s : State) (v : Queue),
    v = { s.queue q with wr := BitVec.ofNat 8 (((s.queue q).wr.toNat + 1) % (2 * s.cfg.cap q)), ph := .noHold } →
    (s.port = prod q →
      ((s.queue q).ph = .noHold → FaultsWith (.pqCommit q) s 1 4) ∧
      ((s.queue q).ph = .stale →
        Completes (.pqCommit q) s (s.setQueue q { s.queue q with ph := .noHold }) fun w => w = 0x30000000) ∧
      ((s.queue q).ph = .held →
        Completes (.pqCommit q) s (s.setQueue q v) (OkLow 28 (BitVec.ofNat 28 (queueCount s.cfg q v))))) ∧
    (s.port ≠ prod q → FaultsPort (.pqCommit q) s)

/-- R171, R174: CQ.ACQ. -/
def Obligations.CqAcqRule : Prop :=
  encode (.cqAcq .txq) = 0x22000000 ∧ encode (.cqAcq .rxq) = 0x22100000 ∧
  ∀ (q : QueueId) (s : State) (a : BitVec 24),
    a = BitVec.ofNat 24 (s.cfg.qbase q + (s.queue q).rd.toNat % s.cfg.cap q * s.cfg.slotBytes) →
    (s.port = cons q →
      ((s.queue q).ch = .held → Completes (.cqAcq q) s s (OkLow 24 a)) ∧
      ((s.queue q).ch ≠ .held → queueCount s.cfg q (s.queue q) = 0 →
        Completes (.cqAcq q) s s fun w => w = 0x20000000) ∧
      ((s.queue q).ch ≠ .held → queueCount s.cfg q (s.queue q) ≠ 0 →
        Completes (.cqAcq q) s (s.setQueue q { s.queue q with ch := .held }) (OkLow 24 a))) ∧
    (s.port ≠ cons q → FaultsPort (.cqAcq q) s)

/-- R177: CQ.REL. -/
def Obligations.CqRelRule : Prop :=
  encode (.cqRel .txq) = 0x23000000 ∧ encode (.cqRel .rxq) = 0x23100000 ∧
  ∀ (q : QueueId) (s : State) (v : Queue),
    v = { s.queue q with rd := BitVec.ofNat 8 (((s.queue q).rd.toNat + 1) % (2 * s.cfg.cap q)), ch := .noHold } →
    (s.port = cons q →
      ((s.queue q).ch = .noHold → FaultsWith (.cqRel q) s 1 4) ∧
      ((s.queue q).ch = .stale →
        Completes (.cqRel q) s (s.setQueue q { s.queue q with ch := .noHold }) fun w => w = 0x30000000) ∧
      ((s.queue q).ch = .held →
        Completes (.cqRel q) s (s.setQueue q v) (OkLow 28 (BitVec.ofNat 28 (queueCount s.cfg q v))))) ∧
    (s.port ≠ cons q → FaultsPort (.cqRel q) s)

/-- R179: Q.STAT, on either port; and a FULL stays until the consumer releases or the queue is flushed, an EMPTY until the producer
commits. -/
def Obligations.QStatRule : Prop :=
  encode (.qStat .txq false) = 0x24000000 ∧ encode (.qStat .txq true) = 0x24000001 ∧
  encode (.qStat .rxq false) = 0x24100000 ∧ encode (.qStat .rxq true) = 0x24100001 ∧
  ∀ (q : QueueId) (s : State),
    Completes (.qStat q false) s s
      (fun w => w.extractLsb' 0 8 = (s.queue q).rd ∧ w.extractLsb' 8 8 = (s.queue q).wr ∧
        w.extractLsb' 16 8 = BitVec.ofNat 8 (queueCount s.cfg q (s.queue q)) ∧
        w.getLsbD 24 = decide (queueCount s.cfg q (s.queue q) = 0) ∧
        w.getLsbD 25 = decide (queueCount s.cfg q (s.queue q) = s.cfg.cap q) ∧ w.extractLsb' 26 6 = 0) ∧
    Completes (.qStat q true) s s
      (fun w => w.extractLsb' 0 2 = holdCode (s.queue q).ph ∧ w.extractLsb' 2 2 = holdCode (s.queue q).ch ∧
        w.extractLsb' 4 8 = BitVec.ofNat 8 (s.cfg.cap q) ∧ w.extractLsb' 12 20 = 0) ∧
    ∀ (i : Instr) (t : State), s.Legal → exec i s = .next t →
      (queueFull s.cfg q (s.queue q) = true → queueFull t.cfg q (t.queue q) = false →
        (i = .cqRel q ∧ s.port = cons q) ∨ (i = .qFlush q ∧ s.port = .I)) ∧
      (queueEmpty s.cfg q (s.queue q) = true → queueEmpty t.cfg q (t.queue q) = false →
        i = .pqCommit q ∧ s.port = prod q)

/-- R180: Q.FLUSH: both indices 0, a hold in progress becomes STALE, every other register, the other queue and every slot byte stay;
afterwards the queue is EMPTY and, with a legal capacity, not FULL, and no port owns one of its slots. -/
def Obligations.QFlushRule : Prop :=
  encode (.qFlush .txq) = 0x25000000 ∧ encode (.qFlush .rxq) = 0x25100000 ∧
  ∀ (q : QueueId) (s : State) (v : Queue),
    v = { rd := 0, wr := 0, ph := if (s.queue q).ph = .held then .stale else (s.queue q).ph,
          ch := if (s.queue q).ch = .held then .stale else (s.queue q).ch } →
    (s.port = .I → Completes (.qFlush q) s (s.setQueue q v) (fun w => w = 0) ∧
      queueEmpty s.cfg q v = true ∧ (1 ≤ s.cfg.cap q → queueFull s.cfg q v = false) ∧
      ∀ p a, ownsIn (s.setQueue q v) p q a = false) ∧
    (s.port = .A → FaultsPort (.qFlush q) s)

/-- R170: WR changes only by PQ.COMMIT of its producer or by Q.FLUSH, and RD only by CQ.REL of its consumer or by Q.FLUSH. -/
def Obligations.IndicesHaveOneWriter : Prop :=
  ∀ (i : Instr) (s t : State) (q : QueueId), exec i s = .next t →
    ((t.queue q).wr ≠ (s.queue q).wr → (i = .pqCommit q ∧ s.port = prod q) ∨ (i = .qFlush q ∧ s.port = .I)) ∧
    ((t.queue q).rd ≠ (s.queue q).rd → (i = .cqRel q ∧ s.port = cons q) ∨ (i = .qFlush q ∧ s.port = .I))

/-- R176: in a legal state the producer and the consumer never hold the same slot. -/
def Obligations.HoldsNeverShareASlot : Prop :=
  ∀ (s : State) (q : QueueId), s.Legal → (s.queue q).ph = .held → (s.queue q).ch = .held →
    slotOf s.cfg q (s.queue q).wr ≠ slotOf s.cfg q (s.queue q).rd

/-- R182: from an empty queue with no release, CAP[q] pairs of PQ.ACQ and PQ.COMMIT each answer OK and the next PQ.ACQ answers FULL. -/
def Obligations.QueueAcceptsExactlyItsCapacity : Prop :=
  ∀ (s : State) (q : QueueId), s.Legal → queueCount s.cfg q (s.queue q) = 0 →
    ∀ n, n ≤ s.cfg.cap q → ∃ t,
      issueAll (List.replicate n [(prod q, Instr.pqAcq q), (prod q, Instr.pqCommit q)]).flatten s = .next t ∧
      queueCount t.cfg q (t.queue q) = n ∧
      (n < s.cfg.cap q → ∃ u v, issue (prod q) (.pqAcq q) t = .next u ∧ issue (prod q) (.pqCommit q) u = .next v ∧
        statusOf { t with port := prod q } u = some 0 ∧ statusOf { u with port := prod q } v = some 0) ∧
      (n = s.cfg.cap q → ∃ u, issue (prod q) (.pqAcq q) t = .next u ∧ u.response (prod q) = .result 0x10000000 ∧
        u.queue q = t.queue q)

/-- R178: whatever commands the two ports issue, but for a flush of the queue, the slots taken are the first of the slots published,
in order, each once, and COUNT is how many are still to take. -/
def Obligations.QueueIsFifo : Prop :=
  ∀ (q : QueueId) (h : QueueTrace) (l : List (Port × Instr)),
    h.state.Legal → queueCount h.state.cfg q (h.state.queue q) = 0 →
    (h.state.queue q).ph ≠ .held → (h.state.queue q).ch ≠ .held → h.published = [] → h.taken = [] →
    (∀ c ∈ l, c.2 ≠ .qFlush q) →
    (l.foldl (QueueTrace.issue q) h).taken <+: (l.foldl (QueueTrace.issue q) h).published ∧
    (l.foldl (QueueTrace.issue q) h).published.length =
      (l.foldl (QueueTrace.issue q) h).taken.length +
        queueCount h.state.cfg q ((l.foldl (QueueTrace.issue q) h).state.queue q)

/-! ### Slot memory (20_memory.md) -/

/-- R60: no command reads or writes slot memory: with any other slot memory it does the same and leaves that memory as it is. -/
def Obligations.CommandsIgnoreSlotMemory : Prop :=
  ∀ (i : Instr) (s : State) (m : Memory) (l : List Nat) (n : Nat),
    exec i (s.withSlotMemory m l n) = mapNext (fun t => t.withSlotMemory m l n) (exec i s) ∧
    ∀ t a, exec i s = .next t → slotByte t a = slotByte s a

/-- R72, R73. Ownership: after an acquire answered OK its port owns, in the queue's slot memory, exactly the SLOT_BYTES bytes from
the answered address; after a commit or release by its side that port owns none of them, and after Q.FLUSH neither port does; all
other ownership stays, no other command changes any, and after reset there is none. In a legal state no byte has two owners. Access:
an owned write stores its byte and no other; an owned read of a byte no unowned write left open returns that byte. -/
def Obligations.OwnedAccess : Prop :=
  (∀ (s t : State) (q : QueueId), s.Legal →
    (∀ a, exec (.pqAcq q) s = .next t → t.response s.port = .result ((0 : BitVec 8) ++ a) →
      OwnershipBecomes s t s.port q (InSlotAt s.cfg a)) ∧
    (∀ a, exec (.cqAcq q) s = .next t → t.response s.port = .result ((0 : BitVec 8) ++ a) →
      OwnershipBecomes s t s.port q (InSlotAt s.cfg a)) ∧
    (s.port = prod q → exec (.pqCommit q) s = .next t → OwnershipBecomes s t s.port q fun _ => False) ∧
    (s.port = cons q → exec (.cqRel q) s = .next t → OwnershipBecomes s t s.port q fun _ => False) ∧
    (s.port = .I → exec (.qFlush q) s = .next t → ∀ p b,
      (InQueueMemory s.cfg q b → owns t p b = false) ∧ (¬ InQueueMemory s.cfg q b → owns t p b = owns s p b))) ∧
  (∀ (i : Instr) (s t : State), exec i s = .next t →
    (∀ q, i ≠ .pqAcq q ∧ i ≠ .pqCommit q ∧ i ≠ .cqAcq q ∧ i ≠ .cqRel q ∧ i ≠ .qFlush q) →
    ∀ p b, owns t p b = owns s p b) ∧
  (∀ (c : Config) (p : Port) (b : Addr), owns (State.resetWith c) p b = false) ∧
  (∀ (s : State) (b : Addr), s.Legal → ¬ (owns s .I b = true ∧ owns s .A b = true)) ∧
  ∀ (s : State) (a : Addr) (v : Byte), s.Legal → inSlotMemory s.cfg a = true → owns s s.port a = true →
    (∃ t, portWrite a v s = .next t ∧ slotByte t a = some v ∧ (∀ b, b ≠ a → slotByte t b = slotByte s b) ∧
      t.response s.port = .writeDone ∧ t.response (otherPort s.port) = s.response (otherPort s.port) ∧
      t = { s with mem := t.mem, racy := t.racy, respI := t.respI, respA := t.respA }) ∧
    (slotByte s a = some v → portRead a s = .next (s.respond (.readData v)))

/-- R61, R75, and the treatment U2, U3 of 93_implementation_defined.md: an unowned write inside slot memory leaves its byte open and
every other byte as it was; a write outside changes nothing; an unowned or outside read, and any read of an open byte, returns a free
value and changes no register and no byte. No access faults. -/
def Obligations.UnownedAccess : Prop :=
  ∀ (s : State) (a : Addr) (v : Byte),
    (inSlotMemory s.cfg a = true → owns s s.port a = false →
      ∃ t, portWrite a v s = .next t ∧ slotByte t a = none ∧ (∀ b, b ≠ a → slotByte t b = slotByte s b) ∧
        t.response s.port = .writeDone ∧
        t = { s with mem := t.mem, racy := t.racy, respI := t.respI, respA := t.respA }) ∧
    (inSlotMemory s.cfg a = false → portWrite a v s = .next (s.respond .writeDone)) ∧
    (inSlotMemory s.cfg a = false ∨ owns s s.port a = false ∨ slotByte s a = none →
      ∃ x, portRead a s = .next (({ s with draws := s.draws + 1 }).respond (.readData x)) ∧
        x = Config.unspecifiedByte s.draws)

/-- R73, R74, over runs: what a port wrote in a slot it owned is what any port that owns the slot later reads, as long as nobody
writes that byte in between and there is no reset, whatever else both ports do. R73 says it of the consumer's hold that follows; that
any later owner reads it, the producer again or after a flush too, rests on log entry 21 (DEDUCED). -/
def Obligations.PublishedBytesAreRead : Prop :=
  ∀ (s t u : State) (a : Addr) (v : Byte) (p : Port),
    s.Legal → inSlotMemory s.cfg a = true → owns s s.port a = true → portWrite a v s = .next t → QuietRun a t u →
    owns u p a = true → ∃ r, portRead a { u with port := p } = .next r ∧ r.response p = .readData v

/-! ### The HOP unit (43_hop.md) -/

/-- R210, R211, R212: HOP.SETHOP, HOP.STGLO and HOP.STGHI change only the staged values. -/
def Obligations.HopStagingRule : Prop :=
  ∀ (h : BitVec 5) (lo : BitVec 24) (hi : BitVec 13) (s : State),
    encode (.hopSethop h) = (0x1800000 : BitVec 27) ++ h ∧ encode (.hopStglo lo) = (0x31 : BitVec 8) ++ lo ∧
    encode (.hopStghi hi) = (0x19000 : BitVec 19) ++ hi ∧
    (s.port = .I →
      (5 ≤ h.toNat ∧ h.toNat ≤ 16 → Completes (.hopSethop h) s { s with hopSh := h } (OkLow 5 h)) ∧
      (h.toNat < 5 ∨ 16 < h.toNat → FaultsRange (.hopSethop h) s) ∧
      (∃ m : ChanMap, m.extractLsb' 0 24 = lo ∧ m.extractLsb' 24 13 = s.hopStg.extractLsb' 24 13 ∧
        Completes (.hopStglo lo) s { s with hopStg := m } fun w => w = 0) ∧
      (∃ m : ChanMap, m.extractLsb' 24 13 = hi ∧ m.extractLsb' 0 24 = s.hopStg.extractLsb' 0 24 ∧
        Completes (.hopStghi hi) s { s with hopStg := m } fun w => w = 0)) ∧
    (s.port = .A → FaultsPort (.hopSethop h) s ∧ FaultsPort (.hopStglo lo) s ∧ FaultsPort (.hopStghi hi) s)

/-- R218: HOP.COMMIT: ERANGE before EMAP, all or nothing. -/
def Obligations.HopCommitRule : Prop :=
  encode (.hopCommit false false) = 0x33000000 ∧ encode (.hopCommit true false) = 0x33000001 ∧
  encode (.hopCommit false true) = 0x33000002 ∧ encode (.hopCommit true true) = 0x33000003 ∧
  ∀ (am ah : Bool) (s : State) (m : ChanMap) (h : BitVec 5),
    m = (if am then s.hopStg else s.hopMap) → h = (if ah then s.hopSh else s.hopH) →
    (s.port = .I →
      (ah = true ∧ (s.hopSh.toNat < 5 ∨ 16 < s.hopSh.toNat) → FaultsRange (.hopCommit am ah) s) ∧
      (¬ (ah = true ∧ (s.hopSh.toNat < 5 ∨ 16 < s.hopSh.toNat)) → am = true ∧ popcount s.hopStg < 2 →
        FaultsWith (.hopCommit am ah) s 5 8) ∧
      (¬ (ah = true ∧ (s.hopSh.toNat < 5 ∨ 16 < s.hopSh.toNat)) → ¬ (am = true ∧ popcount s.hopStg < 2) →
        Completes (.hopCommit am ah) s { s with hopMap := m, hopH := h }
          fun w => w.extractLsb' 0 6 = BitVec.ofNat 6 (popcount m) ∧ w.extractLsb' 6 5 = h ∧ w.extractLsb' 11 21 = 0)) ∧
    (s.port = .A → FaultsPort (.hopCommit am ah) s)

/-- R219: MAP and H change only by HOP.COMMIT on port I, each to its staged value, and only as that command's operands say. -/
def Obligations.OnlyCommitChangesMapAndIncrement : Prop :=
  ∀ (i : Instr) (s t : State), exec i s = .next t → t.hopMap ≠ s.hopMap ∨ t.hopH ≠ s.hopH →
    ∃ am ah, i = .hopCommit am ah ∧ s.port = .I ∧ t.hopMap = (if am then s.hopStg else s.hopMap) ∧
      t.hopH = (if ah then s.hopSh else s.hopH)

/-- R220: HOP.SETUNM. -/
def Obligations.HopSetunmRule : Prop :=
  ∀ (c : BitVec 6) (s : State),
    encode (.hopSetunm c) = (0xD00000 : BitVec 26) ++ c ∧
    (s.port = .I →
      (c.toNat ≤ 36 → Completes (.hopSetunm c) s { s with hopUnm := c } (OkLow 6 c)) ∧
      (36 < c.toNat → FaultsRange (.hopSetunm c) s)) ∧
    (s.port = .A → FaultsPort (.hopSetunm c) s)

/-- R206, R207, R208, R223: HOP.NEXT: `u = (UNM + H) mod 37` is the new unmapped channel; the new channel is `u` when used, else the
used channel of index `u mod n` counted from 0 among the used channels in ascending order; EUNCONF while unconfigured. -/
def Obligations.HopNextRule : Prop :=
  encode .hopNext = 0x35000000 ∧
  ∀ (s : State) (u n : Nat), u = (s.hopUnm.toNat + s.hopH.toNat) % 37 → n = popcount s.hopMap →
    (s.port = .I → 5 ≤ s.hopH.toNat → s.hopH.toNat ≤ 16 → 2 ≤ n →
      ∃ ch rm, ((s.hopMap.getLsbD u = true ∧ ch = u ∧ rm = false) ∨
          (s.hopMap.getLsbD u = false ∧ (usedChannels s.hopMap)[u % n]? = some ch ∧ rm = true)) ∧
        Completes .hopNext s { s with hopUnm := BitVec.ofNat 6 u, hopChan := BitVec.ofNat 6 ch }
          fun w => w.extractLsb' 0 6 = BitVec.ofNat 6 ch ∧ w.getLsbD 6 = rm ∧ w.getLsbD 7 = false ∧
            w.extractLsb' 8 6 = BitVec.ofNat 6 u ∧ w.extractLsb' 14 2 = 0 ∧
            w.extractLsb' 16 6 = BitVec.ofNat 6 n ∧ w.extractLsb' 22 10 = 0) ∧
    (s.port = .I → s.hopH.toNat < 5 ∨ 16 < s.hopH.toNat ∨ n < 2 → FaultsWith .hopNext s 4 7) ∧
    (s.port = .A → FaultsPort .hopNext s)

/-- R205, R206: the used channels are listed in ascending order, each once, and the channel of a hop is always a used channel. -/
def Obligations.HopChannelIsUsed : Prop :=
  ∀ m : ChanMap, (usedChannels m).Pairwise (· < ·) ∧ (∀ k, k ∈ usedChannels m ↔ k < 37 ∧ m.getLsbD k = true) ∧
    ∀ (c : BitVec 6) (h : BitVec 5), 2 ≤ popcount m →
      hopChannel (hopUnmapped c h) m < 37 ∧ m.getLsbD (hopChannel (hopUnmapped c h) m) = true

/-- R209: from a configured state, `k` HOP.NEXT commands bring the unmapped channel to `(c + k*h) mod 37`; within 37 of them all 37
channel numbers are visited once, and the 37th returns to the start. -/
def Obligations.HopVisitsAllChannels : Prop :=
  ∀ s : State, s.hopUnm.toNat ≤ 36 → 5 ≤ s.hopH.toNat → s.hopH.toNat ≤ 16 → 2 ≤ popcount s.hopMap →
    (∀ k, ∃ t, issueAll (onPort .I (List.replicate k .hopNext)) s = .next t ∧
      t.hopUnm.toNat = (s.hopUnm.toNat + k * s.hopH.toNat) % 37 ∧ t.hopH = s.hopH ∧ t.hopMap = s.hopMap) ∧
    (∀ u, u < 37 → ∃ k, k < 37 ∧ (s.hopUnm.toNat + k * s.hopH.toNat) % 37 = u ∧
      ∀ j, j < 37 → (s.hopUnm.toNat + j * s.hopH.toNat) % 37 = u → j = k) ∧
    (s.hopUnm.toNat + 37 * s.hopH.toNat) % 37 = s.hopUnm.toNat

/-- R226, R227: HOP.READ and HOP.RDMAP. -/
def Obligations.HopReadsRule : Prop :=
  encode .hopRead = 0x36000000 ∧ (∀ sel, encode (.hopRdmap sel) = (0xDC00000 : BitVec 30) ++ sel) ∧
  ∀ s : State,
    (s.port = .I →
      Completes .hopRead s s
        (fun w => w.extractLsb' 0 6 = s.hopChan ∧ w.extractLsb' 6 2 = 0 ∧ w.extractLsb' 8 6 = s.hopUnm ∧
          w.extractLsb' 14 5 = s.hopH ∧ w.extractLsb' 19 5 = s.hopSh ∧
          w.getLsbD 24 = decide (5 ≤ s.hopH.toNat ∧ s.hopH.toNat ≤ 16 ∧ 2 ≤ popcount s.hopMap) ∧
          w.extractLsb' 25 7 = 0) ∧
      Completes (.hopRdmap 0) s s (OkLow 24 (s.hopMap.extractLsb' 0 24)) ∧
      Completes (.hopRdmap 1) s s (OkLow 13 (s.hopMap.extractLsb' 24 13)) ∧
      Completes (.hopRdmap 2) s s (OkLow 24 (s.hopStg.extractLsb' 0 24)) ∧
      Completes (.hopRdmap 3) s s (OkLow 13 (s.hopStg.extractLsb' 24 13))) ∧
    (s.port = .A → FaultsPort .hopRead s ∧ ∀ sel, FaultsPort (.hopRdmap sel) s)

/-- R345: the connection start sequence on port I, from any state: both queues empty, SN and NESN 0, the map and the increment
installed, the unmapped channel 0, the unit configured, and no fault taken. -/
def Obligations.ConnectionStartInstalls : Prop :=
  ∀ (s : State) (h : BitVec 5) (m : ChanMap), 5 ≤ h.toNat → h.toNat ≤ 16 → 2 ≤ popcount m →
    ∃ t, issueAll (onPort .I (connectionStart h m)) s = .next t ∧
      (∀ q, (t.queue q).rd = 0 ∧ (t.queue q).wr = 0 ∧ queueEmpty t.cfg q (t.queue q) = true) ∧
      t.arqSn = false ∧ t.arqNesn = false ∧ t.hopMap = m ∧ t.hopH = h ∧ t.hopUnm = 0 ∧ t.hopChan = s.hopChan ∧
      hopConfigured t = true ∧ t.fault = s.fault ∧ t.fcmd = s.fcmd ∧ t.crc = s.crc ∧ t.cnt = s.cnt

/-! ### The ARQ unit (44_arq.md) -/

/-- R260, R265: ARQ.RESET and ARQ.READ. -/
def Obligations.ArqResetAndReadRule : Prop :=
  encode .arqReset = 0x40000000 ∧ encode .arqRead = 0x44000000 ∧
  ∀ s : State,
    (s.port = .I →
      Completes .arqReset s { s with arqSn := false, arqNesn := false } (fun w => w = 0) ∧
      Completes .arqRead s s (fun w => w.getLsbD 0 = s.arqSn ∧ w.getLsbD 1 = s.arqNesn ∧ w.extractLsb' 2 30 = 0)) ∧
    (s.port = .A → FaultsPort .arqReset s ∧ FaultsPort .arqRead s)

/-- R253 to R256, R258, R259, R261: ARQ.RX judges the CRC unit's state. -/
def Obligations.ArqRxRule : Prop :=
  encode (.arqRx false) = 0x41000000 ∧ encode (.arqRx true) = 0x41000001 ∧
  ∀ (accept : Bool) (s : State),
    (s.port = .I → ArqUpdateRule (.arqRx accept) s s.hdr0 s.hdr1 (decide (s.crc = 0))
      (decide (s.cnt.toNat = s.hdr1.toNat + 5)) accept) ∧
    (s.port = .A → FaultsPort (.arqRx accept) s)

/-- R253 to R255, R257, R258, R259, R262: ARQ.RXX judges its operands. -/
def Obligations.ArqRxxRule : Prop :=
  ∀ (h0 h1 : Byte) (crcv accept : Bool) (s : State),
    encode (.arqRxx h0 h1 crcv accept) =
      (0x1080 : BitVec 14) ++ BitVec.ofBool accept ++ BitVec.ofBool crcv ++ h1 ++ h0 ∧
    (s.port = .I → ArqUpdateRule (.arqRxx h0 h1 crcv accept) s h0 h1 crcv true accept) ∧
    (s.port = .A → FaultsPort (.arqRxx h0 h1 crcv accept) s)

/-- R261's corner cases, of ARQ.RX and ARQ.RXX on port I. When a command that judges a packet answers VALID and not DROP, the same
command again answers VALID and DUP, not NEW, ACKED or DELIVER, and changes nothing but its answer; for ARQ.RX the packet is the one
the CRC unit still holds. When it answers DROP, NESN has not moved, and the same command with ACCEPT = 1 answers DELIVER and
complements NESN and nothing else. -/
def Obligations.SamePacketAgainIsDuplicate : Prop :=
  ∀ (i j : Instr) (s t : State) (w : Word),
    (∃ a, i = .arqRx a ∧ j = .arqRx true) ∨ (∃ h0 h1 c a, i = .arqRxx h0 h1 c a ∧ j = .arqRxx h0 h1 c true) →
    s.port = .I → exec i s = .next t → t.respI = .result w → w.getLsbD 0 = true →
    t.crc = s.crc ∧ t.cnt = s.cnt ∧ t.hdr0 = s.hdr0 ∧ t.hdr1 = s.hdr1 ∧
    (w.getLsbD 5 = false → ∃ v, exec i t = .next (t.respond (.result v)) ∧
      v.getLsbD 0 = true ∧ v.getLsbD 1 = false ∧ v.getLsbD 2 = false ∧ v.getLsbD 3 = false ∧ v.getLsbD 4 = true) ∧
    (w.getLsbD 5 = true → t.arqNesn = s.arqNesn ∧
      ∃ v, exec j t = .next (({ t with arqNesn := !t.arqNesn }).respond (.result v)) ∧
        v.getLsbD 0 = true ∧ v.getLsbD 3 = true ∧ v.getLsbD 5 = false)

/-- R263: SN and NESN change only by ARQ.RESET, or by ARQ.RX or ARQ.RXX answering VALID = 1. -/
def Obligations.OnlyArqCommandsMoveSequenceBits : Prop :=
  ∀ (i : Instr) (s t : State), exec i s = .next t → t.arqSn ≠ s.arqSn ∨ t.arqNesn ≠ s.arqNesn →
    s.port = .I ∧
    (i = .arqReset ∨
      (((∃ a, i = .arqRx a) ∨ ∃ h0 h1 c a, i = .arqRxx h0 h1 c a) ∧ ∃ w, t.respI = .result w ∧ w.getLsbD 0 = true))

/-- R252, R264: ARQ.TXHDR. -/
def Obligations.ArqTxhdrRule : Prop :=
  ∀ (llid : BitVec 2) (md : Bool) (len : Byte) (s : State),
    encode (.arqTxhdr llid md len) =
      (0x4300 : BitVec 16) ++ len ++ (0 : BitVec 5) ++ BitVec.ofBool md ++ llid ∧
    (s.port = .I →
      (llid ≠ 0 ∧ len.toNat ≤ s.cfg.maxPayload →
        Completes (.arqTxhdr llid md len) s s
          fun w => w.extractLsb' 0 2 = llid ∧ w.getLsbD 2 = s.arqNesn ∧ w.getLsbD 3 = s.arqSn ∧ w.getLsbD 4 = md ∧
            w.extractLsb' 5 3 = 0 ∧ w.extractLsb' 8 8 = len ∧ w.getLsbD 16 = s.arqSn ∧ w.getLsbD 17 = s.arqNesn ∧
            w.extractLsb' 18 14 = 0) ∧
      (llid = 0 ∨ s.cfg.maxPayload < len.toNat → FaultsRange (.arqTxhdr llid md len) s)) ∧
    (s.port = .A → FaultsPort (.arqTxhdr llid md len) s)

/-- R267, for payloads that are not empty: two blocks starting from SN = NESN = 0, their callers following R258, R266 and R268,
over any losses, damage and refusals: the payloads delivered are 0, 1, 2, … in order, each once; every acknowledged payload was
delivered and at most one delivered payload is not yet acknowledged; and an event in which both packets arrive, the receiver can
take the payload, and both headers are legal moves the acknowledgements on by one. -/
def Obligations.ExactlyOnceDelivery : Prop :=
  ∀ (pay : Nat → BitVec 2 × Byte) (l : Link) (es : List Exchange),
    l.sender.arqSn = false → l.sender.arqNesn = false → l.receiver.arqSn = false → l.receiver.arqNesn = false →
    l.acked = 0 → l.delivered = [] → (∀ k, (pay k).2 ≠ 0) →
    (es.foldl (Link.event pay) l).delivered = List.range (es.foldl (Link.event pay) l).delivered.length ∧
    (es.foldl (Link.event pay) l).acked ≤ (es.foldl (Link.event pay) l).delivered.length ∧
    (es.foldl (Link.event pay) l).delivered.length ≤ (es.foldl (Link.event pay) l).acked + 1 ∧
    ∀ e : Exchange, e.forward = .intact → e.back = .intact → e.accept = true → e.replyLlid ≠ 0 →
      (∀ k, (pay k).1 ≠ 0 ∧ (pay k).2.toNat ≤ l.sender.cfg.maxPayload ∧ (pay k).2.toNat ≤ l.receiver.cfg.maxPayload) →
      e.replyLen.toNat ≤ l.sender.cfg.maxPayload → e.replyLen.toNat ≤ l.receiver.cfg.maxPayload →
      ((es.foldl (Link.event pay) l).event pay e).acked = (es.foldl (Link.event pay) l).acked + 1

/-! ### Faults and ports (60_exceptions.md) -/

/-- R303: the port rights, written out; a command without the right is EPORT, one with it never is. -/
def Obligations.PortRightsTable : Prop :=
  ∀ i : Instr,
    (portMay .I i = false ↔ i = .pqAcq .txq ∨ i = .pqCommit .txq ∨ i = .cqAcq .rxq ∨ i = .cqRel .rxq) ∧
    (portMay .A i = true ↔ i = .sysNop ∨ i = .sysRdfault ∨ (∃ h, i = .sysRdfcmd h) ∨ i = .pqAcq .txq ∨ i = .pqCommit .txq ∨
      i = .cqAcq .rxq ∨ i = .cqRel .rxq ∨ ∃ q sel, i = .qStat q sel) ∧
    ∀ s : State, (portMay s.port i = false → FaultsPort i s) ∧
      (portMay s.port i = true → ∀ t, exec i s = .next t → statusOf s t ≠ some 5)

/-- R304: ERANGE is answered by exactly these commands under exactly these conditions, on a port with the right. -/
def Obligations.RangeFaultsExactly : Prop :=
  ∀ (i : Instr) (s t : State), exec i s = .next t →
    (statusOf s t = some 6 ↔ portMay s.port i = true ∧
      (i = .crcTxb 3 ∨ (∃ h, i = .hopSethop h ∧ (h.toNat < 5 ∨ 16 < h.toNat)) ∨
        (∃ am, i = .hopCommit am true ∧ (s.hopSh.toNat < 5 ∨ 16 < s.hopSh.toNat)) ∨
        (∃ c, i = .hopSetunm c ∧ 36 < c.toNat) ∨
        ∃ llid md len, i = .arqTxhdr llid md len ∧ (llid = 0 ∨ s.cfg.maxPayload < len.toNat)))

/-- R303, R305, R306, R307 and R300's order: EPORT, EUNCONF, EMAP and ESEQ are each answered in exactly the case their rule names. -/
def Obligations.OtherFaultsExactly : Prop :=
  ∀ (i : Instr) (s t : State), exec i s = .next t →
    (statusOf s t = some 5 ↔ portMay s.port i = false) ∧
    (statusOf s t = some 7 ↔ i = .hopNext ∧ s.port = .I ∧ (s.hopH.toNat < 5 ∨ 16 < s.hopH.toNat ∨ popcount s.hopMap < 2)) ∧
    (statusOf s t = some 8 ↔ ∃ ah, i = .hopCommit true ah ∧ s.port = .I ∧ popcount s.hopStg < 2 ∧
      (ah = true → 5 ≤ s.hopSh.toNat ∧ s.hopSh.toNat ≤ 16)) ∧
    (statusOf s t = some 4 ↔ ∃ q, (i = .pqCommit q ∧ s.port = prod q ∧ (s.queue q).ph = .noHold) ∨
      (i = .cqRel q ∧ s.port = cons q ∧ (s.queue q).ch = .noHold))

/-- R94, R302, R308: every command answers one of ten statuses; with a normal one FAULT and FCMD stay, with a fault (code `c`, FAULT bit
`c - 3`) nothing but FAULT, FCMD and the answer changes. -/
def Obligations.FaultsArePrecise : Prop :=
  ∀ (i : Instr) (s t : State), exec i s = .next t → ∃ c, statusOf s t = some c ∧
    ((c.toNat ≤ 3 ∧ t.fault = s.fault ∧ t.fcmd = s.fcmd) ∨
      (4 ≤ c.toNat ∧ c.toNat ≤ 8 ∧ FaultTaken (c.toNat - 3) c (encode i) s t))

/-- R23, R24, R342: without reset no step clears a bit of FAULT, and once FVALID is 1 FPORT and FCMD never change. -/
def Obligations.FaultRegistersAreSticky : Prop :=
  ∀ s t : State, step s = .next t → s.resetIn = false →
    (∀ j, j ≠ 6 → s.fault.getLsbD j = true → t.fault.getLsbD j = true) ∧
    (s.fault.getLsbD 7 = true → t.fault.getLsbD 6 = s.fault.getLsbD 6 ∧ t.fcmd = s.fcmd)

/-- R303: no command of port A changes the CRC, HOP or ARQ unit, the consumer side of TXQ or the producer side of RXQ, or an index
it does not own. -/
def Obligations.PortAIsConfined : Prop :=
  ∀ (i : Instr) (s t : State), exec i s = .next t → s.port = .A →
    t.crc = s.crc ∧ t.cnt = s.cnt ∧ t.hdr0 = s.hdr0 ∧ t.hdr1 = s.hdr1 ∧ t.hopMap = s.hopMap ∧ t.hopStg = s.hopStg ∧
    t.hopH = s.hopH ∧ t.hopSh = s.hopSh ∧ t.hopUnm = s.hopUnm ∧ t.hopChan = s.hopChan ∧ t.arqSn = s.arqSn ∧
    t.arqNesn = s.arqNesn ∧ t.txq.rd = s.txq.rd ∧ t.txq.ch = s.txq.ch ∧ t.rxq.wr = s.rxq.wr ∧ t.rxq.ph = s.rxq.ph ∧
    t.respI = s.respI

/-- R69: a read-only command that completes changes nothing but its port's answer, and repeating it answers the same. -/
def Obligations.ReadOnlyCommandsRepeat : Prop :=
  ∀ (i : Instr) (s t : State),
    (i = .sysNop ∨ i = .sysRdfault ∨ (∃ h, i = .sysRdfcmd h) ∨ i = .crcRead ∨ i = .crcStat ∨ (∃ k, i = .crcTxb k) ∨
      (∃ q sel, i = .qStat q sel) ∨ i = .hopRead ∨ (∃ sel, i = .hopRdmap sel) ∨ i = .arqRead ∨
      ∃ llid md len, i = .arqTxhdr llid md len) →
    exec i s = .next t → statusOf s t = some 0 → (∃ r, t = s.respond r) ∧ exec i t = .next t

/-! ### The whole machine -/

/-- R30, R31, R36 to R41, R175, R185 and the canonical form of slot memory: every step keeps a legal state legal. -/
def Obligations.StepKeepsLegal : Prop :=
  ∀ s t : State, s.Legal → step s = .next t → t.Legal

/-- R340: the state after reset is legal, for every well-formed configuration. -/
def Obligations.ResetIsLegal : Prop :=
  ∀ c : Config, c.wellFormed = true → (State.resetWith c).Legal
end

