-- ==== Sys2Proof/Laws/State.lean ====
section
/-! SUPPORT. One lemma for each field and each update of the state that leaves the field as it was, and what each update writes.
All are true by computation, so that later proofs unfold no update. -/

namespace Sys2Proof.Machine

/-! ### `respond` -/

@[simp] theorem State.respond_cfg (s : State) (r : Response) : (s.respond r).cfg = s.cfg := rfl
@[simp] theorem State.respond_fault (s : State) (r : Response) : (s.respond r).fault = s.fault := rfl
@[simp] theorem State.respond_fcmd (s : State) (r : Response) : (s.respond r).fcmd = s.fcmd := rfl
@[simp] theorem State.respond_crc (s : State) (r : Response) : (s.respond r).crc = s.crc := rfl
@[simp] theorem State.respond_cnt (s : State) (r : Response) : (s.respond r).cnt = s.cnt := rfl
@[simp] theorem State.respond_hdr0 (s : State) (r : Response) : (s.respond r).hdr0 = s.hdr0 := rfl
@[simp] theorem State.respond_hdr1 (s : State) (r : Response) : (s.respond r).hdr1 = s.hdr1 := rfl
@[simp] theorem State.respond_txq (s : State) (r : Response) : (s.respond r).txq = s.txq := rfl
@[simp] theorem State.respond_rxq (s : State) (r : Response) : (s.respond r).rxq = s.rxq := rfl
@[simp] theorem State.respond_mem (s : State) (r : Response) : (s.respond r).mem = s.mem := rfl
@[simp] theorem State.respond_hopMap (s : State) (r : Response) : (s.respond r).hopMap = s.hopMap := rfl
@[simp] theorem State.respond_hopStg (s : State) (r : Response) : (s.respond r).hopStg = s.hopStg := rfl
@[simp] theorem State.respond_hopH (s : State) (r : Response) : (s.respond r).hopH = s.hopH := rfl
@[simp] theorem State.respond_hopSh (s : State) (r : Response) : (s.respond r).hopSh = s.hopSh := rfl
@[simp] theorem State.respond_hopUnm (s : State) (r : Response) : (s.respond r).hopUnm = s.hopUnm := rfl
@[simp] theorem State.respond_hopChan (s : State) (r : Response) : (s.respond r).hopChan = s.hopChan := rfl
@[simp] theorem State.respond_arqSn (s : State) (r : Response) : (s.respond r).arqSn = s.arqSn := rfl
@[simp] theorem State.respond_arqNesn (s : State) (r : Response) : (s.respond r).arqNesn = s.arqNesn := rfl
@[simp] theorem State.respond_racy (s : State) (r : Response) : (s.respond r).racy = s.racy := rfl
@[simp] theorem State.respond_resetIn (s : State) (r : Response) : (s.respond r).resetIn = s.resetIn := rfl
@[simp] theorem State.respond_reqI (s : State) (r : Response) : (s.respond r).reqI = s.reqI := rfl
@[simp] theorem State.respond_reqA (s : State) (r : Response) : (s.respond r).reqA = s.reqA := rfl
@[simp] theorem State.respond_port (s : State) (r : Response) : (s.respond r).port = s.port := rfl
@[simp] theorem State.respond_draws (s : State) (r : Response) : (s.respond r).draws = s.draws := rfl
@[simp] theorem State.respond_resets (s : State) (r : Response) : (s.respond r).resets = s.resets := rfl

/-! ### `setQueue` -/

@[simp] theorem State.setQueue_cfg (s : State) (q : QueueId) (v : Queue) : (s.setQueue q v).cfg = s.cfg := rfl
@[simp] theorem State.setQueue_fault (s : State) (q : QueueId) (v : Queue) : (s.setQueue q v).fault = s.fault := rfl
@[simp] theorem State.setQueue_fcmd (s : State) (q : QueueId) (v : Queue) : (s.setQueue q v).fcmd = s.fcmd := rfl
@[simp] theorem State.setQueue_crc (s : State) (q : QueueId) (v : Queue) : (s.setQueue q v).crc = s.crc := rfl
@[simp] theorem State.setQueue_cnt (s : State) (q : QueueId) (v : Queue) : (s.setQueue q v).cnt = s.cnt := rfl
@[simp] theorem State.setQueue_hdr0 (s : State) (q : QueueId) (v : Queue) : (s.setQueue q v).hdr0 = s.hdr0 := rfl
@[simp] theorem State.setQueue_hdr1 (s : State) (q : QueueId) (v : Queue) : (s.setQueue q v).hdr1 = s.hdr1 := rfl
@[simp] theorem State.setQueue_mem (s : State) (q : QueueId) (v : Queue) : (s.setQueue q v).mem = s.mem := rfl
@[simp] theorem State.setQueue_hopMap (s : State) (q : QueueId) (v : Queue) : (s.setQueue q v).hopMap = s.hopMap := rfl
@[simp] theorem State.setQueue_hopStg (s : State) (q : QueueId) (v : Queue) : (s.setQueue q v).hopStg = s.hopStg := rfl
@[simp] theorem State.setQueue_hopH (s : State) (q : QueueId) (v : Queue) : (s.setQueue q v).hopH = s.hopH := rfl
@[simp] theorem State.setQueue_hopSh (s : State) (q : QueueId) (v : Queue) : (s.setQueue q v).hopSh = s.hopSh := rfl
@[simp] theorem State.setQueue_hopUnm (s : State) (q : QueueId) (v : Queue) : (s.setQueue q v).hopUnm = s.hopUnm := rfl
@[simp] theorem State.setQueue_hopChan (s : State) (q : QueueId) (v : Queue) : (s.setQueue q v).hopChan = s.hopChan := rfl
@[simp] theorem State.setQueue_arqSn (s : State) (q : QueueId) (v : Queue) : (s.setQueue q v).arqSn = s.arqSn := rfl
@[simp] theorem State.setQueue_arqNesn (s : State) (q : QueueId) (v : Queue) : (s.setQueue q v).arqNesn = s.arqNesn := rfl
@[simp] theorem State.setQueue_racy (s : State) (q : QueueId) (v : Queue) : (s.setQueue q v).racy = s.racy := rfl
@[simp] theorem State.setQueue_resetIn (s : State) (q : QueueId) (v : Queue) : (s.setQueue q v).resetIn = s.resetIn := rfl
@[simp] theorem State.setQueue_reqI (s : State) (q : QueueId) (v : Queue) : (s.setQueue q v).reqI = s.reqI := rfl
@[simp] theorem State.setQueue_reqA (s : State) (q : QueueId) (v : Queue) : (s.setQueue q v).reqA = s.reqA := rfl
@[simp] theorem State.setQueue_respI (s : State) (q : QueueId) (v : Queue) : (s.setQueue q v).respI = s.respI := rfl
@[simp] theorem State.setQueue_respA (s : State) (q : QueueId) (v : Queue) : (s.setQueue q v).respA = s.respA := rfl
@[simp] theorem State.setQueue_port (s : State) (q : QueueId) (v : Queue) : (s.setQueue q v).port = s.port := rfl
@[simp] theorem State.setQueue_draws (s : State) (q : QueueId) (v : Queue) : (s.setQueue q v).draws = s.draws := rfl
@[simp] theorem State.setQueue_resets (s : State) (q : QueueId) (v : Queue) : (s.setQueue q v).resets = s.resets := rfl

/-! ### `takeFault` -/

@[simp] theorem State.takeFault_cfg (s : State) (k : FaultKind) (w : Word) : (s.takeFault k w).cfg = s.cfg := rfl
@[simp] theorem State.takeFault_crc (s : State) (k : FaultKind) (w : Word) : (s.takeFault k w).crc = s.crc := rfl
@[simp] theorem State.takeFault_cnt (s : State) (k : FaultKind) (w : Word) : (s.takeFault k w).cnt = s.cnt := rfl
@[simp] theorem State.takeFault_hdr0 (s : State) (k : FaultKind) (w : Word) : (s.takeFault k w).hdr0 = s.hdr0 := rfl
@[simp] theorem State.takeFault_hdr1 (s : State) (k : FaultKind) (w : Word) : (s.takeFault k w).hdr1 = s.hdr1 := rfl
@[simp] theorem State.takeFault_txq (s : State) (k : FaultKind) (w : Word) : (s.takeFault k w).txq = s.txq := rfl
@[simp] theorem State.takeFault_rxq (s : State) (k : FaultKind) (w : Word) : (s.takeFault k w).rxq = s.rxq := rfl
@[simp] theorem State.takeFault_mem (s : State) (k : FaultKind) (w : Word) : (s.takeFault k w).mem = s.mem := rfl
@[simp] theorem State.takeFault_hopMap (s : State) (k : FaultKind) (w : Word) : (s.takeFault k w).hopMap = s.hopMap := rfl
@[simp] theorem State.takeFault_hopStg (s : State) (k : FaultKind) (w : Word) : (s.takeFault k w).hopStg = s.hopStg := rfl
@[simp] theorem State.takeFault_hopH (s : State) (k : FaultKind) (w : Word) : (s.takeFault k w).hopH = s.hopH := rfl
@[simp] theorem State.takeFault_hopSh (s : State) (k : FaultKind) (w : Word) : (s.takeFault k w).hopSh = s.hopSh := rfl
@[simp] theorem State.takeFault_hopUnm (s : State) (k : FaultKind) (w : Word) : (s.takeFault k w).hopUnm = s.hopUnm := rfl
@[simp] theorem State.takeFault_hopChan (s : State) (k : FaultKind) (w : Word) : (s.takeFault k w).hopChan = s.hopChan := rfl
@[simp] theorem State.takeFault_arqSn (s : State) (k : FaultKind) (w : Word) : (s.takeFault k w).arqSn = s.arqSn := rfl
@[simp] theorem State.takeFault_arqNesn (s : State) (k : FaultKind) (w : Word) : (s.takeFault k w).arqNesn = s.arqNesn := rfl
@[simp] theorem State.takeFault_racy (s : State) (k : FaultKind) (w : Word) : (s.takeFault k w).racy = s.racy := rfl
@[simp] theorem State.takeFault_resetIn (s : State) (k : FaultKind) (w : Word) : (s.takeFault k w).resetIn = s.resetIn := rfl
@[simp] theorem State.takeFault_reqI (s : State) (k : FaultKind) (w : Word) : (s.takeFault k w).reqI = s.reqI := rfl
@[simp] theorem State.takeFault_reqA (s : State) (k : FaultKind) (w : Word) : (s.takeFault k w).reqA = s.reqA := rfl
@[simp] theorem State.takeFault_respI (s : State) (k : FaultKind) (w : Word) : (s.takeFault k w).respI = s.respI := rfl
@[simp] theorem State.takeFault_respA (s : State) (k : FaultKind) (w : Word) : (s.takeFault k w).respA = s.respA := rfl
@[simp] theorem State.takeFault_port (s : State) (k : FaultKind) (w : Word) : (s.takeFault k w).port = s.port := rfl
@[simp] theorem State.takeFault_draws (s : State) (k : FaultKind) (w : Word) : (s.takeFault k w).draws = s.draws := rfl
@[simp] theorem State.takeFault_resets (s : State) (k : FaultKind) (w : Word) : (s.takeFault k w).resets = s.resets := rfl

/-! ### `grant` -/

@[simp] theorem State.grant_cfg (s : State) (p : Port) : (s.grant p).cfg = s.cfg := rfl
@[simp] theorem State.grant_fault (s : State) (p : Port) : (s.grant p).fault = s.fault := rfl
@[simp] theorem State.grant_fcmd (s : State) (p : Port) : (s.grant p).fcmd = s.fcmd := rfl
@[simp] theorem State.grant_crc (s : State) (p : Port) : (s.grant p).crc = s.crc := rfl
@[simp] theorem State.grant_cnt (s : State) (p : Port) : (s.grant p).cnt = s.cnt := rfl
@[simp] theorem State.grant_hdr0 (s : State) (p : Port) : (s.grant p).hdr0 = s.hdr0 := rfl
@[simp] theorem State.grant_hdr1 (s : State) (p : Port) : (s.grant p).hdr1 = s.hdr1 := rfl
@[simp] theorem State.grant_txq (s : State) (p : Port) : (s.grant p).txq = s.txq := rfl
@[simp] theorem State.grant_rxq (s : State) (p : Port) : (s.grant p).rxq = s.rxq := rfl
@[simp] theorem State.grant_mem (s : State) (p : Port) : (s.grant p).mem = s.mem := rfl
@[simp] theorem State.grant_hopMap (s : State) (p : Port) : (s.grant p).hopMap = s.hopMap := rfl
@[simp] theorem State.grant_hopStg (s : State) (p : Port) : (s.grant p).hopStg = s.hopStg := rfl
@[simp] theorem State.grant_hopH (s : State) (p : Port) : (s.grant p).hopH = s.hopH := rfl
@[simp] theorem State.grant_hopSh (s : State) (p : Port) : (s.grant p).hopSh = s.hopSh := rfl
@[simp] theorem State.grant_hopUnm (s : State) (p : Port) : (s.grant p).hopUnm = s.hopUnm := rfl
@[simp] theorem State.grant_hopChan (s : State) (p : Port) : (s.grant p).hopChan = s.hopChan := rfl
@[simp] theorem State.grant_arqSn (s : State) (p : Port) : (s.grant p).arqSn = s.arqSn := rfl
@[simp] theorem State.grant_arqNesn (s : State) (p : Port) : (s.grant p).arqNesn = s.arqNesn := rfl
@[simp] theorem State.grant_racy (s : State) (p : Port) : (s.grant p).racy = s.racy := rfl
@[simp] theorem State.grant_resetIn (s : State) (p : Port) : (s.grant p).resetIn = s.resetIn := rfl
@[simp] theorem State.grant_respI (s : State) (p : Port) : (s.grant p).respI = s.respI := rfl
@[simp] theorem State.grant_respA (s : State) (p : Port) : (s.grant p).respA = s.respA := rfl
@[simp] theorem State.grant_resets (s : State) (p : Port) : (s.grant p).resets = s.resets := rfl

/-! ### `present` -/

@[simp] theorem State.present_cfg (s : State) (p : Port) (r : Request) : (s.present p r).cfg = s.cfg := rfl
@[simp] theorem State.present_fault (s : State) (p : Port) (r : Request) : (s.present p r).fault = s.fault := rfl
@[simp] theorem State.present_fcmd (s : State) (p : Port) (r : Request) : (s.present p r).fcmd = s.fcmd := rfl
@[simp] theorem State.present_crc (s : State) (p : Port) (r : Request) : (s.present p r).crc = s.crc := rfl
@[simp] theorem State.present_cnt (s : State) (p : Port) (r : Request) : (s.present p r).cnt = s.cnt := rfl
@[simp] theorem State.present_hdr0 (s : State) (p : Port) (r : Request) : (s.present p r).hdr0 = s.hdr0 := rfl
@[simp] theorem State.present_hdr1 (s : State) (p : Port) (r : Request) : (s.present p r).hdr1 = s.hdr1 := rfl
@[simp] theorem State.present_txq (s : State) (p : Port) (r : Request) : (s.present p r).txq = s.txq := rfl
@[simp] theorem State.present_rxq (s : State) (p : Port) (r : Request) : (s.present p r).rxq = s.rxq := rfl
@[simp] theorem State.present_mem (s : State) (p : Port) (r : Request) : (s.present p r).mem = s.mem := rfl
@[simp] theorem State.present_hopMap (s : State) (p : Port) (r : Request) : (s.present p r).hopMap = s.hopMap := rfl
@[simp] theorem State.present_hopStg (s : State) (p : Port) (r : Request) : (s.present p r).hopStg = s.hopStg := rfl
@[simp] theorem State.present_hopH (s : State) (p : Port) (r : Request) : (s.present p r).hopH = s.hopH := rfl
@[simp] theorem State.present_hopSh (s : State) (p : Port) (r : Request) : (s.present p r).hopSh = s.hopSh := rfl
@[simp] theorem State.present_hopUnm (s : State) (p : Port) (r : Request) : (s.present p r).hopUnm = s.hopUnm := rfl
@[simp] theorem State.present_hopChan (s : State) (p : Port) (r : Request) : (s.present p r).hopChan = s.hopChan := rfl
@[simp] theorem State.present_arqSn (s : State) (p : Port) (r : Request) : (s.present p r).arqSn = s.arqSn := rfl
@[simp] theorem State.present_arqNesn (s : State) (p : Port) (r : Request) : (s.present p r).arqNesn = s.arqNesn := rfl
@[simp] theorem State.present_racy (s : State) (p : Port) (r : Request) : (s.present p r).racy = s.racy := rfl
@[simp] theorem State.present_resetIn (s : State) (p : Port) (r : Request) : (s.present p r).resetIn = s.resetIn := rfl
@[simp] theorem State.present_respI (s : State) (p : Port) (r : Request) : (s.present p r).respI = s.respI := rfl
@[simp] theorem State.present_respA (s : State) (p : Port) (r : Request) : (s.present p r).respA = s.respA := rfl
@[simp] theorem State.present_port (s : State) (p : Port) (r : Request) : (s.present p r).port = s.port := rfl
@[simp] theorem State.present_draws (s : State) (p : Port) (r : Request) : (s.present p r).draws = s.draws := rfl
@[simp] theorem State.present_resets (s : State) (p : Port) (r : Request) : (s.present p r).resets = s.resets := rfl

/-! ### What each update writes -/

@[simp] theorem State.respond_queue (s : State) (r : Response) (q : QueueId) : (s.respond r).queue q = s.queue q := by
  cases q <;> rfl

@[simp] theorem State.respond_requests (s : State) (r : Response) (p : Port) : (s.respond r).requests p = s.requests p := by
  cases p <;> rfl

@[simp] theorem State.respond_faultValid (s : State) (r : Response) : (s.respond r).faultValid = s.faultValid := rfl

@[simp] theorem State.respond_response_self (s : State) (r : Response) : (s.respond r).response s.port = r := by
  rcases h : s.port <;> simp [State.respond, State.response, h]

@[simp] theorem State.respond_response_other (s : State) (r : Response) :
    (s.respond r).response (otherPort s.port) = s.response (otherPort s.port) := by
  rcases h : s.port <;> simp [State.respond, State.response, otherPort, h]

@[simp] theorem State.setQueue_queue_self (s : State) (q : QueueId) (v : Queue) : (s.setQueue q v).queue q = v := by
  cases q <;> rfl

theorem State.setQueue_queue_of_ne (s : State) {q q' : QueueId} (v : Queue) (h : q' ≠ q) :
    (s.setQueue q v).queue q' = s.queue q' := by
  cases q <;> cases q' <;> first | rfl | exact absurd rfl h

@[simp] theorem State.setQueue_faultValid (s : State) (q : QueueId) (v : Queue) :
    (s.setQueue q v).faultValid = s.faultValid := rfl

@[simp] theorem State.setQueue_queue_eq (s : State) (q : QueueId) : s.setQueue q (s.queue q) = s := by
  cases q <;> rfl

@[simp] theorem State.takeFault_queue (s : State) (k : FaultKind) (w : Word) (q : QueueId) :
    (s.takeFault k w).queue q = s.queue q := by
  cases q <;> rfl

@[simp] theorem State.takeFault_fcmd (s : State) (k : FaultKind) (w : Word) :
    (s.takeFault k w).fcmd = if s.faultValid then s.fcmd else w := rfl

@[simp] theorem State.grant_port (s : State) (p : Port) : (s.grant p).port = p := rfl

@[simp] theorem State.grant_queue (s : State) (p : Port) (q : QueueId) : (s.grant p).queue q = s.queue q := by
  cases q <;> rfl

@[simp] theorem State.grant_requests_self (s : State) (p : Port) : (s.grant p).requests p = (s.requests p).tail := by
  cases p <;> rfl

@[simp] theorem State.grant_requests_other (s : State) (p : Port) :
    (s.grant p).requests (otherPort p) = s.requests (otherPort p) := by
  cases p <;> rfl

@[simp] theorem State.present_requests_self (s : State) (p : Port) (r : Request) :
    (s.present p r).requests p = s.requests p ++ [r] := by
  cases p <;> rfl

end Sys2Proof.Machine
end

