-- ==== Sys2Proof/Laws/Memory.lean ====
section
/-! SUPPORT. Slot memory: the read-over-write laws, and that every operation keeps the canonical form. -/

namespace Sys2Proof.Machine

/-! ### Reading after writing and erasing -/

theorem Memory.read_write_same (m : Memory) (a : Nat) (v : Byte) : Memory.read (Memory.write m a v) a = some v := by
  induction m with
  | nil => simp [Memory.write, Memory.read]
  | cons x rest ih =>
    obtain ⟨b, u⟩ := x
    simp only [Memory.write]
    split
    · simp [Memory.read]
    · split
      · simp [Memory.read]
      · simp [Memory.read, *]

theorem Memory.read_write_of_ne (m : Memory) {a b : Nat} (v : Byte) (h : b ≠ a) :
    Memory.read (Memory.write m a v) b = Memory.read m b := by
  induction m with
  | nil => simp [Memory.write, Memory.read, h]
  | cons x rest ih =>
    obtain ⟨c, u⟩ := x
    simp only [Memory.write]
    split
    · simp [Memory.read, h]
    · split
      · subst_vars; simp [Memory.read, h]
      · simp [Memory.read, ih]

/-- What is listed at or above an address a canonical list starts above: nothing. -/
theorem Memory.read_eq_none_of_lt (m : Memory) (a : Nat) (h : ∀ x ∈ m, a < x.1) : Memory.read m a = none := by
  induction m with
  | nil => rfl
  | cons x rest ih =>
    have hx := h x (by simp)
    rw [show Memory.read (x :: rest) a = if a = x.1 then some x.2 else Memory.read rest a from rfl,
      if_neg (by omega)]
    exact ih fun y hy => h y (by simp [hy])

theorem Memory.read_erase_of_ne (m : Memory) {a b : Nat} (h : b ≠ a) :
    Memory.read (Memory.erase m a) b = Memory.read m b := by
  induction m with
  | nil => rfl
  | cons x rest ih =>
    obtain ⟨c, u⟩ := x
    simp only [Memory.erase]
    split
    · subst_vars; simp [Memory.read, h]
    · simp [Memory.read, ih]

/-! ### What the lists hold -/

theorem Memory.mem_write (m : Memory) (a : Nat) (v : Byte) {x : Host.Cell} (h : x ∈ Memory.write m a v) :
    x = (a, v) ∨ x ∈ m := by
  induction m with
  | nil => simpa [Memory.write] using h
  | cons y rest ih =>
    obtain ⟨b, u⟩ := y
    simp only [Memory.write] at h
    split at h
    · simpa using h
    · split at h
      · rcases List.mem_cons.mp h with h | h
        · exact .inl h
        · exact .inr (by simp [h])
      · rcases List.mem_cons.mp h with h | h
        · exact .inr (by simp [h])
        · exact (ih h).imp_right fun h => by simp [h]

theorem Memory.erase_sublist (m : Memory) (a : Nat) : (Memory.erase m a).Sublist m := by
  induction m with
  | nil => exact .slnil
  | cons y rest ih =>
    obtain ⟨b, u⟩ := y
    simp only [Memory.erase]
    split
    · exact List.sublist_cons_self _ _
    · exact ih.cons_cons _

theorem mem_addAddress (l : List Nat) (a : Nat) {x : Nat} : x ∈ addAddress l a ↔ x = a ∨ x ∈ l := by
  induction l with
  | nil => simp [addAddress]
  | cons b rest ih =>
    simp only [addAddress]
    split
    · simp
    · split
      · subst_vars; simp
      · simp [ih]; tauto

theorem dropAddress_sublist (l : List Nat) (a : Nat) : (dropAddress l a).Sublist l := by
  induction l with
  | nil => exact .slnil
  | cons b rest ih =>
    simp only [dropAddress]
    split
    · exact List.sublist_cons_self _ _
    · exact ih.cons_cons _

theorem mem_dropAddress_of_ne (l : List Nat) {a x : Nat} (h : x ≠ a) : x ∈ dropAddress l a ↔ x ∈ l := by
  induction l with
  | nil => simp [dropAddress]
  | cons b rest ih =>
    simp only [dropAddress]
    split
    · subst_vars; simp [h]
    · simp [ih]

/-! ### The canonical form is kept -/

theorem Memory.wf_iff (m : Memory) :
    Memory.wf m = true ↔ m.Pairwise (fun x y => x.1 < y.1) ∧ ∀ x ∈ m, x.1 < 2 ^ 24 := by
  simp [Memory.wf]

theorem addressesWf_iff (l : List Nat) :
    addressesWf l = true ↔ l.Pairwise (fun x y => x < y) ∧ ∀ x ∈ l, x < 2 ^ 24 := by
  simp [addressesWf]

theorem Memory.wf_nil : Memory.wf [] = true := by
  decide

theorem Memory.rising_write (m : Memory) (a : Nat) (v : Byte) (h : m.Pairwise fun x y => x.1 < y.1) :
    (Memory.write m a v).Pairwise fun x y => x.1 < y.1 := by
  induction m with
  | nil => simp [Memory.write]
  | cons y rest ih =>
    obtain ⟨b, u⟩ := y
    obtain ⟨hb, hrest⟩ := List.pairwise_cons.mp h
    simp only [Memory.write]
    split
    · refine List.pairwise_cons.mpr ⟨fun z hz => ?_, h⟩
      rcases List.mem_cons.mp hz with rfl | hz
      · assumption
      · exact lt_trans ‹a < b› (hb z hz)
    · split
      · subst_vars; exact List.pairwise_cons.mpr ⟨hb, hrest⟩
      · refine List.pairwise_cons.mpr ⟨fun z hz => ?_, ih hrest⟩
        rcases Memory.mem_write rest a v hz with rfl | hz
        · simp only; omega
        · exact hb z hz

/-- A write keeps the canonical form. -/
theorem Memory.wf_write (m : Memory) {a : Nat} (v : Byte) (ha : a < 2 ^ 24) (h : Memory.wf m = true) :
    Memory.wf (Memory.write m a v) = true := by
  rw [Memory.wf_iff] at h ⊢
  refine ⟨Memory.rising_write m a v h.1, fun x hx => ?_⟩
  rcases Memory.mem_write m a v hx with rfl | hx
  · exact ha
  · exact h.2 x hx

/-- An erasure keeps the canonical form. -/
theorem Memory.wf_erase (m : Memory) (a : Nat) (h : Memory.wf m = true) : Memory.wf (Memory.erase m a) = true := by
  rw [Memory.wf_iff] at h ⊢
  exact ⟨h.1.sublist (Memory.erase_sublist m a), fun x hx => h.2 x ((Memory.erase_sublist m a).subset hx)⟩

/-- In a canonical memory an erased address holds no written byte. -/
theorem Memory.read_erase_same (m : Memory) (a : Nat) (h : Memory.wf m = true) :
    Memory.read (Memory.erase m a) a = none := by
  rw [Memory.wf_iff] at h
  replace h := h.1
  induction m with
  | nil => rfl
  | cons y rest ih =>
    obtain ⟨b, u⟩ := y
    obtain ⟨hb, hrest⟩ := List.pairwise_cons.mp h
    simp only [Memory.erase]
    split
    · subst_vars; exact Memory.read_eq_none_of_lt rest _ hb
    · simp [Memory.read, *]

/-- Adding an address keeps the canonical form. -/
theorem addressesWf_addAddress (l : List Nat) {a : Nat} (ha : a < 2 ^ 24) (h : addressesWf l = true) :
    addressesWf (addAddress l a) = true := by
  rw [addressesWf_iff] at h ⊢
  refine ⟨?_, fun x hx => ?_⟩
  · replace h := h.1
    induction l with
    | nil => simp [addAddress]
    | cons b rest ih =>
      obtain ⟨hb, hrest⟩ := List.pairwise_cons.mp h
      simp only [addAddress]
      split
      · refine List.pairwise_cons.mpr ⟨fun z hz => ?_, h⟩
        rcases List.mem_cons.mp hz with rfl | hz
        · assumption
        · exact lt_trans ‹a < b› (hb z hz)
      · split
        · exact h
        · refine List.pairwise_cons.mpr ⟨fun z hz => ?_, ih hrest⟩
          rcases (mem_addAddress rest a).mp hz with rfl | hz
          · omega
          · exact hb z hz
  · rcases (mem_addAddress l a).mp hx with rfl | hx
    · exact ha
    · exact h.2 x hx

/-- Removing an address keeps the canonical form. -/
theorem addressesWf_dropAddress (l : List Nat) (a : Nat) (h : addressesWf l = true) :
    addressesWf (dropAddress l a) = true := by
  rw [addressesWf_iff] at h ⊢
  exact ⟨h.1.sublist (dropAddress_sublist l a), fun x hx => h.2 x ((dropAddress_sublist l a).subset hx)⟩

/-- In a canonical list an address that was removed is gone. -/
theorem not_mem_dropAddress (l : List Nat) (a : Nat) (h : addressesWf l = true) : a ∉ dropAddress l a := by
  rw [addressesWf_iff] at h
  replace h := h.1
  induction l with
  | nil => simp [dropAddress]
  | cons b rest ih =>
    obtain ⟨hb, hrest⟩ := List.pairwise_cons.mp h
    simp only [dropAddress]
    split
    · subst_vars; exact fun hm => lt_irrefl _ (hb _ hm)
    · simp only [List.mem_cons, not_or]; exact ⟨by assumption, ih hrest⟩

/-! ### A byte stored by a port -/

/-- Everything a write can do to slot memory: nothing outside the slot ranges, the byte stored when owned, the byte left open
when not (R61, R72, R75). -/
theorem State.storeByte_cases (s : State) (a : Addr) (v : Byte) :
    (inSlotMemory s.cfg a = false ∧ s.storeByte a v = s) ∨
    (inSlotMemory s.cfg a = true ∧ owns s s.port a = true ∧
      s.storeByte a v = { s with mem := Memory.write s.mem a.toNat v, racy := dropAddress s.racy a.toNat }) ∨
    (inSlotMemory s.cfg a = true ∧ owns s s.port a = false ∧
      s.storeByte a v = { s with mem := Memory.erase s.mem a.toNat, racy := addAddress s.racy a.toNat }) := by
  unfold State.storeByte
  cases inSlotMemory s.cfg a <;> cases owns s s.port a <;> simp

/-- A write reaches only slot memory: some memory and some open addresses, every other field as before. -/
theorem State.storeByte_frame (s : State) (a : Addr) (v : Byte) :
    ∃ m l, s.storeByte a v = { s with mem := m, racy := l } := by
  rcases s.storeByte_cases a v with ⟨_, h⟩ | ⟨_, _, h⟩ | ⟨_, _, h⟩
  · exact ⟨s.mem, s.racy, h⟩
  · exact ⟨_, _, h⟩
  · exact ⟨_, _, h⟩

/-- A write leaves every other byte as it was. -/
theorem slotByte_storeByte_of_ne (s : State) {a b : Addr} (v : Byte) (h : b ≠ a) :
    slotByte (s.storeByte a v) b = slotByte s b := by
  have hn : b.toNat ≠ a.toNat := fun hh => h (BitVec.eq_of_toNat_eq hh)
  rcases s.storeByte_cases a v with ⟨_, hs⟩ | ⟨_, _, hs⟩ | ⟨_, _, hs⟩
  · rw [hs]
  · rw [hs]
    simp [slotByte, Memory.read_write_of_ne _ _ hn, mem_dropAddress_of_ne _ hn]
  · rw [hs]
    simp [slotByte, Memory.read_erase_of_ne _ hn, mem_addAddress, hn]

end Sys2Proof.Machine
end

