-- ==== Sys2Proof/Laws/Ops.lean ====
section
/-! SUPPORT. What each shared operation can do, said once: the check order of R300, taking a fault (R302), the slot-memory accesses,
the choice of the next request, and the queue's count. -/

namespace Sys2Proof.Machine

/-! ### Checks and faults -/

/-- The checks either all pass and the body runs, or the first that fails is taken as a fault. -/
theorem runChecks_cases (w : Word) (s : State) (body : StepResult) (cs : List (Bool × FaultKind)) :
    ((∀ c ∈ cs, c.1 = true) ∧ runChecks w s body cs = body) ∨
      ∃ k, (false, k) ∈ cs ∧ runChecks w s body cs = raiseFault k w s := by
  induction cs with
  | nil => exact .inl ⟨by simp, rfl⟩
  | cons c rest ih =>
    obtain ⟨good, k⟩ := c
    cases good with
    | false => exact .inr ⟨k, by simp, rfl⟩
    | true =>
      rcases ih with ⟨hall, hb⟩ | ⟨k', hk, hb⟩
      · exact .inl ⟨by simpa using hall, hb⟩
      · exact .inr ⟨k', by simp [hk], hb⟩

/-- On a port without the right the command is EPORT, whatever its other checks say (R300). -/
theorem checked_of_port (i : Instr) (s : State) (cs : List (Bool × FaultKind)) (body : StepResult)
    (h : portMay s.port i = false) : checked i s cs body = raiseFault .port (encode i) s := by
  simp [checked, runChecks, h]

/-- On a port with the right the command's own checks decide. -/
theorem checked_of_right (i : Instr) (s : State) (cs : List (Bool × FaultKind)) (body : StepResult)
    (h : portMay s.port i = true) : checked i s cs body = runChecks (encode i) s body cs := by
  simp [checked, runChecks, h]

/-- On a port with the right, with every check passed, the command's rule runs. -/
theorem checked_of_good (i : Instr) (s : State) (cs : List (Bool × FaultKind)) (body : StepResult)
    (h : portMay s.port i = true) (hc : ∀ c ∈ cs, c.1 = true) : checked i s cs body = body := by
  rw [checked_of_right i s cs body h]
  rcases runChecks_cases (encode i) s body cs with ⟨_, hb⟩ | ⟨k, hk, _⟩
  · exact hb
  · exact absurd (hc _ hk) (by simp)

/-- Everything a checked command can do. -/
theorem checked_cases (i : Instr) (s : State) (cs : List (Bool × FaultKind)) (body : StepResult) :
    (portMay s.port i = true ∧ (∀ c ∈ cs, c.1 = true) ∧ checked i s cs body = body) ∨
      (portMay s.port i = false ∧ checked i s cs body = raiseFault .port (encode i) s) ∨
      ∃ k, portMay s.port i = true ∧ (false, k) ∈ cs ∧ checked i s cs body = raiseFault k (encode i) s := by
  cases h : portMay s.port i with
  | false => exact .inr (.inl ⟨rfl, checked_of_port i s cs body h⟩)
  | true =>
    rw [checked_of_right i s cs body h]
    rcases runChecks_cases (encode i) s body cs with ⟨hall, hb⟩ | ⟨k, hk, hb⟩
    · exact .inl ⟨rfl, hall, hb⟩
    · exact .inr (.inr ⟨k, rfl, hk, hb⟩)

/-- The answered state: the port's answer and nothing else. -/
theorem answer_eq (st : Status) (d : Data) (s : State) :
    answer st d s = .next (s.respond (.result (resultWord st d))) := rfl

/-- A raised fault is a next state: the fault is taken and the result is the status and 28 zero bits (R302). -/
theorem raiseFault_eq (k : FaultKind) (w : Word) (s : State) :
    raiseFault k w s = .next ((s.takeFault k w).respond (.result (resultWord (faultStatus k) 0))) := rfl

/-- The status field of a result word (R93). -/
@[simp] theorem resultWord_status (st : Status) (d : Data) : (resultWord st d).extractLsb' 28 4 = statusCode st := by
  apply BitVec.eq_of_getLsbD_eq
  intro j hj
  simp only [resultWord, BitVec.getLsbD_extractLsb', BitVec.getLsbD_append, hj, decide_true, Bool.true_and]
  rw [if_neg (by omega), Nat.add_sub_cancel_left]

/-- The DATA field of a result word (R93). -/
@[simp] theorem resultWord_data (st : Status) (d : Data) : (resultWord st d).extractLsb' 0 28 = d := by
  apply BitVec.eq_of_getLsbD_eq
  intro j hj
  simp only [resultWord, BitVec.getLsbD_extractLsb', BitVec.getLsbD_append, hj, decide_true, Bool.true_and]
  rw [if_pos (by omega), Nat.zero_add]

/-- The bits of a register after one is written. -/
theorem setBit_bit (r : BitVec 8) (i : Nat) (b : Bool) (j : Nat) (hi : i < 8) :
    (setBit r i b).getLsbD j = if j = i then b else r.getLsbD j := by
  have hone : (1#8 <<< i).getLsbD j = decide (j = i) := by
    rw [BitVec.getLsbD_shiftLeft, BitVec.getLsbD_one]
    by_cases h : j = i <;> simp [h]
    · exact hi
    · omega
  by_cases hj : j < 8
  · cases b
    · rw [setBit, if_neg Bool.false_ne_true, BitVec.getLsbD_and, BitVec.getLsbD_not, hone]
      by_cases h : j = i <;> simp [h, hj]
    · rw [setBit, if_pos rfl, BitVec.getLsbD_or, hone]
      by_cases h : j = i <;> simp [h]
  · have h1 : j ≠ i := by omega
    simp [BitVec.getLsbD_of_ge _ _ (show 8 ≤ j by omega), h1]

/-- The bits of FAULT after a fault is taken (R302). -/
theorem takeFault_bit (s : State) (k : FaultKind) (w : Word) (j : Nat) :
    (s.takeFault k w).fault.getLsbD j =
      if j = faultBit k then true
      else if s.faultValid = false ∧ j = 7 then true
      else if s.faultValid = false ∧ j = 6 then s.port == .A
      else s.fault.getLsbD j := by
  have hk : faultBit k < 6 := by cases k <;> decide
  unfold State.takeFault
  cases s.faultValid
  · simp only [Bool.false_eq_true, if_false, true_and]
    rw [setBit_bit _ _ _ _ (by omega), setBit_bit _ _ _ _ (by omega), setBit_bit _ _ _ _ (by omega)]
    by_cases h6 : j = 6
    · rw [if_pos h6, if_neg (by omega), if_neg (by omega), if_pos h6]
    · by_cases h7 : j = 7
      · rw [if_neg h6, if_pos h7, if_neg (by omega), if_pos h7]
      · simp [h6, h7]
  · simp only [if_true, Bool.true_eq_false, false_and, if_false]
    rw [setBit_bit _ _ _ _ (by omega)]

/-! ### Slot-memory accesses -/

/-- Everything a read by a port can do: answer the byte the spec fixes, or any byte, using up one free value. -/
theorem portRead_cases (a : Addr) (s : State) :
    (∃ v, readable s s.port a = some v ∧ portRead a s = .next (s.respond (.readData v))) ∨
      (readable s s.port a = none ∧
        portRead a s =
          .next (({ s with draws := s.draws + 1 }).respond (.readData (Config.unspecifiedByte s.draws)))) := by
  unfold portRead
  cases h : readable s s.port a with
  | none => exact .inr ⟨rfl, rfl⟩
  | some v => exact .inl ⟨v, rfl, rfl⟩

/-- When the spec fixes the byte a port reads: an owned access inside slot memory to a byte no unowned write left open. -/
theorem readable_eq_some_iff (s : State) (p : Port) (a : Addr) (v : Byte) :
    readable s p a = some v ↔ inSlotMemory s.cfg a = true ∧ owns s p a = true ∧ slotByte s a = some v := by
  unfold readable
  cases inSlotMemory s.cfg a <;> cases owns s p a <;> simp

/-- The bytes of a slot, written out (R63). -/
theorem inSlot_iff (c : Config) (q : QueueId) (n : Nat) (a : Addr) :
    inSlot c q n a = true ↔ slotBase c q n ≤ a.toNat ∧ a.toNat < slotBase c q n + c.slotBytes := by
  rw [inSlot, Bool.and_eq_true, decide_eq_true_iff, decide_eq_true_iff]

/-- What owning a byte through a hold of queue `q` is: the port is a side of the queue that holds the slot the byte is in (R72). -/
theorem ownsIn_iff (s : State) (p : Port) (q : QueueId) (a : Addr) :
    ownsIn s p q a = true ↔
      (p = prod q ∧ (s.queue q).ph = .held ∧ inSlot s.cfg q (slotOf s.cfg q (s.queue q).wr) a = true) ∨
        (p = cons q ∧ (s.queue q).ch = .held ∧ inSlot s.cfg q (slotOf s.cfg q (s.queue q).rd) a = true) := by
  simp [ownsIn, and_assoc]

/-- Owning a byte is owning it through a hold of one of the queues. -/
theorem owns_iff (s : State) (p : Port) (a : Addr) : owns s p a = true ↔ ∃ q, ownsIn s p q a = true := by
  rw [owns, Bool.or_eq_true]
  exact ⟨fun h => h.elim (⟨.txq, ·⟩) (⟨.rxq, ·⟩), fun ⟨q, h⟩ => match q with | .txq => .inl h | .rxq => .inr h⟩

/-- Ownership is read from the configuration and the queues alone. -/
theorem owns_congr {s t : State} (hc : t.cfg = s.cfg) (hq : ∀ q, t.queue q = s.queue q) (p : Port) (a : Addr) :
    owns t p a = owns s p a := by
  simp only [owns, ownsIn, hc, hq]

/-! ### The next request -/

/-- Which port goes next: none when none presents, else one that presents (R310). -/
theorem nextPort_cases (s : State) :
    (nextPort s = none ∧ s.reqI = [] ∧ s.reqA = []) ∨ ∃ p, nextPort s = some p ∧ s.requests p ≠ [] := by
  unfold nextPort
  split <;> rename_i h₁ h₂
  · exact .inl ⟨rfl, h₁, h₂⟩
  · exact .inr ⟨.I, rfl, by simp [State.requests, h₁]⟩
  · exact .inr ⟨.A, rfl, by simp [State.requests, h₂]⟩
  · split
    · exact .inr ⟨.A, rfl, by simp [State.requests, h₂]⟩
    · exact .inr ⟨.I, rfl, by simp [State.requests, h₁]⟩

/-- Everything the fetch can do: nothing is presented, or one port's oldest request is taken and that port is granted. -/
theorem fetch_cases (s : State) :
    (fetch s = none ∧ s.reqI = [] ∧ s.reqA = []) ∨
      ∃ p r, nextPort s = some p ∧ (s.requests p).head? = some r ∧ fetch s = some (r, s.grant p) := by
  unfold fetch
  rcases nextPort_cases s with ⟨h, hi, ha⟩ | ⟨p, h, hne⟩
  · exact .inl ⟨by rw [h], hi, ha⟩
  · obtain ⟨r, rest, hr⟩ := List.exists_cons_of_ne_nil hne
    exact .inr ⟨p, r, h, by simp [hr], by rw [h]; simp [hr]⟩

/-! ### The queue's count -/

/-- With legal indices the count is a natural-number remainder (R33). -/
theorem queueCount_eq (c : Config) (q : QueueId) (v : Queue) (hr : v.rd.toNat < 2 * c.cap q) :
    queueCount c q v = (v.wr.toNat + (2 * c.cap q - v.rd.toNat)) % (2 * c.cap q) := by
  unfold queueCount
  rw [← Int.add_emod_right]
  rw [show ((v.wr.toNat : Int) - v.rd.toNat + (2 * c.cap q : Nat)) =
    ((v.wr.toNat + (2 * c.cap q - v.rd.toNat) : Nat) : Int) by omega]
  rw [← Int.natCast_emod, Int.toNat_natCast]

/-- With legal indices the count is their distance going up, around the end if need be. -/
theorem queueCount_legal (c : Config) (q : QueueId) (v : Queue) (hr : v.rd.toNat < 2 * c.cap q)
    (hw : v.wr.toNat < 2 * c.cap q) :
    queueCount c q v =
      if v.rd.toNat ≤ v.wr.toNat then v.wr.toNat - v.rd.toNat else v.wr.toNat + 2 * c.cap q - v.rd.toNat := by
  rw [queueCount_eq c q v hr]
  split
  · rw [show v.wr.toNat + (2 * c.cap q - v.rd.toNat) = v.wr.toNat - v.rd.toNat + 2 * c.cap q by omega,
      Nat.add_mod_right, Nat.mod_eq_of_lt (by omega)]
  · rw [Nat.mod_eq_of_lt (by omega)]; omega

/-- The next index, for a capacity that keeps `2*CAP` in 8 bits (R2, D15). -/
theorem indexNext_toNat (c : Config) (q : QueueId) (x : BitVec 8) (hc : c.cap q ≤ 127) (hx : x.toNat < 2 * c.cap q) :
    (indexNext c q x).toNat = if x.toNat + 1 = 2 * c.cap q then 0 else x.toNat + 1 := by
  rw [indexNext, BitVec.toNat_ofNat]
  split
  · rw [‹x.toNat + 1 = _›, Nat.mod_self]
  · rw [Nat.mod_eq_of_lt (show x.toNat + 1 < 2 * c.cap q by omega), Nat.mod_eq_of_lt (by omega)]

/-! ### Legal ranges -/

/-- A legal increment, written out (R3). -/
theorem hopLegal_iff (h : BitVec 5) : hopLegal h = true ↔ 5 ≤ h.toNat ∧ h.toNat ≤ 16 := by
  rw [hopLegal, Bool.and_eq_true, decide_eq_true_eq, decide_eq_true_eq]; rfl

/-- A legal unmapped channel, written out (R3). -/
theorem channelLegal_iff (c : BitVec 6) : channelLegal c = true ↔ c.toNat ≤ 36 := by
  rw [channelLegal, decide_eq_true_eq]; exact Nat.lt_succ_iff

/-- A header that is not malformed, written out. -/
theorem headerLegal_iff (c : Config) (llid : BitVec 2) (len : Byte) :
    headerLegal c llid len = true ↔ llid ≠ 0 ∧ len.toNat ≤ c.maxPayload := by
  rw [headerLegal, Bool.and_eq_true, decide_eq_true_eq, decide_eq_true_eq]

/-- CONFIGURED, written out (R42, R43). -/
theorem hopConfigured_iff (s : State) :
    hopConfigured s = true ↔ (5 ≤ s.hopH.toNat ∧ s.hopH.toNat ≤ 16) ∧ 2 ≤ popcount s.hopMap := by
  rw [hopConfigured, Bool.and_eq_true, decide_eq_true_eq, hopLegal_iff]; rfl

/-- A legal capacity, written out (R2). -/
theorem capOk_iff (c : Config) (q : QueueId) : c.capOk q = true ↔ 1 ≤ c.cap q ∧ c.cap q ≤ 127 := by
  rw [Config.capOk, Bool.and_eq_true, decide_eq_true_eq, decide_eq_true_eq]

/-- A slot-memory range inside the buffer space, written out (R2). -/
theorem fits_iff (c : Config) (q : QueueId) : c.fits q = true ↔ c.qbase q + c.cap q * c.slotBytes ≤ 2 ^ 24 := by
  rw [Config.fits, decide_eq_true_eq]; rfl

/-- A well-formed configuration has legal capacities and slots of at least 5 bytes. -/
theorem cap_of_wellFormed {c : Config} (h : c.wellFormed = true) (q : QueueId) : 1 ≤ c.cap q ∧ c.cap q ≤ 127 := by
  simp only [Config.wellFormed, Bool.and_eq_true] at h
  cases q
  · exact (capOk_iff c .txq).mp h.1.1.1.1.1.1
  · exact (capOk_iff c .rxq).mp h.1.1.1.1.1.2

/-! ### Channels -/

/-- The used channels are the channels below 37 whose bit is 1 (R205). -/
theorem mem_usedChannels (m : ChanMap) (k : Nat) : k ∈ usedChannels m ↔ k < 37 ∧ m.getLsbD k = true := by
  simp [usedChannels, Config.nch]

end Sys2Proof.Machine
end

