-- ==== Sys2Proof/Laws/Step.lean ====
section
/-! SUPPORT. What one step can do, said once. -/

namespace Sys2Proof.Machine

/-- Everything serving one request can do: run the decoded command, fault an illegal word, or make one slot-memory access. -/
theorem serve_cases (r : Request) (s : State) :
    (∃ w i, r = .command w ∧ decode w = .ok i ∧ serve r s = exec i s) ∨
      (∃ w e, r = .command w ∧ decode w = .error e ∧ serve r s = raiseFault .illegal w s) ∨
      (∃ a, r = .memRead a ∧ serve r s = portRead a s) ∨
      ∃ a v, r = .memWrite a v ∧ serve r s = portWrite a v s := by
  cases r with
  | command w =>
    cases h : decode w with
    | ok i => exact .inl ⟨w, i, rfl, h, by simp [serve, h]⟩
    | error e => exact .inr (.inl ⟨w, e, rfl, h, by simp [serve, h, illegalCommand]⟩)
  | memRead a => exact .inr (.inr (.inl ⟨a, rfl, rfl⟩))
  | memWrite a v => exact .inr (.inr (.inr ⟨a, v, rfl, rfl⟩))

/-- Everything one step can do: refuse an ill-formed configuration, apply reset, wait, or serve one port's oldest request. -/
theorem step_cases (s : State) :
    (s.cfg.wellFormed = false ∧ step s = .refused .illFormedConfig) ∨
      (s.cfg.wellFormed = true ∧ s.resetIn = true ∧ step s = .next s.applyReset) ∨
      (s.cfg.wellFormed = true ∧ s.resetIn = false ∧ s.reqI = [] ∧ s.reqA = [] ∧ step s = .next s) ∨
      (s.cfg.wellFormed = true ∧ s.resetIn = false ∧
        ∃ p r, nextPort s = some p ∧ (s.requests p).head? = some r ∧ step s = serve r (s.grant p)) := by
  unfold step
  cases s.cfg.wellFormed
  · exact .inl ⟨rfl, rfl⟩
  · cases s.resetIn
    · rcases fetch_cases s with ⟨h, hi, ha⟩ | ⟨p, r, hp, hr, h⟩
      · exact .inr (.inr (.inl ⟨rfl, rfl, hi, ha, by simp [h]⟩))
      · exact .inr (.inr (.inr ⟨rfl, rfl, p, r, hp, hr, by simp [h]⟩))
    · exact .inr (.inl ⟨rfl, rfl, rfl⟩)

end Sys2Proof.Machine
end

