-- ==== Sys2Proof/Laws/Exec.lean ====
section
/-! SUPPORT. What any command can do, said once for all 27: take one of its faults, or answer a normal status and leave its effect,
which differs from the state before in unit registers only. -/

namespace Sys2Proof.Machine

/-- `u` differs from `s` in the registers of the CRC, QUEUE, HOP and ARQ units only: FAULT, FCMD, slot memory, the configuration and
the ports are the same. -/
def UnitsOnly (s u : State) : Prop :=
  u = { s with
    crc := u.crc, cnt := u.cnt, hdr0 := u.hdr0, hdr1 := u.hdr1, txq := u.txq, rxq := u.rxq
    hopMap := u.hopMap, hopStg := u.hopStg, hopH := u.hopH, hopSh := u.hopSh, hopUnm := u.hopUnm, hopChan := u.hopChan
    arqSn := u.arqSn, arqNesn := u.arqNesn }

/-- A status of R94 that is no fault. -/
def Status.isNormal : Status → Bool
  | .ok | .full | .empty | .stale => true
  | _ => false

theorem UnitsOnly.refl (s : State) : UnitsOnly s s := rfl

/-! ### The checks and the effect of every command -/

/-- A queue after PQ.ACQ answered its producer (R172). -/
def producerAcquired (c : Config) (q : QueueId) (v : Queue) : Queue :=
  if v.ph = .held then v else if queueFull c q v then v else { v with ph := .held }

/-- A queue after PQ.COMMIT answered its producer (R173). -/
def producerDone (c : Config) (q : QueueId) (v : Queue) : Queue :=
  if v.ph = .stale then { v with ph := .noHold } else queueCommitted c q v

/-- A queue after CQ.ACQ answered its consumer (R174). -/
def consumerAcquired (c : Config) (q : QueueId) (v : Queue) : Queue :=
  if v.ch = .held then v else if queueEmpty c q v then v else { v with ch := .held }

/-- A queue after CQ.REL answered its consumer (R177). -/
def consumerDone (c : Config) (q : QueueId) (v : Queue) : Queue :=
  if v.ch = .stale then { v with ch := .noHold } else queueReleased c q v

@[simp] theorem producerAcquired_rd (c : Config) (q : QueueId) (v : Queue) : (producerAcquired c q v).rd = v.rd := by
  unfold producerAcquired
  split
  · rfl
  · split <;> rfl

@[simp] theorem producerAcquired_wr (c : Config) (q : QueueId) (v : Queue) : (producerAcquired c q v).wr = v.wr := by
  unfold producerAcquired
  split
  · rfl
  · split <;> rfl

@[simp] theorem producerAcquired_ch (c : Config) (q : QueueId) (v : Queue) : (producerAcquired c q v).ch = v.ch := by
  unfold producerAcquired
  split
  · rfl
  · split <;> rfl

@[simp] theorem consumerAcquired_rd (c : Config) (q : QueueId) (v : Queue) : (consumerAcquired c q v).rd = v.rd := by
  unfold consumerAcquired
  split
  · rfl
  · split <;> rfl

@[simp] theorem consumerAcquired_wr (c : Config) (q : QueueId) (v : Queue) : (consumerAcquired c q v).wr = v.wr := by
  unfold consumerAcquired
  split
  · rfl
  · split <;> rfl

@[simp] theorem consumerAcquired_ph (c : Config) (q : QueueId) (v : Queue) : (consumerAcquired c q v).ph = v.ph := by
  unfold consumerAcquired
  split
  · rfl
  · split <;> rfl

@[simp] theorem producerDone_rd (c : Config) (q : QueueId) (v : Queue) : (producerDone c q v).rd = v.rd := by
  unfold producerDone
  split <;> rfl

@[simp] theorem producerDone_ch (c : Config) (q : QueueId) (v : Queue) : (producerDone c q v).ch = v.ch := by
  unfold producerDone
  split <;> rfl

@[simp] theorem consumerDone_wr (c : Config) (q : QueueId) (v : Queue) : (consumerDone c q v).wr = v.wr := by
  unfold consumerDone
  split <;> rfl

@[simp] theorem consumerDone_ph (c : Config) (q : QueueId) (v : Queue) : (consumerDone c q v).ph = v.ph := by
  unfold consumerDone
  split <;> rfl

/-- The checks a command makes after its port check, in order. -/
def checksOf (s : State) : Instr → List (Bool × FaultKind)
  | .crcTxb k => [(crcByteIndexLegal k, .range)]
  | .pqCommit q => [(decide ((s.queue q).ph ≠ .noHold), .seq)]
  | .cqRel q => [(decide ((s.queue q).ch ≠ .noHold), .seq)]
  | .hopSethop h => [(hopLegal h, .range)]
  | .hopCommit am ah =>
    [(!ah || hopLegal s.hopSh, .range), (!am || decide (Config.minUsed ≤ popcount s.hopStg), .map)]
  | .hopSetunm c => [(channelLegal c, .range)]
  | .hopNext => [(hopConfigured s, .unconf)]
  | .arqTxhdr llid _ len => [(headerLegal s.cfg llid len, .range)]
  | _ => []

/-- The state a command leaves, but for the port's answer, when its checks pass. -/
def effectOf (s : State) : Instr → State
  | .crcInit iv => { s with crc := iv, cnt := 0, hdr0 := 0x00, hdr1 := 0x00 }
  | .crcFeed b =>
    { s with
      crc := crcByte s.crc b
      cnt := cntNext s.cnt
      hdr0 := if s.cnt = 0 then b else s.hdr0
      hdr1 := if s.cnt = 1 then b else s.hdr1 }
  | .pqAcq q => s.setQueue q (producerAcquired s.cfg q (s.queue q))
  | .pqCommit q => s.setQueue q (producerDone s.cfg q (s.queue q))
  | .cqAcq q => s.setQueue q (consumerAcquired s.cfg q (s.queue q))
  | .cqRel q => s.setQueue q (consumerDone s.cfg q (s.queue q))
  | .qFlush q =>
    s.setQueue q { rd := 0, wr := 0, ph := holdFlushed (s.queue q).ph, ch := holdFlushed (s.queue q).ch }
  | .hopSethop h => { s with hopSh := h }
  | .hopStglo m => { s with hopStg := s.hopStg.extractLsb' 24 13 ++ m }
  | .hopStghi m => { s with hopStg := m ++ s.hopStg.extractLsb' 0 24 }
  | .hopCommit am ah => { s with hopMap := commitMap am s, hopH := commitH ah s }
  | .hopSetunm c => { s with hopUnm := c }
  | .hopNext =>
    { s with
      hopUnm := BitVec.ofNat 6 (hopUnmapped s.hopUnm s.hopH)
      hopChan := BitVec.ofNat 6 (hopChannel (hopUnmapped s.hopUnm s.hopH) s.hopMap) }
  | .arqReset => { s with arqSn := false, arqNesn := false }
  | .arqRx accept =>
    { s with arqSn := rxSnNext s (crcPacket accept s), arqNesn := rxNesnNext s (crcPacket accept s) }
  | .arqRxx h0 h1 crcv accept =>
    { s with
      arqSn := rxSnNext s { h0 := h0, h1 := h1, crcOk := crcv, lenOk := true, accept := accept }
      arqNesn := rxNesnNext s { h0 := h0, h1 := h1, crcOk := crcv, lenOk := true, accept := accept } }
  | .sysNop | .sysRdfault | .sysRdfcmd _ | .crcRead | .crcStat | .crcTxb _ | .qStat _ _ | .hopRead | .hopRdmap _
  | .arqTxhdr _ _ _ | .arqRead => s

/-- PQ.ACQ is its port check and then a normal status with its effect. -/
theorem execPqAcq_eq (q : QueueId) (s : State) : ∃ st d, st.isNormal = true ∧
    execPqAcq q s = checked (.pqAcq q) s [] (answer st d (s.setQueue q (producerAcquired s.cfg q (s.queue q)))) := by
  unfold execPqAcq producerAcquired
  split
  · exact ⟨.ok, _, rfl, by rw [State.setQueue_queue_eq]⟩
  · split
    · exact ⟨.full, _, rfl, by rw [State.setQueue_queue_eq]⟩
    · exact ⟨.ok, _, rfl, rfl⟩

/-- CQ.ACQ is its port check and then a normal status with its effect. -/
theorem execCqAcq_eq (q : QueueId) (s : State) : ∃ st d, st.isNormal = true ∧
    execCqAcq q s = checked (.cqAcq q) s [] (answer st d (s.setQueue q (consumerAcquired s.cfg q (s.queue q)))) := by
  unfold execCqAcq consumerAcquired
  split
  · exact ⟨.ok, _, rfl, by rw [State.setQueue_queue_eq]⟩
  · split
    · exact ⟨.empty, _, rfl, by rw [State.setQueue_queue_eq]⟩
    · exact ⟨.ok, _, rfl, rfl⟩

/-- PQ.COMMIT is its checks and then a normal status with its effect. -/
theorem execPqCommit_eq (q : QueueId) (s : State) : ∃ st d, st.isNormal = true ∧
    execPqCommit q s = checked (.pqCommit q) s [(decide ((s.queue q).ph ≠ .noHold), .seq)]
      (answer st d (s.setQueue q (producerDone s.cfg q (s.queue q)))) := by
  unfold execPqCommit producerDone
  split
  · exact ⟨.stale, _, rfl, rfl⟩
  · exact ⟨.ok, _, rfl, rfl⟩

/-- CQ.REL is its checks and then a normal status with its effect. -/
theorem execCqRel_eq (q : QueueId) (s : State) : ∃ st d, st.isNormal = true ∧
    execCqRel q s = checked (.cqRel q) s [(decide ((s.queue q).ch ≠ .noHold), .seq)]
      (answer st d (s.setQueue q (consumerDone s.cfg q (s.queue q)))) := by
  unfold execCqRel consumerDone
  split
  · exact ⟨.stale, _, rfl, rfl⟩
  · exact ⟨.ok, _, rfl, rfl⟩

/-- Every command is its checks and then a normal status with its effect. -/
theorem exec_eq (i : Instr) (s : State) :
    ∃ st d, st.isNormal = true ∧ exec i s = checked i s (checksOf s i) (answer st d (effectOf s i)) := by
  cases i with
  | pqAcq q => exact execPqAcq_eq q s
  | cqAcq q => exact execCqAcq_eq q s
  | pqCommit q => exact execPqCommit_eq q s
  | cqRel q => exact execCqRel_eq q s
  | _ => exact ⟨.ok, _, rfl, rfl⟩

/-- An effect changes unit registers only. -/
theorem effectOf_unitsOnly (s : State) (i : Instr) : UnitsOnly s (effectOf s i) := by
  cases i <;> rfl

/-- Everything a command can do: take one of its faults, or, on a port with the right and with its checks passed, answer a normal
status and leave its effect. -/
theorem exec_cases (i : Instr) (s : State) :
    (∃ k, k ≠ .illegal ∧ exec i s = raiseFault k (encode i) s) ∨
      (portMay s.port i = true ∧ (∀ c ∈ checksOf s i, c.1 = true) ∧
        ∃ st d, st.isNormal = true ∧ exec i s = answer st d (effectOf s i)) := by
  obtain ⟨st, d, hn, he⟩ := exec_eq i s
  have hcs : ∀ c ∈ checksOf s i, c.2 ≠ .illegal := by cases i <;> simp [checksOf]
  rw [he]
  rcases checked_cases i s (checksOf s i) (answer st d (effectOf s i)) with ⟨hp, hc, h⟩ | ⟨_, h⟩ | ⟨k, _, hk, h⟩
  · exact .inr ⟨hp, hc, st, d, hn, h⟩
  · exact .inl ⟨.port, by simp, h⟩
  · exact .inl ⟨k, hcs _ hk, h⟩

/-- What no command changes. -/
theorem exec_frame {i : Instr} {s t : State} (h : exec i s = .next t) :
    t.cfg = s.cfg ∧ t.mem = s.mem ∧ t.racy = s.racy ∧ t.resetIn = s.resetIn ∧ t.reqI = s.reqI ∧ t.reqA = s.reqA ∧
      t.port = s.port ∧ t.draws = s.draws ∧ t.resets = s.resets := by
  rcases exec_cases i s with ⟨k, _, h'⟩ | ⟨_, _, st, d, _, h'⟩
  · rw [h'] at h
    injection h with h
    subst h
    exact ⟨rfl, rfl, rfl, rfl, rfl, rfl, rfl, rfl, rfl⟩
  · rw [h'] at h
    injection h with h
    subst h
    have hu := effectOf_unitsOnly s i
    rw [UnitsOnly] at hu
    rw [hu]
    exact ⟨rfl, rfl, rfl, rfl, rfl, rfl, rfl, rfl, rfl⟩

end Sys2Proof.Machine
end

