-- ==== Sys2Proof/Laws/PerInstr.lean ====
section
/-! SUPPORT. Statements about every command, one lemma for each constructor. -/

namespace Sys2Proof.Laws

/-- The encoded command selects a row of R97, and that row's operand fields give the command back. -/
def RowMatch.Statement (i : Instr) : Prop :=
  ∃ r ∈ rows, r.selects (encode i) = true ∧ r.build (encode i) = i

/-- Two words are equal when they agree on each of the 32 bits. -/
theorem word_ext {v w : Word} (h : ∀ j < 32, v.getLsbD j = w.getLsbD j) : v = w :=
  BitVec.eq_of_getLsbD_eq fun j hj => h j hj

/-- A row selects a word when the word's bits under the mask are the pattern's. -/
theorem selects_of_bits {r : Row} {w : Word}
    (h : ∀ j < 32, (w.getLsbD j && r.mask.getLsbD j) = r.pattern.getLsbD j) : r.selects w = true := by
  rw [Row.selects, beq_iff_eq]
  exact word_ext fun j hj => by rw [BitVec.getLsbD_and, h j hj]

/-- The bits of a command word, by its fields (R91). -/
theorem commandWord_bit (unit op : BitVec 4) (arg : BitVec 24) (j : Nat) :
    (commandWord unit op arg).getLsbD j =
      if j < 24 then arg.getLsbD j else if j - 24 < 4 then op.getLsbD (j - 24) else unit.getLsbD (j - 24 - 4) := by
  simp only [commandWord, BitVec.getLsbD_append]

/-- A field is known by its bits. -/
theorem field_eq_of_bits {w : Word} {lo n : Nat} {x : BitVec n} (h : ∀ j < n, w.getLsbD (lo + j) = x.getLsbD j) :
    field w lo n = x :=
  BitVec.eq_of_getLsbD_eq fun j hj => by simp [field, hj, h j hj]

/-- The bits of a one-bit operand's ARG. -/
theorem argBit_bit (b : Bool) (lo j : Nat) :
    (argBit b lo).getLsbD j = (decide (j < 24) && !decide (j < lo) && (decide (j - lo < 24) && (decide (j - lo = 0) && b))) := by
  simp [argBit, BitVec.getLsbD_shiftLeft, BitVec.getLsbD_setWidth, BitVec.getLsbD_ofBool]

theorem RowMatch.sysNop : RowMatch.Statement (.sysNop) := by
  exact ⟨rows[0], List.getElem_mem _, by decide, rfl⟩

theorem RowMatch.sysRdfault : RowMatch.Statement (.sysRdfault) := by
  exact ⟨rows[1], List.getElem_mem _, by decide, rfl⟩

theorem RowMatch.sysRdfcmd (half : Bool) : RowMatch.Statement (.sysRdfcmd half) := by
  refine ⟨rows[2], List.getElem_mem _, ?_, ?_⟩ <;> cases half <;> decide

theorem RowMatch.crcInit (iv : BitVec 24) : RowMatch.Statement (.crcInit iv) := by
  refine ⟨rows[3], List.getElem_mem _, selects_of_bits fun j hj => ?_, ?_⟩
  · simp only [encode, commandWord_bit]
    interval_cases j <;> simp [rows, sysRows, crcRows, queueRows, hopRows, arqRows]
  · refine congrArg Instr.crcInit (field_eq_of_bits fun j hj => ?_)
    simp only [encode, commandWord_bit]
    interval_cases j <;> simp

theorem RowMatch.crcFeed (b : Byte) : RowMatch.Statement (.crcFeed b) := by
  refine ⟨rows[4], List.getElem_mem _, selects_of_bits fun j hj => ?_, ?_⟩
  · simp only [encode, commandWord_bit, BitVec.getLsbD_setWidth]
    interval_cases j <;> simp [rows, sysRows, crcRows, queueRows, hopRows, arqRows]
  · refine congrArg Instr.crcFeed (field_eq_of_bits fun j hj => ?_)
    simp only [encode, commandWord_bit, BitVec.getLsbD_setWidth]
    interval_cases j <;> simp

theorem RowMatch.crcRead : RowMatch.Statement (.crcRead) := by
  exact ⟨rows[5], List.getElem_mem _, by decide, rfl⟩

theorem RowMatch.crcStat : RowMatch.Statement (.crcStat) := by
  exact ⟨rows[6], List.getElem_mem _, by decide, rfl⟩

theorem RowMatch.crcTxb (k : BitVec 2) : RowMatch.Statement (.crcTxb k) := by
  refine ⟨rows[7], List.getElem_mem _, ?_, ?_⟩ <;> (revert k; decide)

theorem RowMatch.pqAcq (q : QueueId) : RowMatch.Statement (.pqAcq q) := by
  refine ⟨rows[8], List.getElem_mem _, ?_, ?_⟩ <;> cases q <;> decide

theorem RowMatch.pqCommit (q : QueueId) : RowMatch.Statement (.pqCommit q) := by
  refine ⟨rows[9], List.getElem_mem _, ?_, ?_⟩ <;> cases q <;> decide

theorem RowMatch.cqAcq (q : QueueId) : RowMatch.Statement (.cqAcq q) := by
  refine ⟨rows[10], List.getElem_mem _, ?_, ?_⟩ <;> cases q <;> decide

theorem RowMatch.cqRel (q : QueueId) : RowMatch.Statement (.cqRel q) := by
  refine ⟨rows[11], List.getElem_mem _, ?_, ?_⟩ <;> cases q <;> decide

theorem RowMatch.qStat (q : QueueId) (sel : Bool) : RowMatch.Statement (.qStat q sel) := by
  refine ⟨rows[12], List.getElem_mem _, ?_, ?_⟩ <;> cases q <;> cases sel <;> decide

theorem RowMatch.qFlush (q : QueueId) : RowMatch.Statement (.qFlush q) := by
  refine ⟨rows[13], List.getElem_mem _, ?_, ?_⟩ <;> cases q <;> decide

theorem RowMatch.hopSethop (h : BitVec 5) : RowMatch.Statement (.hopSethop h) := by
  refine ⟨rows[14], List.getElem_mem _, ?_, ?_⟩ <;> (revert h; decide)

theorem RowMatch.hopStglo (m : BitVec 24) : RowMatch.Statement (.hopStglo m) := by
  refine ⟨rows[15], List.getElem_mem _, selects_of_bits fun j hj => ?_, ?_⟩
  · simp only [encode, commandWord_bit]
    interval_cases j <;> simp [rows, sysRows, crcRows, queueRows, hopRows, arqRows]
  · refine congrArg Instr.hopStglo (field_eq_of_bits fun j hj => ?_)
    simp only [encode, commandWord_bit]
    interval_cases j <;> simp

theorem RowMatch.hopStghi (m : BitVec 13) : RowMatch.Statement (.hopStghi m) := by
  refine ⟨rows[16], List.getElem_mem _, selects_of_bits fun j hj => ?_, ?_⟩
  · simp only [encode, commandWord_bit, BitVec.getLsbD_setWidth]
    interval_cases j <;> simp [rows, sysRows, crcRows, queueRows, hopRows, arqRows]
  · refine congrArg Instr.hopStghi (field_eq_of_bits fun j hj => ?_)
    simp only [encode, commandWord_bit, BitVec.getLsbD_setWidth]
    interval_cases j <;> simp

theorem RowMatch.hopCommit (am : Bool) (ah : Bool) : RowMatch.Statement (.hopCommit am ah) := by
  refine ⟨rows[17], List.getElem_mem _, ?_, ?_⟩ <;> cases am <;> cases ah <;> decide

theorem RowMatch.hopSetunm (c : BitVec 6) : RowMatch.Statement (.hopSetunm c) := by
  refine ⟨rows[18], List.getElem_mem _, ?_, ?_⟩ <;> (revert c; decide)

theorem RowMatch.hopNext : RowMatch.Statement (.hopNext) := by
  exact ⟨rows[19], List.getElem_mem _, by decide, rfl⟩

theorem RowMatch.hopRead : RowMatch.Statement (.hopRead) := by
  exact ⟨rows[20], List.getElem_mem _, by decide, rfl⟩

theorem RowMatch.hopRdmap (sel : BitVec 2) : RowMatch.Statement (.hopRdmap sel) := by
  refine ⟨rows[21], List.getElem_mem _, ?_, ?_⟩ <;> (revert sel; decide)

theorem RowMatch.arqReset : RowMatch.Statement (.arqReset) := by
  exact ⟨rows[22], List.getElem_mem _, by decide, rfl⟩

theorem RowMatch.arqRx (accept : Bool) : RowMatch.Statement (.arqRx accept) := by
  refine ⟨rows[23], List.getElem_mem _, ?_, ?_⟩ <;> cases accept <;> decide

theorem RowMatch.arqRxx (h0 : Byte) (h1 : Byte) (crcv : Bool) (accept : Bool) : RowMatch.Statement (.arqRxx h0 h1 crcv accept) := by
  refine ⟨rows[24], List.getElem_mem _, selects_of_bits fun j hj => ?_, ?_⟩
  · simp only [encode, commandWord_bit, argBit_bit, BitVec.getLsbD_or, BitVec.getLsbD_shiftLeft, BitVec.getLsbD_setWidth]
    interval_cases j <;> simp [rows, sysRows, crcRows, queueRows, hopRows, arqRows]
  · refine (Instr.arqRxx.injEq ..).mpr ⟨field_eq_of_bits fun j hj => ?_, field_eq_of_bits fun j hj => ?_, ?_, ?_⟩ <;>
      simp only [encode, commandWord_bit, argBit_bit, BitVec.getLsbD_or, BitVec.getLsbD_shiftLeft, BitVec.getLsbD_setWidth]
    · interval_cases j <;> simp
    · interval_cases j <;> simp
    · simp
    · simp

theorem RowMatch.arqTxhdr (llid : BitVec 2) (md : Bool) (len : Byte) : RowMatch.Statement (.arqTxhdr llid md len) := by
  refine ⟨rows[25], List.getElem_mem _, selects_of_bits fun j hj => ?_, ?_⟩
  · simp only [encode, commandWord_bit, argBit_bit, BitVec.getLsbD_or, BitVec.getLsbD_shiftLeft, BitVec.getLsbD_setWidth]
    interval_cases j <;> simp [rows, sysRows, crcRows, queueRows, hopRows, arqRows]
  · refine (Instr.arqTxhdr.injEq ..).mpr ⟨field_eq_of_bits fun j hj => ?_, ?_, field_eq_of_bits fun j hj => ?_⟩ <;>
      simp only [encode, commandWord_bit, argBit_bit, BitVec.getLsbD_or, BitVec.getLsbD_shiftLeft, BitVec.getLsbD_setWidth]
    · interval_cases j <;> simp
    · simp
    · interval_cases j <;> simp

theorem RowMatch.arqRead : RowMatch.Statement (.arqRead) := by
  exact ⟨rows[26], List.getElem_mem _, by decide, rfl⟩

end Sys2Proof.Laws
end

