-- ==== Sys2Proof/Laws/Safety.lean ====
section
/-! SUPPORT. What the notions of Safety.lean follow from: a fault taken, a command completed, a result word with its low bits, and
what serving one request leaves alone. -/

namespace Sys2Proof.Machine

/-- A raised fault is R302, written out. -/
theorem raiseFault_taken (k : FaultKind) (w : Word) (s t : State) (h : raiseFault k w s = .next t) :
    FaultTaken (faultBit k) (statusCode (faultStatus k)) w s t := by
  rw [raiseFault_eq] at h
  injection h with h
  subst h
  refine ⟨?_, rfl, State.respond_response_self _ _, ?_, rfl⟩
  · intro j
    rw [State.respond_fault, takeFault_bit]
    simp only [State.faultValid]
    cases s.port <;> rfl
  · have h2 := State.respond_response_other (s.takeFault k w) (.result (resultWord (faultStatus k) 0))
    rw [State.takeFault_port] at h2
    rw [h2]
    cases s.port <;> rfl

/-- A command that raises a fault ends in that fault. -/
theorem faultsWith_of_raise {i : Instr} {s : State} {k : FaultKind} (h : exec i s = raiseFault k (encode i) s) :
    FaultsWith i s (faultBit k) (statusCode (faultStatus k)) :=
  ⟨_, h, raiseFault_taken k _ _ _ rfl⟩

/-- A command issued on a port without the right is EPORT (R303). -/
theorem faultsPort_of_no_right {i : Instr} {s : State} (h : portMay s.port i = false) : FaultsPort i s := by
  obtain ⟨st, d, _, he⟩ := exec_eq i s
  exact faultsWith_of_raise (k := .port) (he.trans (checked_of_port _ _ _ _ h))

/-- A command on a port with the right, with its checks passed, completes. -/
theorem completes_of_checks {i : Instr} {s u : State} {st : Status} {d : Data} {fields : Word → Prop}
    {cs : List (Bool × FaultKind)} (he : exec i s = checked i s cs (answer st d u)) (hp : portMay s.port i = true)
    (hc : ∀ c ∈ cs, c.1 = true) (hf : fields (resultWord st d)) : Completes i s u fields :=
  ⟨_, he.trans (checked_of_good _ _ _ _ hp hc), hf⟩

/-- A value answered with status OK stands in the low bits of the result word. -/
theorem okLow_setWidth {n : Nat} (hn : n ≤ 28) (v : BitVec n) : OkLow n v (resultWord .ok (v.setWidth 28)) := by
  constructor <;> apply BitVec.eq_of_getLsbD_eq <;> intro j hj <;>
    simp only [resultWord, statusCode, BitVec.getLsbD_extractLsb', BitVec.getLsbD_append, BitVec.getLsbD_setWidth, hj,
      decide_true, Bool.true_and, Nat.zero_add]
  · simp [show j < 28 by omega]
  · by_cases h : n + j < 28 <;> simp [h]

/-- The status the executing port received, of an answered state. -/
theorem statusOf_respond (s u : State) (st : Status) (d : Data) (h : u.port = s.port) :
    statusOf s (u.respond (.result (resultWord st d))) = some (statusCode st) := by
  rw [statusOf, ← h, State.respond_response_self]
  simp

/-- A write by a port changes slot memory and its own answer only. -/
theorem portWrite_frame (a : Addr) (v : Byte) (s : State) :
    ∃ m l, portWrite a v s = .next (({ s with mem := m, racy := l }).respond .writeDone) := by
  obtain ⟨m, l, h⟩ := s.storeByte_frame a v
  exact ⟨m, l, by rw [portWrite, h]⟩

end Sys2Proof.Machine
end

