-- ==== Sys2Proof/Tests/Slice0.lean ====
section
/-! SUPPORT. Small tests of the model and the witnesses of the statements. Words are written out from 30_encoding.md R96, results from
95_test_vectors.md (the vector is named) or from the rule's own example. -/

open Sys2Proof Sys2Proof.Machine

namespace Sys2Proof.Tests

/-! ### Well-formedness: R2, one configuration for each check, refused -/

theorem test_wellFormed_vectors : Config.vectors.wellFormed = true := by decide

theorem test_wellFormed_no_tx_slot : { Config.vectors with capTx := 0 }.wellFormed = false := by decide

theorem test_wellFormed_too_many_tx_slots : { Config.vectors with capTx := 128 }.capOk .txq = false := by decide

theorem test_wellFormed_no_rx_slot : { Config.vectors with capRx := 0 }.wellFormed = false := by decide

theorem test_wellFormed_too_many_rx_slots : { Config.vectors with capRx := 128 }.capOk .rxq = false := by decide

theorem test_wellFormed_payload_too_large :
    { Config.vectors with maxPayload := 256, slotBytes := 512, qbaseRx := 0x2000 }.wellFormed = false := by decide

theorem test_wellFormed_slot_too_small : { Config.vectors with slotBytes := 31 }.wellFormed = false := by decide

theorem test_wellFormed_slot_just_fits : { Config.vectors with slotBytes := 32 }.wellFormed = true := by decide

theorem test_wellFormed_tx_past_the_end : { Config.vectors with qbaseTx := 0xFFFF81 }.wellFormed = false := by decide

theorem test_wellFormed_tx_at_the_end : { Config.vectors with qbaseTx := 0xFFFF80 }.wellFormed = true := by decide

theorem test_wellFormed_rx_past_the_end : { Config.vectors with qbaseRx := 0xFFFF41 }.wellFormed = false := by decide

theorem test_wellFormed_overlap : { Config.vectors with qbaseRx := 0x17F }.wellFormed = false := by decide

theorem test_wellFormed_adjacent : { Config.vectors with qbaseRx := 0x180 }.wellFormed = true := by decide

theorem test_ill_formed_refused :
    step { State.reset with cfg := { Config.vectors with capTx := 0 } } = .refused .illFormedConfig := by rfl

/-! ### Decoding: a word of every row, from R96 -/

theorem test_decode_sys :
    decode 0x00000000 = .ok .sysNop ∧ decode 0x01000000 = .ok .sysRdfault ∧ decode 0x02000000 = .ok (.sysRdfcmd false) ∧
    decode 0x02000001 = .ok (.sysRdfcmd true) := by decide

theorem test_decode_crc :
    decode 0x10123456 = .ok (.crcInit 0x123456) ∧ decode 0x1100000E = .ok (.crcFeed 0x0E) ∧ decode 0x12000000 = .ok .crcRead ∧
    decode 0x13000000 = .ok .crcStat ∧ decode 0x14000002 = .ok (.crcTxb 2) ∧ decode 0x14000003 = .ok (.crcTxb 3) := by decide

theorem test_decode_queue :
    decode 0x20000000 = .ok (.pqAcq .txq) ∧ decode 0x20100000 = .ok (.pqAcq .rxq) ∧ decode 0x21100000 = .ok (.pqCommit .rxq) ∧
    decode 0x22000000 = .ok (.cqAcq .txq) ∧ decode 0x23100000 = .ok (.cqRel .rxq) ∧
    decode 0x24100001 = .ok (.qStat .rxq true) ∧ decode 0x24000000 = .ok (.qStat .txq false) ∧
    decode 0x25100000 = .ok (.qFlush .rxq) := by decide

theorem test_decode_hop :
    decode 0x30000011 = .ok (.hopSethop 17) ∧ decode 0x31FFFFF0 = .ok (.hopStglo 0xFFFFF0) ∧
    decode 0x32001FFE = .ok (.hopStghi 0x1FFE) ∧ decode 0x33000001 = .ok (.hopCommit true false) ∧
    decode 0x33000002 = .ok (.hopCommit false true) ∧ decode 0x34000025 = .ok (.hopSetunm 37) ∧
    decode 0x35000000 = .ok .hopNext ∧ decode 0x36000000 = .ok .hopRead ∧ decode 0x37000002 = .ok (.hopRdmap 2) := by decide

theorem test_decode_arq :
    decode 0x40000000 = .ok .arqReset ∧ decode 0x41000001 = .ok (.arqRx true) ∧
    decode 0x42020506 = .ok (.arqRxx 0x06 0x05 false true) ∧ decode 0x4201050E = .ok (.arqRxx 0x0E 0x05 true false) ∧
    decode 0x43001B07 = .ok (.arqTxhdr 3 true 27) ∧ decode 0x44000000 = .ok .arqRead := by decide

/-- V-DEC-1, and an undefined OP of every unit (R98). -/
theorem test_decode_illegal :
    decode 0x02000002 = .error .reservedArg ∧ decode 0x20200000 = .error .reservedArg ∧
    decode 0x43010001 = .error .reservedArg ∧ decode 0x03000000 = .error .undefinedOp ∧
    decode 0x15000000 = .error .undefinedOp ∧ decode 0x26000000 = .error .undefinedOp ∧
    decode 0x38000000 = .error .undefinedOp ∧ decode 0x45000000 = .error .undefinedOp ∧
    decode 0x5A000000 = .error .reservedUnit ∧ decode 0xFFFFFFFF = .error .reservedUnit := by decide

theorem test_decodeTableWord :
    decodeTableWord 32 0x4203050E = some (.arqRxx 0x0E 0x05 true true) ∧ decodeTableWord 32 0x26000000 = none := by decide

/-- R100's own examples, with their numbers in decimal. -/
theorem test_asm :
    asm (.crcFeed 0x01) = "CRC.FEED 1" ∧ asm (.qStat .rxq true) = "Q.STAT RXQ, 1" ∧ asm (.arqTxhdr 2 false 5) = "ARQ.TXHDR 2, 0, 5" ∧
    asm .hopNext = "HOP.NEXT" := by decide

/-! ### One command on a small state -/

/-- The next state, if there is one. -/
def stateOf : StepResult → Option State
  | .next t => some t
  | _ => none

/-- The state port `p`'s command leaves. -/
def after (p : Port) (i : Instr) (s : State) : State :=
  match issue p i s with
  | .next t => t
  | _ => s

/-- The result word port `p` receives. -/
def told (p : Port) (i : Instr) (s : State) : Option Word :=
  match (after p i s).response p with
  | .result w => some w
  | _ => none

/-- The block after reset, in the vectors' configuration, with this CRC register and count. -/
def withCrc (c : BitVec 24) (n : BitVec 12) : State :=
  { State.reset with crc := c, cnt := n }

/-- The block after reset with these indices and holds of TXQ (capacity 2). -/
def withTxq (rd wr : BitVec 8) (ph ch : Hold) : State :=
  { State.reset with txq := { rd := rd, wr := wr, ph := ph, ch := ch } }

/-- The block after reset with this hop unit. -/
def withHop (m stg : ChanMap) (h sh : BitVec 5) (unm : BitVec 6) : State :=
  { State.reset with hopMap := m, hopStg := stg, hopH := h, hopSh := sh, hopUnm := unm }

/-- The block after reset with these sequence bits. -/
def withArq (sn nesn : Bool) : State :=
  { State.reset with arqSn := sn, arqNesn := nesn }

/-- V-SYS-1, step 2. -/
theorem test_sysNop : told .A .sysNop State.reset = some 0x00000000 := by decide

/-- V-DEC-2, step 7. -/
theorem test_sysRdfault : told .I .sysRdfault { State.reset with fault := 0xDF } = some 0x000000DF := by decide

/-- V-DEC-2, steps 8 and 9. -/
theorem test_sysRdfcmd :
    told .I (.sysRdfcmd false) { State.reset with fcmd := 0x30000020 } = some 0x00000020 ∧
    told .I (.sysRdfcmd true) { State.reset with fcmd := 0x30000020 } = some 0x00003000 := by decide

/-- V-CRC-3, steps 1 and 11. -/
theorem test_crcInit :
    (after .I (.crcInit 0x555555) (withCrc 7 3)).cnt = 0 ∧ told .A (.crcInit 0) (withCrc 7 3) = some 0x50000000 := by decide

/-- V-CRC-3, step 3: the second byte goes to HDR1. -/
theorem test_crcFeed :
    told .I (.crcFeed 0x05) (withCrc 0x558157 1) = some 0x00835DA7 ∧
    (after .I (.crcFeed 0x05) (withCrc 0x558157 1)).hdr1 = 0x05 ∧ (after .I (.crcFeed 0x05) (withCrc 0x558157 1)).hdr0 = 0 := by
  decide

/-- V-CRC-4: CNT stays at 4095 and ZERO is answered. -/
theorem test_crcFeed_saturates :
    told .I (.crcFeed 0x00) (withCrc 0 4095) = some 0x01000000 ∧ (after .I (.crcFeed 0x00) (withCrc 0 4095)).cnt = 4095 := by decide

/-- V-CRC-3, steps 5 and 10. -/
theorem test_crcRead :
    told .I .crcRead (withCrc 0x835DA7 2) = some 0x00835DA7 ∧ told .A .crcRead (withCrc 0x835DA7 2) = some 0x50000000 := by decide

/-- V-CRC-3, step 4. -/
theorem test_crcStat :
    told .I .crcStat { withCrc 0x835DA7 2 with hdr0 := 0x0E, hdr1 := 0x05 } = some 0x0050E002 := by decide

/-- V-CRC-3, steps 6 to 9. -/
theorem test_crcTxb :
    told .I (.crcTxb 0) (withCrc 0x835DA7 2) = some 0x000000C1 ∧ told .I (.crcTxb 1) (withCrc 0x835DA7 2) = some 0x000000BA ∧
    told .I (.crcTxb 2) (withCrc 0x835DA7 2) = some 0x000000E5 ∧ told .I (.crcTxb 3) (withCrc 0x835DA7 2) = some 0x60000000 := by
  decide

/-- V-Q-1: the second slot, and FULL with both slots committed. -/
theorem test_pqAcq :
    told .A (.pqAcq .txq) (withTxq 0 1 .noHold .noHold) = some 0x00000140 ∧
    told .A (.pqAcq .txq) (withTxq 0 2 .noHold .noHold) = some 0x10000000 := by decide

/-- V-Q-1 and the wrap of R30: after index 3 of a queue of capacity 2 comes 0. -/
theorem test_pqCommit :
    told .A (.pqCommit .txq) (withTxq 2 3 .held .noHold) = some 0x00000002 ∧
    (after .A (.pqCommit .txq) (withTxq 2 3 .held .noHold)).txq.wr = 0 ∧
    told .A (.pqCommit .txq) (withTxq 0 0 .stale .noHold) = some 0x30000000 := by decide

/-- V-Q-1: the oldest slot, and EMPTY. -/
theorem test_cqAcq :
    told .I (.cqAcq .txq) (withTxq 1 3 .noHold .noHold) = some 0x00000140 ∧
    told .I (.cqAcq .txq) (withTxq 3 3 .noHold .noHold) = some 0x20000000 := by decide

/-- V-Q-1: a release, and ESEQ with no hold. -/
theorem test_cqRel :
    told .I (.cqRel .txq) (withTxq 0 2 .noHold .held) = some 0x00000001 ∧
    told .I (.cqRel .txq) (withTxq 3 3 .noHold .noHold) = some 0x40000000 := by decide

/-- V-Q-1: COUNT 2 of 2 is FULL, and the capacity beside the holds. -/
theorem test_qStat :
    told .A (.qStat .txq false) (withTxq 0 2 .noHold .noHold) = some 0x02020200 ∧
    told .A (.qStat .txq true) (withTxq 1 2 .held .noHold) = some 0x00000021 := by decide

/-- V-Q-3: both holds become STALE. -/
theorem test_qFlush :
    (after .I (.qFlush .txq) (withTxq 1 3 .held .held)).txq = { rd := 0, wr := 0, ph := .stale, ch := .stale } ∧
    told .A (.qFlush .txq) (withTxq 1 3 .held .held) = some 0x50000000 := by decide

/-- V-HOP-5: 7 is legal, 4 and 17 are not. -/
theorem test_hopSethop :
    (after .I (.hopSethop 7) State.reset).hopSh = 7 ∧ told .I (.hopSethop 4) State.reset = some 0x60000000 ∧
    told .I (.hopSethop 17) State.reset = some 0x60000000 := by decide

/-- R211: the high part stays. -/
theorem test_hopStglo :
    (after .I (.hopStglo 0x000003) (withHop 0 0x1FFFFFFFFF 0 0 0)).hopStg = 0x1FFF000003 := by decide

/-- R212: the low part stays. -/
theorem test_hopStghi :
    (after .I (.hopStghi 0x0001) (withHop 0 0x1FFFFFFFFF 0 0 0)).hopStg = 0x0001FFFFFF := by decide

/-- P3, step 7, and V-DEC-2, step 4: ERANGE before EMAP. -/
theorem test_hopCommit :
    told .I (.hopCommit true true) (withHop 0 0x1FFFFFFFFF 0 7 0) = some 0x000001E5 ∧
    told .I (.hopCommit true true) (withHop 0 0 0 0 0) = some 0x60000000 ∧
    told .I (.hopCommit true false) (withHop 0 1 0 0 0) = some 0x80000000 := by decide

/-- V-HOP-5: 36 is legal, 37 is not. -/
theorem test_hopSetunm :
    (after .I (.hopSetunm 36) State.reset).hopUnm = 36 ∧ told .I (.hopSetunm 37) State.reset = some 0x60000000 := by decide

/-- P3, steps 30 and 10: a remapped hop and a plain one. -/
theorem test_hopNext :
    told .I .hopNext (withHop 0x1FFFFF 0x1FFFFF 7 7 19) = some 0x00151A45 ∧
    told .I .hopNext (withHop 0x1FFFFFFFFF 0 7 7 0) = some 0x00250707 := by decide

/-- V-DEC-2, step 6: unconfigured. -/
theorem test_hopNext_unconfigured :
    told .I .hopNext State.reset = some 0x70000000 ∧ (after .I .hopNext State.reset).fault = 0x90 := by decide

/-- P3, step 31. -/
theorem test_hopRead :
    told .I .hopRead { withHop 0x1FFFFF 0x1FFFFF 7 7 26 with hopChan := 5 } = some 0x0139DA05 := by decide

/-- R227: each of the four parts. -/
theorem test_hopRdmap :
    told .I (.hopRdmap 0) (withHop 0x1FFF000003 0x0001000002 0 0 0) = some 0x00000003 ∧
    told .I (.hopRdmap 1) (withHop 0x1FFF000003 0x0001000002 0 0 0) = some 0x00001FFF ∧
    told .I (.hopRdmap 2) (withHop 0x1FFF000003 0x0001000002 0 0 0) = some 0x00000002 ∧
    told .I (.hopRdmap 3) (withHop 0x1FFF000003 0x0001000002 0 0 0) = some 0x00000001 := by decide

/-- R260. -/
theorem test_arqReset : (after .I .arqReset (withArq true true)).arqSn = false ∧
    (after .I .arqReset (withArq true true)).arqNesn = false := by decide

/-- P1: an empty PDU received intact by the CRC unit. -/
theorem test_arqRx :
    told .I (.arqRx true) { withCrc 0 5 with hdr0 := 0x05 } = some 0x00B00787 ∧
    (told .I (.arqRx true) { withCrc 1 5 with hdr0 := 0x05 }).map (fun w => w.getLsbD 0) = some false := by decide

/-- V-ARQ-1 and V-ARQ-2: NEW, ACKED and DELIVER; and DROP. -/
theorem test_arqRxx :
    told .I (.arqRxx 0x06 0x05 true true) (withArq false false) = some 0x00B05B8F ∧
    told .I (.arqRxx 0x06 0x05 true false) (withArq false false) = some 0x00905BA7 := by decide

/-- V-ARQ-3: the header of 27 bytes, and of 28. -/
theorem test_arqTxhdr :
    told .I (.arqTxhdr 3 true 27) State.reset = some 0x00001B13 ∧ told .I (.arqTxhdr 1 false 28) State.reset = some 0x60000000 ∧
    told .I (.arqTxhdr 2 true 5) (withArq true true) = some 0x0003051E := by decide

/-- V-ARQ-3. -/
theorem test_arqRead : told .I .arqRead (withArq false true) = some 0x00000002 := by decide

/-- V-DEC-2, steps 1 and 2: the first fault is recorded, the second only adds its bit. -/
theorem test_fault_registers :
    stateOf (step (State.reset.present .A (.command 0x30000020))) =
      some ({ State.reset with fault := 0xC1, fcmd := 0x30000020, respA := .result 0xF0000000, port := .A } : State) ∧
    (after .A (.hopSethop 4) { State.reset with fault := 0xC1, fcmd := 0x30000020 }).fault = 0xC5 := by decide

/-- P2: what A writes in its slot, I reads from the same slot. -/
theorem test_slot_memory :
    ((stateOf (portWrite 0x101 0xBB { withTxq 0 0 .held .noHold with port := .A })).bind fun t =>
      stateOf (portRead 0x101 { t with port := .I, txq := { rd := 0, wr := 1, ph := .noHold, ch := .held } })) =
    some { withTxq 0 1 .noHold .held with mem := [(0x101, 0xBB)], respA := .writeDone, respI := .readData 0xBB } := by decide

/-- The word placed is the next command, on a port that may issue it. -/
theorem test_withFetchWord :
    stateOf (step (State.reset.withFetchWord 32 0x10555555)) =
      some ({ State.reset with crc := 0x555555, respI := .result 0x00555555 } : State) ∧
    stateOf (step (State.reset.withFetchWord 32 0x20000000)) =
      some { withTxq 0 0 .held .noHold with respA := .result 0x00000100, port := .A } := by decide

/-- R224, R219, R352: an event's hop runs once for each event commanded, with the new map and increment at an instant (R206:
from UNM = 0, H = 7 and all channels used, channel 7, then 14; after the commit of H = 9, channel 23). -/
theorem test_eventHop :
    (stateOf (issueAll (onPort .I (eventHop none ++ eventHop none)) (withHop 0x1FFFFFFFFF 0x1FFFFFFFFF 7 9 0))).map
      (fun t => (t.hopUnm, t.hopChan)) = some (14, 14) ∧
    (stateOf (issueAll (onPort .I (eventHop none ++ eventHop none ++ eventHop (some (true, true))))
      (withHop 0x1FFFFFFFFF 0x1FFFFFFFFF 7 9 0))).map (fun t => (t.hopUnm, t.hopChan, t.hopH)) = some (23, 23, 9) := by decide

/-! ### Witnesses: states and operands that meet each statement's hypotheses -/

/-- Both sides of TXQ hold a slot, `A` slot 0 and `I` slot 1, a byte of slot 0 is written, and `I` presents a SYS.NOP. -/
def bothHold : State :=
  { withTxq 1 2 .held .held with mem := [(0x100, 0x5A)], port := .A, reqI := [.command 0x00000000] }

theorem witness_reset_legal : State.reset.Legal where
  config := by decide
  rdRange q := by cases q <;> decide
  wrRange q := by cases q <;> decide
  countLe q := by cases q <;> decide
  producerRoom q := by cases q <;> decide
  consumerItem q := by cases q <;> decide
  mapLegal := by decide
  hLegal := by decide
  shLegal := by decide
  unmLegal := by decide
  chanLegal := by decide
  faultFirst := by decide
  faultSome := by decide
  headersFirst := by decide
  memWf := by decide
  racyWf := by decide
  racyOpen := by decide
  memInside := by decide
  racyInside := by decide

theorem witness_bothHold_legal : bothHold.Legal where
  config := by decide
  rdRange q := by cases q <;> decide
  wrRange q := by cases q <;> decide
  countLe q := by cases q <;> decide
  producerRoom q := by cases q <;> decide
  consumerItem q := by cases q <;> decide
  mapLegal := by decide
  hLegal := by decide
  shLegal := by decide
  unmLegal := by decide
  chanLegal := by decide
  faultFirst := by decide
  faultSome := by decide
  headersFirst := by decide
  memWf := by decide
  racyWf := by decide
  racyOpen := by decide
  memInside := by decide
  racyInside := by decide

/-- The block after reset, with TXQ in any state of its own that R30, R175 and R185 allow, is legal. -/
theorem legal_withTxq (rd wr : BitVec 8) (ph ch : Hold) (p : Port) (hr : rd.toNat < 4) (hw : wr.toNat < 4)
    (hc : queueCount Config.vectors .txq ⟨rd, wr, ph, ch⟩ ≤ 2)
    (hp : ph = .held → queueCount Config.vectors .txq ⟨rd, wr, ph, ch⟩ < 2)
    (hi : ch = .held → 1 ≤ queueCount Config.vectors .txq ⟨rd, wr, ph, ch⟩) :
    { withTxq rd wr ph ch with port := p }.Legal where
  config := witness_reset_legal.config
  rdRange | .txq => hr | .rxq => witness_reset_legal.rdRange .rxq
  wrRange | .txq => hw | .rxq => witness_reset_legal.wrRange .rxq
  countLe | .txq => hc | .rxq => witness_reset_legal.countLe .rxq
  producerRoom | .txq => hp | .rxq => witness_reset_legal.producerRoom .rxq
  consumerItem | .txq => hi | .rxq => witness_reset_legal.consumerItem .rxq
  mapLegal := witness_reset_legal.mapLegal
  hLegal := witness_reset_legal.hLegal
  shLegal := witness_reset_legal.shLegal
  unmLegal := witness_reset_legal.unmLegal
  chanLegal := witness_reset_legal.chanLegal
  faultFirst := witness_reset_legal.faultFirst
  faultSome := witness_reset_legal.faultSome
  headersFirst := witness_reset_legal.headersFirst
  memWf := witness_reset_legal.memWf
  racyWf := witness_reset_legal.racyWf
  racyOpen := witness_reset_legal.racyOpen
  memInside := witness_reset_legal.memInside
  racyInside := witness_reset_legal.racyInside

/-- The block with its requests in place: port `A` presents one command word. -/
def asking (w : Word) : State :=
  State.reset.present .A (.command w)

theorem witness_EncodeOfDecode : decode 0x4203050E = .ok (.arqRxx 0x0E 0x05 true true) := by decide

theorem witness_AtMostOneRowMatches :
    ∃ hm : 3 < rows.length, (rows[3]'hm).selects 0x10555555 = true ∧ (rows[3]'hm).selects 0x10555555 = true :=
  ⟨by decide, by decide, by decide⟩

/-- Each clause at the ends of its range. -/
theorem witness_IllegalWordCases :
    (5 ≤ ((0x50000000 : Word).extractLsb' 28 4).toNat ∧ 5 ≤ ((0xFFFFFFFF : Word).extractLsb' 28 4).toNat) ∧
    ((0x03000000 : Word).extractLsb' 28 4 = 0 ∧ 3 ≤ ((0x03000000 : Word).extractLsb' 24 4).toNat) ∧
    ((0x15000000 : Word).extractLsb' 28 4 = 1 ∧ 5 ≤ ((0x15000000 : Word).extractLsb' 24 4).toNat) ∧
    ((0x26000000 : Word).extractLsb' 28 4 = 2 ∧ 6 ≤ ((0x26000000 : Word).extractLsb' 24 4).toNat) ∧
    ((0x38000000 : Word).extractLsb' 28 4 = 3 ∧ 8 ≤ ((0x3F000000 : Word).extractLsb' 24 4).toNat) ∧
    ((0x45000000 : Word).extractLsb' 28 4 = 4 ∧ 5 ≤ ((0x45000000 : Word).extractLsb' 24 4).toNat) ∧
    decode 0x42040000 = .error .reservedArg := by decide

/-- A port that presents a command, a read and a write. -/
theorem witness_StepRunsDecodedCommand :
    ((asking 0x20000000).cfg.wellFormed = true ∧ (asking 0x20000000).resetIn = false ∧
      nextPort (asking 0x20000000) = some .A ∧ ((asking 0x20000000).requests .A).head? = some (.command 0x20000000) ∧
      decode 0x20000000 = .ok (.pqAcq .txq)) ∧
    (nextPort (State.reset.present .A (.memRead 0x100)) = some .A ∧
      ((State.reset.present .A (.memRead 0x100)).requests .A).head? = some (.memRead 0x100)) ∧
    nextPort (State.reset.present .I (.memWrite 0x23F 0x5A)) = some .I ∧
      ((State.reset.present .I (.memWrite 0x23F 0x5A)).requests .I).head? = some (.memWrite 0x23F 0x5A) := by decide

theorem witness_IllegalWordFaults :
    (asking 0x30000020).cfg.wellFormed = true ∧ (asking 0x30000020).resetIn = false ∧
    nextPort (asking 0x30000020) = some .A ∧ ((asking 0x30000020).requests .A).head? = some (.command 0x30000020) ∧
    decode 0x30000020 = .error .reservedArg := by decide

theorem witness_StepNeverStops : (asking 0x26000000).cfg.wellFormed = true := by decide

theorem witness_ConfigurationRule :
    { State.reset with cfg := { Config.vectors with capRx := 0 } }.cfg.wellFormed = false ∧
    ∃ t, step (asking 0x00000000) = .next t := ⟨by decide, _, rfl⟩

theorem witness_StepKeepsEachPortsOrder :
    (∃ t, step (asking 0x00000000) = .next t ∧ (asking 0x00000000).resetIn = false) ∧
    State.reset.cfg.wellFormed = true ∧ State.reset.resetIn = false ∧ State.reset.reqI = [] ∧ State.reset.reqA = [] :=
  ⟨⟨_, rfl, rfl⟩, by decide⟩

theorem witness_ResetValues :
    { bothHold with resetIn := true }.cfg.wellFormed = true ∧ { bothHold with resetIn := true }.resetIn = true := by decide

/-- Two configurations; the least and the greatest increment, two used channels; a payload of the greatest length. -/
theorem witness_RightAfterReset :
    Config.vectors.wellFormed = true ∧
    { Config.vectors with capTx := 127, capRx := 1, qbaseTx := 0x2000 }.wellFormed = true ∧
    (5 ≤ (5 : BitVec 5).toNat ∧ (16 : BitVec 5).toNat ≤ 16 ∧ 2 ≤ popcount 3) ∧
    (0x01 : Byte).extractLsb' 0 2 ≠ 0 ∧ (27 : Byte).toNat ≤ Config.vectors.maxPayload := by decide

/-- The two ports: the hypotheses of CrcInitRule, CrcFeedRule, CrcReadsRule, HopReadsRule and ArqResetAndReadRule, each of which has
one clause for each port. -/
theorem witness_ports : State.reset.port = .I ∧ bothHold.port = .A := by decide

/-- The lowest and the highest bit. -/
theorem witness_CrcStepRule : (0 < 24 ∧ 23 < 24) ∧ 23 ∉ [0, 1, 3, 4, 6, 9, 10] := by decide

theorem witness_CrcTxbRule :
    (withCrc 0x835DA7 2).port = .I ∧ (0 : BitVec 2) ≠ 3 ∧ (2 : BitVec 2) ≠ 3 ∧ (3 : BitVec 2) = 3 := by decide

/-- PQ.ACQ: held, full, with room; and a port that is not the producer's. -/
theorem witness_PqAcqRule :
    (bothHold.port = prod .txq ∧ (bothHold.queue .txq).ph = .held) ∧
    ({ withTxq 0 2 .noHold .noHold with port := .A }.port = prod .txq ∧
      ((withTxq 0 2 .noHold .noHold).queue .txq).ph ≠ .held ∧
      queueCount Config.vectors .txq ((withTxq 0 2 .noHold .noHold).queue .txq) = Config.vectors.cap .txq) ∧
    (((withTxq 0 1 .stale .noHold).queue .txq).ph ≠ .held ∧
      queueCount Config.vectors .txq ((withTxq 0 1 .stale .noHold).queue .txq) ≠ Config.vectors.cap .txq) ∧
    State.reset.port ≠ prod .txq := by decide

/-- PQ.COMMIT and CQ.REL: no hold, stale, held; on the side's port and on the other. -/
theorem witness_PqCommitRule :
    State.reset.port = prod .rxq ∧ (State.reset.queue .rxq).ph = .noHold ∧ bothHold.port = prod .txq ∧
    (bothHold.queue .txq).ph = .held ∧ ((withTxq 0 0 .stale .noHold).queue .txq).ph = .stale ∧ State.reset.port ≠ prod .txq := by
  decide

theorem witness_CqAcqRule :
    State.reset.port = cons .txq ∧
    ((withTxq 1 2 .noHold .held).queue .txq).ch = .held ∧
    ((State.reset.queue .txq).ch ≠ .held ∧ queueCount Config.vectors .txq (State.reset.queue .txq) = 0) ∧
    (((withTxq 0 1 .noHold .noHold).queue .txq).ch ≠ .held ∧
      queueCount Config.vectors .txq ((withTxq 0 1 .noHold .noHold).queue .txq) ≠ 0) ∧
    State.reset.port ≠ cons .rxq := by decide

theorem witness_CqRelRule :
    State.reset.port = cons .txq ∧ (State.reset.queue .txq).ch = .noHold ∧
    ((withTxq 1 2 .noHold .held).queue .txq).ch = .held ∧ ((withTxq 0 0 .noHold .stale).queue .txq).ch = .stale ∧
    State.reset.port ≠ cons .rxq := by decide

/-- A full queue whose FULL the consumer's release clears, and an empty one whose EMPTY the producer's commit clears. -/
theorem witness_QStatRule :
    (({ withTxq 0 2 .noHold .held with port := .I } : State).Legal ∧
      queueFull Config.vectors .txq ⟨0, 2, .noHold, .held⟩ = true ∧
      ∃ t, exec (.cqRel .txq) { withTxq 0 2 .noHold .held with port := .I } = .next t ∧
        queueFull t.cfg .txq (t.queue .txq) = false) ∧
    ({ withTxq 1 1 .held .noHold with port := .A } : State).Legal ∧
      queueEmpty Config.vectors .txq ⟨1, 1, .held, .noHold⟩ = true ∧
      ∃ t, exec (.pqCommit .txq) { withTxq 1 1 .held .noHold with port := .A } = .next t ∧
        queueEmpty t.cfg .txq (t.queue .txq) = false :=
  ⟨⟨legal_withTxq 0 2 .noHold .held .I (by decide) (by decide) (by decide) (by decide) (by decide), by decide, _, rfl, by decide⟩,
    legal_withTxq 1 1 .held .noHold .A (by decide) (by decide) (by decide) (by decide) (by decide), by decide, _, rfl, by decide⟩

theorem witness_QFlushRule :
    (withTxq 1 2 .held .held).port = .I ∧ 1 ≤ (withTxq 1 2 .held .held).cfg.cap .txq ∧ bothHold.port = .A := by decide

theorem witness_IndicesHaveOneWriter :
    (∃ t, exec (.pqCommit .txq) bothHold = .next t ∧ (t.queue .txq).wr ≠ (bothHold.queue .txq).wr) ∧
    ∃ t, exec (.qFlush .txq) (withTxq 1 2 .held .held) = .next t ∧
      (t.queue .txq).rd ≠ ((withTxq 1 2 .held .held).queue .txq).rd :=
  ⟨⟨_, rfl, by decide⟩, _, rfl, by decide⟩

theorem witness_HoldsNeverShareASlot :
    bothHold.Legal ∧ (bothHold.queue .txq).ph = .held ∧ (bothHold.queue .txq).ch = .held :=
  ⟨witness_bothHold_legal, by decide, by decide⟩

/-- At no pair, at one less than the capacity and at the capacity. -/
theorem witness_QueueAcceptsExactlyItsCapacity :
    State.reset.Legal ∧ queueCount State.reset.cfg .txq (State.reset.queue .txq) = 0 ∧ 0 < State.reset.cfg.cap .txq ∧
    1 < State.reset.cfg.cap .txq ∧ 2 = State.reset.cfg.cap .txq :=
  ⟨witness_reset_legal, by decide, by decide, by decide, by decide⟩

theorem witness_QueueIsFifo :
    State.reset.Legal ∧ queueCount State.reset.cfg .txq (State.reset.queue .txq) = 0 ∧
    (State.reset.queue .txq).ph ≠ .held ∧ (State.reset.queue .txq).ch ≠ .held ∧
    ∀ c ∈ [(Port.A, Instr.pqAcq .txq), (Port.A, Instr.pqCommit .txq), (Port.I, Instr.cqAcq .txq), (Port.I, Instr.cqRel .txq)],
      c.2 ≠ .qFlush .txq :=
  ⟨witness_reset_legal, by decide, by decide, by decide, by decide⟩

theorem witness_CommandsIgnoreSlotMemory : ∃ t, exec (.pqCommit .txq) bothHold = .next t := ⟨_, rfl⟩

/-- Each acquire answered OK, each end of a hold, a command that is none of them, and the two ends of a slot `A` owns. -/
theorem witness_OwnedAccess :
    (({ withTxq 0 0 .noHold .noHold with port := .A } : State).Legal ∧
      ∃ t, exec (.pqAcq .txq) { withTxq 0 0 .noHold .noHold with port := .A } = .next t ∧
        t.response .A = .result ((0 : BitVec 8) ++ (0x100 : Addr))) ∧
    (({ withTxq 1 2 .noHold .noHold with port := .I } : State).Legal ∧
      ∃ t, exec (.cqAcq .txq) { withTxq 1 2 .noHold .noHold with port := .I } = .next t ∧
        t.response .I = .result ((0 : BitVec 8) ++ (0x140 : Addr))) ∧
    (bothHold.Legal ∧ bothHold.port = prod .txq ∧ ∃ t, exec (.pqCommit .txq) bothHold = .next t) ∧
    (({ withTxq 1 2 .held .held with port := .I } : State).Legal ∧
      ∃ t u, exec (.cqRel .txq) { withTxq 1 2 .held .held with port := .I } = .next t ∧
        exec (.qFlush .txq) { withTxq 1 2 .held .held with port := .I } = .next u) ∧
    (∃ t, exec .sysNop bothHold = .next t) ∧
    inSlotMemory bothHold.cfg 0x100 = true ∧ owns bothHold bothHold.port 0x100 = true ∧
    inSlotMemory bothHold.cfg 0x13F = true ∧ owns bothHold bothHold.port 0x13F = true ∧
    slotByte bothHold 0x100 = some 0x5A :=
  ⟨⟨legal_withTxq 0 0 .noHold .noHold .A (by decide) (by decide) (by decide) (by decide) (by decide), _, rfl, by decide⟩,
    ⟨legal_withTxq 1 2 .noHold .noHold .I (by decide) (by decide) (by decide) (by decide) (by decide), _, rfl, by decide⟩,
    ⟨witness_bothHold_legal, by decide, _, rfl⟩,
    ⟨legal_withTxq 1 2 .held .held .I (by decide) (by decide) (by decide) (by decide) (by decide), _, _, rfl, rfl⟩,
    ⟨_, rfl⟩, by decide, by decide, by decide, by decide, by decide⟩

/-- The first byte past the slot `A` holds, the first past TXQ, the last before it, and an open byte. -/
theorem witness_UnownedAccess :
    (inSlotMemory bothHold.cfg 0x140 = true ∧ owns bothHold bothHold.port 0x140 = false) ∧
    inSlotMemory bothHold.cfg 0x180 = false ∧ inSlotMemory bothHold.cfg 0x0FF = false ∧
    slotByte { bothHold with racy := [0x102] } 0x102 = none := by decide

/-- A run of one step, a SYS.NOP of port `I`, after a write by `A`. -/
theorem witness_PublishedBytesAreRead :
    bothHold.Legal ∧ inSlotMemory bothHold.cfg 0x101 = true ∧ owns bothHold bothHold.port 0x101 = true ∧
    ∃ t u, portWrite 0x101 0x77 bothHold = .next t ∧ QuietRun 0x101 t u ∧ owns u .A 0x101 = true :=
  ⟨witness_bothHold_legal, by decide, by decide, _, _, rfl,
    .step (fun ⟨_, _, h⟩ => by cases (show some (Request.command 0x00000000, _) = some (Request.memWrite _ _, _) from h))
      rfl rfl (.refl _), by decide⟩

theorem witness_HopStagingRule :
    State.reset.port = .I ∧ (5 ≤ (5 : BitVec 5).toNat ∧ (16 : BitVec 5).toNat ≤ 16) ∧
    (4 : BitVec 5).toNat < 5 ∧ 16 < (17 : BitVec 5).toNat := by decide

/-- Both ends of SH's range and of the map's, in range and out of it. -/
theorem witness_HopCommitRule :
    ((withHop 0 3 0 4 0).port = .I ∧ (withHop 0 3 0 4 0).hopSh.toNat < 5) ∧ 16 < (withHop 0 3 0 17 0).hopSh.toNat ∧
    (¬ ((withHop 0 1 0 5 0).hopSh.toNat < 5 ∨ 16 < (withHop 0 1 0 5 0).hopSh.toNat) ∧ popcount (withHop 0 1 0 5 0).hopStg < 2) ∧
    (¬ ((withHop 0 3 0 16 0).hopSh.toNat < 5 ∨ 16 < (withHop 0 3 0 16 0).hopSh.toNat) ∧
      ¬ popcount (withHop 0 3 0 16 0).hopStg < 2) := by decide

theorem witness_OnlyCommitChangesMapAndIncrement :
    ∃ t, exec (.hopCommit true true) (withHop 0 3 0 5 0) = .next t ∧ t.hopMap ≠ (withHop 0 3 0 5 0).hopMap :=
  ⟨_, rfl, by decide⟩

theorem witness_HopSetunmRule :
    State.reset.port = .I ∧ (36 : BitVec 6).toNat ≤ 36 ∧ 36 < (37 : BitVec 6).toNat ∧ 36 < (63 : BitVec 6).toNat := by decide

/-- Configured at both ends of H's range with two channels, and each way of being unconfigured. -/
theorem witness_HopNextRule :
    ((withHop 3 0 5 0 0).port = .I ∧ 5 ≤ (withHop 3 0 5 0 0).hopH.toNat ∧ (withHop 3 0 5 0 0).hopH.toNat ≤ 16 ∧
      2 ≤ popcount (withHop 3 0 5 0 0).hopMap) ∧
    (withHop 3 0 16 0 0).hopH.toNat ≤ 16 ∧ (withHop 3 0 4 0 0).hopH.toNat < 5 ∧ 16 < (withHop 3 0 17 0 0).hopH.toNat ∧
    popcount (withHop 1 0 5 0 0).hopMap < 2 := by decide

theorem witness_HopChannelIsUsed : 2 ≤ popcount 0x1000000001 := by decide

theorem witness_HopVisitsAllChannels :
    (withHop 0x1FFFFFFFFF 0 7 7 36).hopUnm.toNat ≤ 36 ∧ 5 ≤ (withHop 0x1FFFFFFFFF 0 7 7 36).hopH.toNat ∧
    (withHop 0x1FFFFFFFFF 0 7 7 36).hopH.toNat ≤ 16 ∧ 2 ≤ popcount (withHop 0x1FFFFFFFFF 0 7 7 36).hopMap := by decide

theorem witness_ConnectionStartInstalls :
    5 ≤ (5 : BitVec 5).toNat ∧ (16 : BitVec 5).toNat ≤ 16 ∧ 2 ≤ popcount 3 ∧ 2 ≤ popcount 0x1FFFFFFFFF := by decide

/-- What ArqUpdateRule supposes of its five bits, met by a packet the CRC unit holds: 2 header bytes, no payload, 3 CRC bytes and a zero register. -/
theorem witness_ArqRxRule :
    ({ withCrc 0 5 with hdr0 := 0x05 } : State).port = .I ∧
    ((true = true) ↔ ((0x05 : Byte).extractLsb' 0 2 ≠ 0 ∧ (0 : Byte).toNat ≤ ({ withCrc 0 5 with hdr0 := 0x05 } : State).cfg.maxPayload)) ∧
    ((true = true) ↔ (decide ((withCrc 0 5).crc = 0) = true ∧ decide ((withCrc 0 5).cnt.toNat = (withCrc 0 5).hdr1.toNat + 5) = true ∧
      true = true)) ∧
    ((true = true) ↔ (true = true ∧ (0x05 : Byte).getLsbD 3 = (withCrc 0 5).arqNesn)) ∧
    ((true = true) ↔ (true = true ∧ (0x05 : Byte).getLsbD 2 ≠ (withCrc 0 5).arqSn)) ∧
    ((true = true) ↔ (false = true ∨ (0 : Byte) = 0)) := by decide

/-- What ArqUpdateRule supposes of its five bits, met by a packet that is new, acknowledges and is accepted. -/
theorem witness_ArqRxxRule :
    (withArq false false).port = .I ∧
    ((true = true) ↔ ((0x06 : Byte).extractLsb' 0 2 ≠ 0 ∧ (0x05 : Byte).toNat ≤ (withArq false false).cfg.maxPayload)) ∧
    ((true = true) ↔ (true = true ∧ true = true ∧ true = true)) ∧
    ((true = true) ↔ (true = true ∧ (0x06 : Byte).getLsbD 3 = (withArq false false).arqNesn)) ∧
    ((true = true) ↔ (true = true ∧ (0x06 : Byte).getLsbD 2 ≠ (withArq false false).arqSn)) ∧
    ((true = true) ↔ (true = true ∨ (0x05 : Byte) = 0)) := by decide

/-- A packet of the CRC unit taken, and a packet with a payload that the caller could not take. -/
theorem witness_SamePacketAgainIsDuplicate :
    (({ withCrc 0 5 with hdr0 := 0x05 } : State).port = .I ∧
      ∃ t w, exec (.arqRx true) { withCrc 0 5 with hdr0 := 0x05 } = .next t ∧ t.respI = .result w ∧
        w.getLsbD 0 = true ∧ w.getLsbD 5 = false) ∧
    State.reset.port = .I ∧ ∃ t w, exec (.arqRxx 0x06 0x05 true false) State.reset = .next t ∧ t.respI = .result w ∧
      w.getLsbD 0 = true ∧ w.getLsbD 5 = true :=
  ⟨⟨rfl, _, _, rfl, rfl, by decide, by decide⟩, rfl, _, _, rfl, rfl, by decide, by decide⟩

theorem witness_OnlyArqCommandsMoveSequenceBits :
    ∃ t, exec (.arqRxx 0x06 0x05 true true) State.reset = .next t ∧ t.arqSn ≠ State.reset.arqSn := ⟨_, rfl, by decide⟩

theorem witness_ArqTxhdrRule :
    State.reset.port = .I ∧ ((1 : BitVec 2) ≠ 0 ∧ (27 : Byte).toNat ≤ State.reset.cfg.maxPayload) ∧ (0 : BitVec 2) = 0 ∧
    State.reset.cfg.maxPayload < (28 : Byte).toNat := by decide

/-- Two blocks after reset, payloads of 27 bytes, and an event in which both packets arrive. -/
theorem witness_ExactlyOnceDelivery :
    ∃ (pay : Nat → BitVec 2 × Byte) (l : Link) (e : Exchange),
      l.sender.arqSn = false ∧ l.sender.arqNesn = false ∧ l.receiver.arqSn = false ∧ l.receiver.arqNesn = false ∧ l.acked = 0 ∧
      l.delivered = [] ∧ (∀ k, (pay k).2 ≠ 0) ∧ e.forward = .intact ∧ e.back = .intact ∧ e.accept = true ∧ e.replyLlid ≠ 0 ∧
      (∀ k, (pay k).1 ≠ 0 ∧ (pay k).2.toNat ≤ l.sender.cfg.maxPayload ∧ (pay k).2.toNat ≤ l.receiver.cfg.maxPayload) ∧
      e.replyLen.toNat ≤ l.sender.cfg.maxPayload ∧ e.replyLen.toNat ≤ l.receiver.cfg.maxPayload :=
  ⟨fun _ => (2, 27), ⟨State.reset, State.reset, 0, []⟩, ⟨.intact, .intact, true, true, false, 1, false, 0⟩,
    by decide, by decide, by decide, by decide, rfl, rfl, fun _ => (by decide : (27 : Byte) ≠ 0), rfl, rfl, rfl, by decide,
    fun _ => (by decide : (2 : BitVec 2) ≠ 0 ∧ (27 : Byte).toNat ≤ Config.vectors.maxPayload ∧ (27 : Byte).toNat ≤ Config.vectors.maxPayload),
    by decide, by decide⟩

theorem witness_PortRightsTable :
    portMay bothHold.port (.crcInit 0) = false ∧ portMay State.reset.port (.pqAcq .txq) = false ∧
    portMay State.reset.port .hopNext = true ∧ ∃ t, exec .hopNext State.reset = .next t :=
  ⟨by decide, by decide, by decide, _, rfl⟩

/-- The hypothesis of RangeFaultsExactly, OtherFaultsExactly and FaultsArePrecise: a next state, of an ERANGE, of an EUNCONF and of a
command that completes. -/
theorem witness_exec_next :
    (∃ t, exec (.hopSethop 4) State.reset = .next t) ∧ (∃ t, exec .hopNext State.reset = .next t) ∧
    ∃ t, exec .sysNop bothHold = .next t := ⟨⟨_, rfl⟩, ⟨_, rfl⟩, _, rfl⟩

theorem witness_FaultRegistersAreSticky :
    ∃ t, step { asking 0x30000020 with fault := 0x81 } = .next t ∧ { asking 0x30000020 with fault := 0x81 }.resetIn = false ∧
      { asking 0x30000020 with fault := 0x81 }.fault.getLsbD 0 = true ∧
      { asking 0x30000020 with fault := 0x81 }.fault.getLsbD 7 = true := ⟨_, rfl, by decide, by decide, by decide⟩

theorem witness_PortAIsConfined : ∃ t, exec (.pqCommit .txq) bothHold = .next t ∧ bothHold.port = .A := ⟨_, rfl, by decide⟩

theorem witness_ReadOnlyCommandsRepeat :
    ∃ t, exec (.arqTxhdr 1 false 27) State.reset = .next t ∧ statusOf State.reset t = some 0 := ⟨_, rfl, by decide⟩

theorem witness_StepKeepsLegal : bothHold.Legal ∧ ∃ t, step bothHold = .next t := ⟨witness_bothHold_legal, _, rfl⟩

theorem witness_ResetIsLegal : Config.vectors.wellFormed = true := by decide

end Sys2Proof.Tests
end

/-! PROOFS. The well-formed configurations of R2, written out, and the configuration as a constant of every step. -/

namespace Sys2Proof.Machine

/-! ### The checks of R2 -/

/-- A legal MAX_PAYLOAD, written out (R2). -/
theorem payloadOk_iff (c : Config) : c.payloadOk = true ↔ c.maxPayload ≤ 255 := by
  rw [Config.payloadOk, decide_eq_true_eq]

/-- A slot that holds the largest item, written out (R2). -/
theorem slotBytesOk_iff (c : Config) : c.slotBytesOk = true ↔ c.maxPayload + 5 ≤ c.slotBytes := by
  rw [Config.slotBytesOk, decide_eq_true_eq]

/-- A queue with slots has slot memory. -/
theorem qbase_lt_slotEnd {c : Config} {q : QueueId} (hcap : 0 < c.cap q) (hslot : 0 < c.slotBytes) :
    c.qbase q < c.slotEnd q :=
  Nat.lt_add_of_pos_right (Nat.mul_pos hcap hslot)

/-- Two byte ranges that are not empty share no address exactly when one ends before the other begins: otherwise the greater of
their first addresses is in both. -/
theorem ranges_apart_iff {b₁ e₁ b₂ e₂ : Nat} (h₁ : b₁ < e₁) (h₂ : b₂ < e₂) :
    (e₁ ≤ b₂ ∨ e₂ ≤ b₁) ↔ ∀ a, ¬ ((b₁ ≤ a ∧ a < e₁) ∧ (b₂ ≤ a ∧ a < e₂)) := by
  constructor
  · omega
  · intro h
    have hmax := h (max b₁ b₂)
    omega

/-- The disjointness check says that no address is in both queues' slot memory (R2). -/
theorem configDisjoint_iff {c : Config} (htx : 0 < c.capTx) (hrx : 0 < c.capRx) (hslot : 0 < c.slotBytes) :
    c.disjoint = true ↔
      ∀ a, ¬ ((c.qbaseTx ≤ a ∧ a < c.slotEnd .txq) ∧ (c.qbaseRx ≤ a ∧ a < c.slotEnd .rxq)) := by
  rw [Config.disjoint, Bool.or_eq_true, decide_eq_true_eq, decide_eq_true_eq]
  exact ranges_apart_iff (qbase_lt_slotEnd (q := .txq) htx hslot) (qbase_lt_slotEnd (q := .rxq) hrx hslot)

/-- The well-formed configurations, written out (R2). -/
theorem wellFormed_iff (c : Config) :
    c.wellFormed = true ↔
      1 ≤ c.capTx ∧ c.capTx ≤ 127 ∧ 1 ≤ c.capRx ∧ c.capRx ≤ 127 ∧ c.maxPayload ≤ 255 ∧
      c.maxPayload + 5 ≤ c.slotBytes ∧ c.slotEnd .txq ≤ 2 ^ 24 ∧ c.slotEnd .rxq ≤ 2 ^ 24 ∧
      ∀ a, ¬ ((c.qbaseTx ≤ a ∧ a < c.slotEnd .txq) ∧ (c.qbaseRx ≤ a ∧ a < c.slotEnd .rxq)) := by
  simp only [Config.wellFormed, Bool.and_eq_true, capOk_iff, payloadOk_iff, slotBytesOk_iff, fits_iff]
  constructor
  · rintro ⟨⟨⟨⟨⟨⟨⟨htx, htx'⟩, hrx, hrx'⟩, hpay⟩, hslot⟩, hendTx⟩, hendRx⟩, hdis⟩
    exact ⟨htx, htx', hrx, hrx', hpay, hslot, hendTx, hendRx, (configDisjoint_iff htx hrx (by omega)).mp hdis⟩
  · rintro ⟨htx, htx', hrx, hrx', hpay, hslot, hendTx, hendRx, hdis⟩
    exact ⟨⟨⟨⟨⟨⟨⟨htx, htx'⟩, hrx, hrx'⟩, hpay⟩, hslot⟩, hendTx⟩, hendRx⟩, (configDisjoint_iff htx hrx (by omega)).mpr hdis⟩

/-! ### The configuration along a step -/

/-- The reset input leaves the configuration as it was (R340). -/
@[simp] theorem State.applyReset_cfg (s : State) : s.applyReset.cfg = s.cfg := rfl

/-- Serving a request leaves the configuration as it was. -/
theorem serve_cfg {r : Request} {s t : State} (h : serve r s = .next t) : t.cfg = s.cfg := by
  rcases serve_cases r s with ⟨w, i, _, _, hserve⟩ | ⟨w, e, _, _, hserve⟩ | ⟨a, _, hserve⟩ | ⟨a, v, _, hserve⟩ <;>
    rw [hserve] at h
  case inl => exact (exec_frame h).1
  case inr.inl =>
    cases (raiseFault_eq .illegal w s).symm.trans h
    rfl
  case inr.inr.inl =>
    rcases portRead_cases a s with ⟨v, _, hread⟩ | ⟨_, hread⟩ <;> cases hread.symm.trans h <;> rfl
  case inr.inr.inr =>
    obtain ⟨m, l, hwrite⟩ := portWrite_frame a v s
    cases hwrite.symm.trans h
    rfl

/-- A step leaves the configuration as it was (R2). -/
theorem step_cfg {s t : State} (h : step s = .next t) : t.cfg = s.cfg := by
  rcases step_cases s with ⟨_, hstep⟩ | ⟨_, _, hstep⟩ | ⟨_, _, _, _, hstep⟩ | ⟨_, _, p, r, _, _, hstep⟩ <;>
    rw [hstep] at h
  case inl => cases h
  case inr.inl =>
    cases h
    exact s.applyReset_cfg
  case inr.inr.inl =>
    cases h
    rfl
  case inr.inr.inr => exact (serve_cfg h).trans (s.grant_cfg p)

/-- An ill-formed configuration is refused (R2, R344). -/
theorem step_of_illFormed {s : State} (h : s.cfg.wellFormed = false) : step s = .refused .illFormedConfig := by
  rw [step, h, if_neg Bool.false_ne_true]

/-- Settles O10: the checks written out, the refusal, and the configuration kept by each of the four things a step can do. -/
theorem configurationRule : Obligations.ConfigurationRule :=
  ⟨wellFormed_iff, fun _ h => step_of_illFormed h, fun _ _ h => step_cfg h⟩

end Sys2Proof.Machine

/-! PROOFS. The state after a command, the legal states kept by every step, and what follows from what one command can change
(10_state.md). -/

namespace Sys2Proof.Machine

/-! ### The state a command leaves -/

/-- Everything the state after a command can be: one fault taken, or, on a port with the right and with the checks passed, the
command's effect; and the port's answer. -/
theorem exec_next_cases {i : Instr} {s t : State} (h : exec i s = .next t) :
    (∃ k w r, t = (s.takeFault k w).respond r) ∨
      (portMay s.port i = true ∧ (∀ c ∈ checksOf s i, c.1 = true) ∧ ∃ r, t = (effectOf s i).respond r) := by
  rcases exec_cases i s with ⟨k, _, hexec⟩ | ⟨hport, hchecks, st, d, _, hexec⟩
  · rw [hexec, raiseFault_eq] at h
    cases h
    exact .inl ⟨k, _, _, rfl⟩
  · rw [hexec, answer_eq] at h
    cases h
    exact .inr ⟨hport, hchecks, _, rfl⟩

/-- A command issued by a port with the right, with its checks passed, leaves its effect and an answer. -/
theorem issue_of_good {p : Port} {i : Instr} {s : State} (hport : portMay p i = true)
    (hchecks : ∀ c ∈ checksOf { s with port := p } i, c.1 = true) :
    ∃ r, issue p i s = .next ((effectOf { s with port := p } i).respond r) := by
  obtain ⟨st, d, _, hexec⟩ := exec_eq i { s with port := p }
  exact ⟨_, hexec.trans (checked_of_good _ _ _ _ hport hchecks)⟩

/-- Everything a served request can do to the registers: a fault taken, a command's effect, a read's answer with some count of free
values, or a byte stored; and the port's answer. -/
theorem serve_next_cases {r : Request} {s t : State} (h : serve r s = .next t) :
    (∃ k w r, t = (s.takeFault k w).respond r) ∨
      (∃ i r, (∀ c ∈ checksOf s i, c.1 = true) ∧ t = (effectOf s i).respond r) ∨
      (∃ n r, t = ({ s with draws := n }).respond r) ∨
      ∃ a v r, t = (s.storeByte a v).respond r := by
  rcases serve_cases r s with ⟨w, i, _, _, hserve⟩ | ⟨w, e, _, _, hserve⟩ | ⟨a, _, hserve⟩ | ⟨a, v, _, hserve⟩ <;>
    rw [hserve] at h
  case inl =>
    rcases exec_next_cases h with hfault | ⟨_, hchecks, r, rfl⟩
    · exact .inl hfault
    · exact .inr (.inl ⟨i, r, hchecks, rfl⟩)
  case inr.inl =>
    cases (raiseFault_eq .illegal w s).symm.trans h
    exact .inl ⟨_, _, _, rfl⟩
  case inr.inr.inl =>
    rcases portRead_cases a s with ⟨v, _, hread⟩ | ⟨_, hread⟩ <;> cases hread.symm.trans h
    · exact .inr (.inr (.inl ⟨s.draws, _, rfl⟩))
    · exact .inr (.inr (.inl ⟨s.draws + 1, _, rfl⟩))
  case inr.inr.inr =>
    cases h
    exact .inr (.inr (.inr ⟨a, v, _, rfl⟩))

/-! ### A queue's legal values, and the commands that keep them -/

/-- The clauses of a legal state about one queue: R30, R185 and R175. -/
structure Queue.Legal (c : Config) (q : QueueId) (v : Queue) : Prop where
  rdRange : v.rd.toNat < 2 * c.cap q
  wrRange : v.wr.toNat < 2 * c.cap q
  countLe : queueCount c q v ≤ c.cap q
  producerRoom : v.ph = .held → queueCount c q v < c.cap q
  consumerItem : v.ch = .held → 1 ≤ queueCount c q v

/-- Each queue of a legal state is legal. -/
theorem State.Legal.queueLegal {s : State} (h : s.Legal) (q : QueueId) : (s.queue q).Legal s.cfg q :=
  ⟨h.rdRange q, h.wrRange q, h.countLe q, h.producerRoom q, h.consumerItem q⟩

/-- With both indices 0 nothing is counted. -/
theorem queueCount_zero (c : Config) (q : QueueId) (ph ch : Hold) : queueCount c q ⟨0, 0, ph, ch⟩ = 0 := by
  simp [queueCount]

/-- A commit into a queue with room counts one item more (R173). -/
theorem queueCount_committed {c : Config} {q : QueueId} {v : Queue} (hc : c.cap q ≤ 127) (h : v.Legal c q)
    (hroom : queueCount c q v < c.cap q) : queueCount c q (queueCommitted c q v) = queueCount c q v + 1 := by
  obtain ⟨hr, hw, _, _, _⟩ := h
  have hnext : (queueCommitted c q v).wr.toNat = _ := indexNext_toNat c q v.wr hc hw
  have hrd : (queueCommitted c q v).rd = v.rd := rfl
  rw [queueCount_legal c q v hr hw] at hroom ⊢
  rw [queueCount_legal c q (queueCommitted c q v) hr (by rw [hnext]; split <;> omega), hnext, hrd]
  split_ifs at hroom ⊢ <;> omega

/-- A release from a queue with an item counts one item less (R177). -/
theorem queueCount_released {c : Config} {q : QueueId} {v : Queue} (hc : c.cap q ≤ 127) (h : v.Legal c q)
    (hitem : 1 ≤ queueCount c q v) : queueCount c q (queueReleased c q v) = queueCount c q v - 1 := by
  obtain ⟨hr, hw, hle, _, _⟩ := h
  have hnext : (queueReleased c q v).rd.toNat = _ := indexNext_toNat c q v.rd hc hr
  have hwr : (queueReleased c q v).wr = v.wr := rfl
  rw [queueCount_legal c q v hr hw] at hle hitem ⊢
  rw [queueCount_legal c q (queueReleased c q v) (by rw [hnext]; split <;> omega) hw, hnext, hwr]
  split_ifs at hle hitem ⊢ <;> omega

/-- The index after a commit or release is in range again (R30). -/
theorem indexNext_lt {c : Config} {q : QueueId} {x : BitVec 8} (hc : c.cap q ≤ 127) (hx : x.toNat < 2 * c.cap q) :
    (indexNext c q x).toNat < 2 * c.cap q := by
  rw [indexNext_toNat c q x hc hx]
  split <;> omega

/-- PQ.ACQ takes a hold only where there is room (R172). -/
theorem Queue.Legal.producerAcquired {c : Config} {q : QueueId} {v : Queue} (h : v.Legal c q) :
    (producerAcquired c q v).Legal c q := by
  unfold Machine.producerAcquired
  split
  · exact h
  · split
    · exact h
    · next hfull =>
      rw [queueFull, beq_iff_eq] at hfull
      exact { h with producerRoom := fun _ => lt_of_le_of_ne h.countLe hfull }

/-- CQ.ACQ takes a hold only where there is an item (R174). -/
theorem Queue.Legal.consumerAcquired {c : Config} {q : QueueId} {v : Queue} (h : v.Legal c q) :
    (consumerAcquired c q v).Legal c q := by
  unfold Machine.consumerAcquired
  split
  · exact h
  · split
    · exact h
    · next hempty =>
      rw [queueEmpty, beq_iff_eq] at hempty
      exact { h with consumerItem := fun _ => Nat.one_le_iff_ne_zero.mpr hempty }

/-- PQ.COMMIT uses the room its hold left and ends the hold (R173). -/
theorem Queue.Legal.producerDone {c : Config} {q : QueueId} {v : Queue} (hc : c.cap q ≤ 127) (h : v.Legal c q)
    (hhold : v.ph ≠ .noHold) : (producerDone c q v).Legal c q := by
  unfold Machine.producerDone
  split
  · exact { h with producerRoom := nofun }
  · next hstale =>
    have hheld : v.ph = .held := by cases hph : v.ph <;> simp_all
    have hroom := h.producerRoom hheld
    have hcount := queueCount_committed hc h hroom
    exact
      { rdRange := h.rdRange
        wrRange := indexNext_lt hc h.wrRange
        countLe := by omega
        producerRoom := nofun
        consumerItem := fun _ => by omega }

/-- CQ.REL takes the item its hold had and ends the hold (R177). -/
theorem Queue.Legal.consumerDone {c : Config} {q : QueueId} {v : Queue} (hc : c.cap q ≤ 127) (h : v.Legal c q)
    (hhold : v.ch ≠ .noHold) : (consumerDone c q v).Legal c q := by
  unfold Machine.consumerDone
  split
  · exact { h with consumerItem := nofun }
  · next hstale =>
    have hheld : v.ch = .held := by cases hch : v.ch <;> simp_all
    have hitem := h.consumerItem hheld
    have hle := h.countLe
    have hcount := queueCount_released hc h hitem
    exact
      { rdRange := indexNext_lt hc h.rdRange
        wrRange := h.wrRange
        countLe := by omega
        producerRoom := fun _ => by omega
        consumerItem := nofun }

/-- After a flush no hold is HELD (R180). -/
theorem holdFlushed_ne_held (x : Hold) : holdFlushed x ≠ .held := by
  cases x <;> decide

/-- An empty queue at index 0 that no side holds is legal: the queue after reset or a flush (R180, R340). -/
theorem Queue.Legal.of_zero {c : Config} {q : QueueId} {ph ch : Hold} (hc : 1 ≤ c.cap q) (hph : ph ≠ .held)
    (hch : ch ≠ .held) : Queue.Legal c q ⟨0, 0, ph, ch⟩ where
  rdRange := by simp; omega
  wrRange := by simp; omega
  countLe := (queueCount_zero c q ph ch).trans_le (Nat.zero_le _)
  producerRoom hheld := absurd hheld hph
  consumerItem hheld := absurd hheld hch

/-! ### The updates that keep a state legal -/

namespace State.Legal

/-- No clause reads an answer. -/
theorem respond {s : State} (h : s.Legal) (r : Response) : (s.respond r).Legal := { h with }

/-- No clause reads a request or the port. -/
theorem grant {s : State} (h : s.Legal) (p : Port) : (s.grant p).Legal := { h with }

/-- The queue that is written is legal by its new registers, the other as before. -/
theorem setQueue {s : State} (h : s.Legal) {q : QueueId} {v : Queue} (hv : v.Legal s.cfg q) : (s.setQueue q v).Legal := by
  have hall : ∀ q', ((s.setQueue q v).queue q').Legal s.cfg q' := by
    intro q'
    by_cases hq : q' = q
    · subst hq
      rwa [State.setQueue_queue_self]
    · rw [State.setQueue_queue_of_ne s v hq]
      exact h.queueLegal q'
  exact
    { h with
      rdRange := fun q' => (hall q').rdRange
      wrRange := fun q' => (hall q').wrRange
      countLe := fun q' => (hall q').countLe
      producerRoom := fun q' => (hall q').producerRoom
      consumerItem := fun q' => (hall q').consumerItem }

/-- A fault sets FVALID and one of the six fault bits (R302). -/
theorem takeFault {s : State} (h : s.Legal) (k : FaultKind) (w : Word) : (s.takeFault k w).Legal := by
  have hbit : (s.takeFault k w).fault.getLsbD (faultBit k) = true := by simp [takeFault_bit]
  have hvalid : (s.takeFault k w).fault.getLsbD 7 = true := by
    rw [takeFault_bit]
    cases hv : s.faultValid
    · simp
    · simpa using Or.inr (show s.fault.getLsbD 7 = true from hv)
  have hsome : (s.takeFault k w).fault.extractLsb' 0 6 ≠ 0 := by
    intro hzero
    have hk : faultBit k < 6 := by cases k <;> decide
    have := congrArg (·.getLsbD (faultBit k)) hzero
    simp [hk, hbit] at this
  exact
    { h with
      faultFirst := fun hfirst => absurd (hfirst.symm.trans hvalid) Bool.false_ne_true
      faultSome := fun _ => hsome }

/-- A write keeps slot memory canonical, its open bytes without a written one, and both inside the slot ranges. -/
theorem storeByte {s : State} (h : s.Legal) (a : Addr) (v : Byte) : (s.storeByte a v).Legal := by
  have hself : BitVec.ofNat 24 a.toNat = a := by simp
  rcases s.storeByte_cases a v with ⟨_, hs⟩ | ⟨hin, _, hs⟩ | ⟨hin, _, hs⟩ <;> rw [hs]
  case inl => exact h
  case inr.inl =>
    exact
      { h with
        memWf := Memory.wf_write s.mem v a.isLt h.memWf
        racyWf := addressesWf_dropAddress s.racy a.toNat h.racyWf
        racyOpen := fun b hb => by
          have hne : b ≠ a.toNat := fun hba => not_mem_dropAddress s.racy a.toNat h.racyWf (hba ▸ hb)
          exact (Memory.read_write_of_ne s.mem v hne).trans (h.racyOpen b ((dropAddress_sublist _ _).subset hb))
        memInside := fun x hx => by
          rcases Memory.mem_write s.mem a.toNat v hx with rfl | hx
          · rwa [hself]
          · exact h.memInside x hx
        racyInside := fun b hb => h.racyInside b ((dropAddress_sublist _ _).subset hb) }
  case inr.inr =>
    exact
      { h with
        memWf := Memory.wf_erase s.mem a.toNat h.memWf
        racyWf := addressesWf_addAddress s.racy a.isLt h.racyWf
        racyOpen := fun b hb => by
          by_cases hba : b = a.toNat
          · rw [hba]
            exact Memory.read_erase_same s.mem a.toNat h.memWf
          · exact (Memory.read_erase_of_ne s.mem hba).trans
              (h.racyOpen b (((mem_addAddress _ _).mp hb).resolve_left hba))
        memInside := fun x hx => h.memInside x ((Memory.erase_sublist _ _).subset hx)
        racyInside := fun b hb => by
          rcases (mem_addAddress _ _).mp hb with rfl | hb
          · rwa [hself]
          · exact h.racyInside b hb }

end State.Legal

/-! ### The effect of a command on a legal state -/

/-- The channel a hop lands on is a data channel (R205, R206). -/
theorem hopChannel_le {u : Nat} (hu : u ≤ 36) (m : ChanMap) : hopChannel u m ≤ 36 := by
  unfold hopChannel
  split
  · rw [List.getD_eq_getElem?_getD]
    cases hget : (usedChannels m)[u % popcount m]? with
    | none => simp
    | some k => exact Nat.lt_succ_iff.mp ((mem_usedChannels m k).mp (List.mem_of_getElem? hget)).1
  · exact hu

/-- The unmapped channel after a hop is a data channel (R206). -/
theorem hopUnmapped_le (c : BitVec 6) (h : BitVec 5) : hopUnmapped c h ≤ 36 :=
  Nat.lt_succ_iff.mp (Nat.mod_lt _ (by decide))

/-- Narrowing a number makes it no greater. -/
theorem toNat_ofNat_le {n x b : Nat} (h : x ≤ b) : (BitVec.ofNat n x).toNat ≤ b := by
  rw [BitVec.toNat_ofNat]
  exact (Nat.mod_le _ _).trans h

/-- CNT after a feed, as a number (R142). -/
theorem cntNext_toNat (n : BitVec 12) : (cntNext n).toNat = min (n.toNat + 1) 4095 := by
  rw [cntNext, BitVec.toNat_ofNat, Nat.mod_eq_of_lt (by omega)]

/-- The effect of a command whose checks passed keeps a legal state legal: each unit's own clauses, and nothing of the others. -/
theorem State.Legal.effectOf {s : State} (h : s.Legal) {i : Instr} (hchecks : ∀ c ∈ checksOf s i, c.1 = true) :
    (effectOf s i).Legal := by
  have hcap := cap_of_wellFormed h.config
  cases i with
  | crcInit iv => exact { h with headersFirst := ⟨fun _ => rfl, fun _ => rfl⟩ }
  | crcFeed b =>
    refine { h with headersFirst := ⟨fun hzero => ?_, fun hlt => ?_⟩ }
    · have hnext : (cntNext s.cnt).toNat = 0 := congrArg BitVec.toNat hzero
      rw [cntNext_toNat] at hnext
      omega
    · replace hlt : (cntNext s.cnt).toNat < 2 := hlt
      rw [cntNext_toNat] at hlt
      have hone : s.cnt ≠ 1 := fun hone => by simp [hone] at hlt
      exact (if_neg hone).trans (h.headersFirst.2 (by omega))
  | pqAcq q => exact h.setQueue (h.queueLegal q).producerAcquired
  | pqCommit q =>
    have hhold : (s.queue q).ph ≠ .noHold := by simpa [checksOf] using hchecks
    exact h.setQueue ((h.queueLegal q).producerDone (hcap q).2 hhold)
  | cqAcq q => exact h.setQueue (h.queueLegal q).consumerAcquired
  | cqRel q =>
    have hhold : (s.queue q).ch ≠ .noHold := by simpa [checksOf] using hchecks
    exact h.setQueue ((h.queueLegal q).consumerDone (hcap q).2 hhold)
  | qFlush q => exact h.setQueue (.of_zero (hcap q).1 (holdFlushed_ne_held _) (holdFlushed_ne_held _))
  | hopSethop x =>
    have hx : hopLegal x = true := by simpa [checksOf] using hchecks
    exact { h with shLegal := .inr ((hopLegal_iff x).mp hx) }
  | hopCommit am ah =>
    obtain ⟨hsh, hstg⟩ : (ah = false ∨ hopLegal s.hopSh = true) ∧
        (am = false ∨ Config.minUsed ≤ popcount s.hopStg) := by
      simpa [checksOf] using hchecks
    refine { h with mapLegal := ?_, hLegal := ?_ }
    · cases am with
      | false => exact h.mapLegal
      | true => exact .inr (hstg.resolve_left nofun)
    · cases ah with
      | false => exact h.hLegal
      | true => exact .inr ((hopLegal_iff _).mp (hsh.resolve_left nofun))
  | hopSetunm x =>
    have hx : channelLegal x = true := by simpa [checksOf] using hchecks
    exact { h with unmLegal := (channelLegal_iff x).mp hx }
  | hopNext =>
    have hunm := hopUnmapped_le s.hopUnm s.hopH
    exact { h with unmLegal := toNat_ofNat_le hunm, chanLegal := toNat_ofNat_le (hopChannel_le hunm s.hopMap) }
  | hopStglo | hopStghi | arqReset | arqRx | arqRxx => exact { h with }
  | sysNop | sysRdfault | sysRdfcmd | crcRead | crcStat | crcTxb | qStat | hopRead | hopRdmap | arqTxhdr | arqRead =>
    exact h

/-! ### The legal states of the machine -/

/-- Settles O60: every register is 0, nothing is held and slot memory holds no written byte. -/
theorem resetIsLegal : Obligations.ResetIsLegal := by
  intro c hc
  have hqueue : ∀ q, ((State.resetWith c).queue q).Legal c q := fun q => by
    cases q <;> exact .of_zero (cap_of_wellFormed hc _).1 nofun nofun
  exact
    { config := hc
      rdRange := fun q => (hqueue q).rdRange
      wrRange := fun q => (hqueue q).wrRange
      countLe := fun q => (hqueue q).countLe
      producerRoom := fun q => (hqueue q).producerRoom
      consumerItem := fun q => (hqueue q).consumerItem
      mapLegal := .inl rfl
      hLegal := .inl rfl
      shLegal := .inl rfl
      unmLegal := Nat.zero_le _
      chanLegal := Nat.zero_le _
      faultFirst := fun _ => ⟨rfl, rfl⟩
      faultSome := by simp [State.resetWith]
      headersFirst := ⟨fun _ => rfl, fun _ => rfl⟩
      memWf := Memory.wf_nil
      racyWf := rfl
      racyOpen := nofun
      memInside := nofun
      racyInside := nofun }

/-- The reset input leaves a legal state: that after reset, but for the ports and the model's counters (R340). -/
theorem State.Legal.applyReset {s : State} (h : s.Legal) : s.applyReset.Legal :=
  { resetIsLegal s.cfg h.config with }

/-- Serving a request keeps a legal state legal. -/
theorem State.Legal.serve {r : Request} {s t : State} (h : s.Legal) (hserve : serve r s = .next t) : t.Legal := by
  rcases serve_next_cases hserve with ⟨k, w, r, rfl⟩ | ⟨i, r, hchecks, rfl⟩ | ⟨n, r, rfl⟩ | ⟨a, v, r, rfl⟩
  case inl => exact (h.takeFault k w).respond r
  case inr.inl => exact (h.effectOf hchecks).respond r
  case inr.inr.inl => exact { h with }
  case inr.inr.inr => exact (h.storeByte a v).respond r

/-- Settles O59: reset gives a legal state, waiting keeps the state, and a served request keeps each clause. -/
theorem stepKeepsLegal : Obligations.StepKeepsLegal := by
  intro s t h hstep
  rcases step_cases s with ⟨_, hs⟩ | ⟨_, _, hs⟩ | ⟨_, _, _, _, hs⟩ | ⟨_, _, p, r, _, _, hs⟩ <;> rw [hs] at hstep
  case inl => cases hstep
  case inr.inl =>
    cases hstep
    exact h.applyReset
  case inr.inr.inl =>
    cases hstep
    exact h
  case inr.inr.inr => exact (h.grant p).serve hstep

end Sys2Proof.Machine

/-! PROOFS. What a command changes at most: a queue's indices, slot memory, the active map and increment, the fault registers
(10_state.md). -/

namespace Sys2Proof.Machine

/-! ### The indices of a queue (R170) -/

/-- Only the registers of the queue that was written can differ. -/
theorem State.eq_of_setQueue_ne {α : Type} (f : Queue → α) {s : State} {q q' : QueueId} {v : Queue}
    (h : f ((s.setQueue q' v).queue q) ≠ f (s.queue q)) : q' = q ∧ f v ≠ f (s.queue q) := by
  by_cases hq : q = q'
  · subst hq
    rw [State.setQueue_queue_self] at h
    exact ⟨rfl, h⟩
  · exact absurd (congrArg f (s.setQueue_queue_of_ne v hq)) h

/-- The effects that write WR are those of PQ.COMMIT and Q.FLUSH. -/
theorem effectOf_wr_ne {s : State} {i : Instr} {q : QueueId}
    (h : ((effectOf s i).queue q).wr ≠ (s.queue q).wr) : i = .pqCommit q ∨ i = .qFlush q := by
  cases i with
  | pqCommit q' => exact .inl (congrArg _ (State.eq_of_setQueue_ne Queue.wr h).1)
  | qFlush q' => exact .inr (congrArg _ (State.eq_of_setQueue_ne Queue.wr h).1)
  | pqAcq q' =>
    obtain ⟨rfl, hne⟩ := State.eq_of_setQueue_ne Queue.wr h
    exact absurd (producerAcquired_wr _ _ _) hne
  | cqAcq q' =>
    obtain ⟨rfl, hne⟩ := State.eq_of_setQueue_ne Queue.wr h
    exact absurd (consumerAcquired_wr _ _ _) hne
  | cqRel q' =>
    obtain ⟨rfl, hne⟩ := State.eq_of_setQueue_ne Queue.wr h
    exact absurd (consumerDone_wr _ _ _) hne
  | _ => exact absurd (by cases q <;> rfl) h

/-- The effects that write RD are those of CQ.REL and Q.FLUSH. -/
theorem effectOf_rd_ne {s : State} {i : Instr} {q : QueueId}
    (h : ((effectOf s i).queue q).rd ≠ (s.queue q).rd) : i = .cqRel q ∨ i = .qFlush q := by
  cases i with
  | cqRel q' => exact .inl (congrArg _ (State.eq_of_setQueue_ne Queue.rd h).1)
  | qFlush q' => exact .inr (congrArg _ (State.eq_of_setQueue_ne Queue.rd h).1)
  | pqAcq q' =>
    obtain ⟨rfl, hne⟩ := State.eq_of_setQueue_ne Queue.rd h
    exact absurd (producerAcquired_rd _ _ _) hne
  | cqAcq q' =>
    obtain ⟨rfl, hne⟩ := State.eq_of_setQueue_ne Queue.rd h
    exact absurd (consumerAcquired_rd _ _ _) hne
  | pqCommit q' =>
    obtain ⟨rfl, hne⟩ := State.eq_of_setQueue_ne Queue.rd h
    exact absurd (producerDone_rd _ _ _) hne
  | _ => exact absurd (by cases q <;> rfl) h

/-- Settles O28: a fault writes no index, and of the effects only those two write it, on the port that has the right. -/
theorem indicesHaveOneWriter : Obligations.IndicesHaveOneWriter := by
  intro i s t q h
  rcases exec_next_cases h with ⟨k, w, r, rfl⟩ | ⟨hport, _, r, rfl⟩
  · rw [State.respond_queue, State.takeFault_queue]
    exact ⟨fun hne => absurd rfl hne, fun hne => absurd rfl hne⟩
  · rw [State.respond_queue]
    constructor <;> intro hne
    · rcases effectOf_wr_ne hne with rfl | rfl
      · exact .inl ⟨rfl, by simpa [portMay] using hport⟩
      · exact .inr ⟨rfl, by simpa [portMay] using hport⟩
    · rcases effectOf_rd_ne hne with rfl | rfl
      · exact .inl ⟨rfl, by simpa [portMay] using hport⟩
      · exact .inr ⟨rfl, by simpa [portMay] using hport⟩

/-! ### Slot memory (R60) -/

/-- A result with its state's slot memory replaced. -/
def withSlotMemory (m : Memory) (l : List Nat) (n : Nat) : StepResult → StepResult :=
  mapNext fun t => t.withSlotMemory m l n

/-- The checks decide the same outcome in any slot memory, if the command's rule gives the same. -/
theorem runChecks_withSlotMemory {w : Word} {s : State} {m : Memory} {l : List Nat} {n : Nat} {body body' : StepResult}
    (h : body' = withSlotMemory m l n body) (cs : List (Bool × FaultKind)) :
    runChecks w (s.withSlotMemory m l n) body' cs = withSlotMemory m l n (runChecks w s body cs) := by
  induction cs with
  | nil => exact h
  | cons c rest ih =>
    obtain ⟨good, k⟩ := c
    cases good with
    | false => rfl
    | true => exact ih

/-- A command's checks and rule do the same in any slot memory, if its rule does. -/
theorem checked_withSlotMemory {i : Instr} {s : State} {m : Memory} {l : List Nat} {n : Nat}
    {cs : List (Bool × FaultKind)} {body body' : StepResult} (h : body' = withSlotMemory m l n body) :
    checked i (s.withSlotMemory m l n) cs body' = withSlotMemory m l n (checked i s cs body) :=
  runChecks_withSlotMemory h _

/-- Every command does the same in any slot memory: those of either port have no check to fail, the others check no slot memory, and
those that choose between answers choose by a queue's registers. -/
theorem exec_withSlotMemory (i : Instr) (s : State) (m : Memory) (l : List Nat) (n : Nat) :
    exec i (s.withSlotMemory m l n) = withSlotMemory m l n (exec i s) := by
  cases i with
  | sysNop | sysRdfault | sysRdfcmd _ | qStat _ _ => rfl
  | pqAcq q | cqAcq q =>
    refine checked_withSlotMemory ?_
    rw [apply_ite (withSlotMemory m l n), apply_ite (withSlotMemory m l n)]
    rfl
  | pqCommit q | cqRel q =>
    refine checked_withSlotMemory ?_
    rw [apply_ite (withSlotMemory m l n)]
    rfl
  | _ => exact checked_withSlotMemory rfl

/-- Settles O32: each command's rule reads no slot memory, and the frame of every command has it. -/
theorem commandsIgnoreSlotMemory : Obligations.CommandsIgnoreSlotMemory := by
  refine fun i s m l n => ⟨exec_withSlotMemory i s m l n, fun t a h => ?_⟩
  obtain ⟨_, hmem, hracy, _, _, _, _, _, hresets⟩ := exec_frame h
  rw [slotByte, slotByte, hmem, hracy, hresets]

/-! ### The active map and increment (R219) -/

/-- The effect that writes MAP or H is that of HOP.COMMIT. -/
theorem effectOf_hop_ne {s : State} {i : Instr} (h : (effectOf s i).hopMap ≠ s.hopMap ∨ (effectOf s i).hopH ≠ s.hopH) :
    ∃ am ah, i = .hopCommit am ah := by
  cases i with
  | hopCommit am ah => exact ⟨am, ah, rfl⟩
  | _ => exact absurd h (not_or.mpr ⟨not_not.mpr rfl, not_not.mpr rfl⟩)

/-- Settles O38: a fault writes neither, and of the effects only HOP.COMMIT's does, with the staged values. -/
theorem onlyCommitChangesMapAndIncrement : Obligations.OnlyCommitChangesMapAndIncrement := by
  intro i s t h hne
  rcases exec_next_cases h with ⟨k, w, r, rfl⟩ | ⟨hport, _, r, rfl⟩
  · simp at hne
  · obtain ⟨am, ah, rfl⟩ := effectOf_hop_ne hne
    exact ⟨am, ah, rfl, by simpa [portMay] using hport, rfl, rfl⟩

/-! ### The fault registers (R302) -/

/-- From `s` to `t` no bit of FAULT but FPORT is cleared, and a recorded first fault stays as it is (R23, R24). -/
def KeepsFaultRecord (s t : State) : Prop :=
  (∀ j, j ≠ 6 → s.fault.getLsbD j = true → t.fault.getLsbD j = true) ∧
    (s.fault.getLsbD 7 = true → t.fault.getLsbD 6 = s.fault.getLsbD 6 ∧ t.fcmd = s.fcmd)

/-- What writes neither register keeps the record. -/
theorem KeepsFaultRecord.of_eq {s t : State} (hfault : t.fault = s.fault) (hfcmd : t.fcmd = s.fcmd) :
    KeepsFaultRecord s t := by
  refine ⟨fun j _ hj => ?_, fun _ => ⟨?_, hfcmd⟩⟩
  · rwa [hfault]
  · rw [hfault]

/-- A fault only sets bits, and writes FPORT and FCMD only as the first one (R302). -/
theorem KeepsFaultRecord.takeFault (s : State) (k : FaultKind) (w : Word) : KeepsFaultRecord s (s.takeFault k w) := by
  have hk : 6 ≠ faultBit k := by cases k <;> decide
  refine ⟨fun j hj6 hj => ?_, fun hvalid => ?_⟩
  · rw [takeFault_bit]
    split_ifs with _ _ hport
    · rfl
    · rfl
    · exact absurd hport.2 hj6
    · exact hj
  · have hv : s.faultValid = true := hvalid
    rw [takeFault_bit, State.takeFault_fcmd, hv, if_neg hk]
    simp

/-- An effect writes neither FAULT nor FCMD. -/
theorem KeepsFaultRecord.effectOf (s : State) (i : Instr) : KeepsFaultRecord s (effectOf s i) := by
  have hunits : _ = _ := effectOf_unitsOnly s i
  exact .of_eq (by rw [hunits]) (by rw [hunits])

/-- A byte stored writes neither FAULT nor FCMD. -/
theorem KeepsFaultRecord.storeByte (s : State) (a : Addr) (v : Byte) : KeepsFaultRecord s (s.storeByte a v) := by
  obtain ⟨m, l, h⟩ := s.storeByte_frame a v
  exact .of_eq (by rw [h]) (by rw [h])

/-- Settles O56: waiting writes nothing, and of what a served request can do only a fault writes the two registers. -/
theorem faultRegistersAreSticky : Obligations.FaultRegistersAreSticky := by
  intro s t hstep hreset
  rcases step_cases s with ⟨_, hs⟩ | ⟨_, hin, _⟩ | ⟨_, _, _, _, hs⟩ | ⟨_, _, p, r, _, _, hs⟩
  case inl => cases hs.symm.trans hstep
  case inr.inl => cases hreset.symm.trans hin
  case inr.inr.inl =>
    cases hs.symm.trans hstep
    exact KeepsFaultRecord.of_eq rfl rfl
  case inr.inr.inr =>
    rcases serve_next_cases (hs.symm.trans hstep) with ⟨k, w, r, rfl⟩ | ⟨i, r, _, rfl⟩ | ⟨n, r, rfl⟩ | ⟨a, v, r, rfl⟩
    case inl => exact KeepsFaultRecord.takeFault (s.grant p) k w
    case inr.inl => exact KeepsFaultRecord.effectOf (s.grant p) i
    case inr.inr.inl => exact KeepsFaultRecord.of_eq rfl rfl
    case inr.inr.inr => exact KeepsFaultRecord.storeByte (s.grant p) a v

end Sys2Proof.Machine

/-! PROOFS. The first commands after reset (70_reset_and_hazards.md R343), from what the commands of each unit do in any state. -/

namespace Sys2Proof.Machine

/-- The registers of either queue after reset (R340). -/
theorem queue_resetWith (c : Config) (q : QueueId) : (State.resetWith c).queue q = Queue.reset := by
  cases q <;> rfl

/-- A queue with slots is empty and not full after reset (R33). -/
theorem queueFlags_reset {c : Config} {q : QueueId} (hc : 1 ≤ c.cap q) :
    queueEmpty c q Queue.reset = true ∧ queueFull c q Queue.reset = false := by
  have hcount : queueCount c q Queue.reset = 0 := queueCount_zero c q _ _
  rw [queueEmpty, queueFull, hcount]
  exact ⟨rfl, beq_eq_false_iff_ne.mpr (by omega)⟩

/-! ### Acquiring a slot -/

/-- PQ.ACQ by the producer, with no hold and with room, answers the slot at WR and takes the hold (R172). -/
theorem exec_pqAcq_of_room {s : State} {q : QueueId} (hport : s.port = prod q) (hhold : (s.queue q).ph ≠ .held)
    (hroom : queueFull s.cfg q (s.queue q) = false) :
    exec (.pqAcq q) s =
      answer .ok ((slotAddr s.cfg q (s.queue q).wr).setWidth 28) (s.setQueue q { s.queue q with ph := .held }) := by
  refine (checked_of_good (.pqAcq q) s [] _ (by simp [portMay, hport]) nofun).trans ?_
  rw [if_neg hhold, hroom, if_neg Bool.false_ne_true]

/-- CQ.ACQ by the consumer, with no hold and no item, answers EMPTY (R174). -/
theorem exec_cqAcq_of_empty {s : State} {q : QueueId} (hport : s.port = cons q) (hhold : (s.queue q).ch ≠ .held)
    (hempty : queueEmpty s.cfg q (s.queue q) = true) : exec (.cqAcq q) s = answer .empty 0 s := by
  refine (checked_of_good (.cqAcq q) s [] _ (by simp [portMay, hport]) nofun).trans ?_
  rw [if_neg hhold, hempty, if_pos rfl]

/-- The first slot begins at the queue's base address (R63). -/
theorem slotAddr_zero (c : Config) (q : QueueId) : slotAddr c q 0 = BitVec.ofNat 24 (c.qbase q) := by
  simp [slotAddr, slotOf, slotBase]

/-- An address answered with OK is the result word's low bits (R93). -/
theorem resultWord_ok_addr (a : Addr) : resultWord .ok (a.setWidth 28) = (0 : BitVec 8) ++ a := by
  refine BitVec.eq_of_getLsbD_eq fun j hj => ?_
  simp only [resultWord, statusCode, BitVec.getLsbD_append, BitVec.getLsbD_setWidth]
  by_cases h24 : j < 24
  · simp [h24, show j < 28 by omega]
  · by_cases h28 : j < 28 <;> simp [h24, h28, BitVec.getLsbD_of_ge a j (by omega)]

/-! ### The hop unit's command sequences -/

/-- The map, the staged map, the increment and the staged increment of a state. -/
structure State.HopIs (s : State) (map stg : ChanMap) (h sh : BitVec 5) : Prop where
  map : s.hopMap = map
  stg : s.hopStg = stg
  h : s.hopH = h
  sh : s.hopSh = sh

section
variable {s : State} {map stg : ChanMap} {h sh : BitVec 5} (hs : s.HopIs map stg h sh)
include hs

/-- HOP.SETHOP of a legal increment stages it (R210). -/
theorem issue_hopSethop {x : BitVec 5} (hx : hopLegal x = true) :
    ∃ t, issue .I (.hopSethop x) s = .next t ∧ t.HopIs map stg h x := by
  obtain ⟨r, hr⟩ := issue_of_good (p := .I) (i := .hopSethop x) (s := s) rfl (by simpa [checksOf] using hx)
  exact ⟨_, hr, { hs with sh := rfl }⟩

/-- HOP.STGLO stages the low part of a map (R211). -/
theorem issue_hopStglo (m : BitVec 24) :
    ∃ t, issue .I (.hopStglo m) s = .next t ∧ t.HopIs map (stg.extractLsb' 24 13 ++ m) h sh := by
  obtain ⟨r, hr⟩ := issue_of_good (p := .I) (i := .hopStglo m) (s := s) rfl (by simp [checksOf])
  exact ⟨_, hr, { hs with stg := congrArg (·.extractLsb' 24 13 ++ m) hs.stg }⟩

/-- HOP.STGHI stages the high part of a map (R212). -/
theorem issue_hopStghi (m : BitVec 13) :
    ∃ t, issue .I (.hopStghi m) s = .next t ∧ t.HopIs map (m ++ stg.extractLsb' 0 24) h sh := by
  obtain ⟨r, hr⟩ := issue_of_good (p := .I) (i := .hopStghi m) (s := s) rfl (by simp [checksOf])
  exact ⟨_, hr, { hs with stg := congrArg (m ++ ·.extractLsb' 0 24) hs.stg }⟩

/-- HOP.COMMIT of legal staged values installs those its operands name (R218). -/
theorem issue_hopCommit (am ah : Bool) (hstg : 2 ≤ popcount stg) (hsh : hopLegal sh = true) :
    ∃ t, issue .I (.hopCommit am ah) s = .next t ∧ t.HopIs (if am then stg else map) stg (if ah then sh else h) sh := by
  obtain ⟨rfl, rfl, rfl, rfl⟩ := hs
  have hminUsed : Config.minUsed ≤ popcount s.hopStg := hstg
  obtain ⟨r, hr⟩ := issue_of_good (p := .I) (i := .hopCommit am ah) (s := s) rfl (by simp [checksOf, hminUsed, hsh])
  exact ⟨_, hr, ⟨rfl, rfl, rfl, rfl⟩⟩

end

/-- The two parts of a map, staged one after the other over any staged map, give the map (R101). -/
theorem stagedMap_eq (m stg : ChanMap) :
    m.extractLsb' 24 13 ++ (stg.extractLsb' 24 13 ++ m.extractLsb' 0 24 : ChanMap).extractLsb' 0 24 = m := by
  refine BitVec.eq_of_getLsbD_eq fun j hj => ?_
  simp only [BitVec.getLsbD_append, BitVec.getLsbD_extractLsb']
  by_cases h24 : j < 24
  · simp [h24]
  · simp [h24, show j - 24 < 13 by omega, show 24 + (j - 24) = j by omega]

/-- The first command of a sequence, and then the rest. -/
theorem issueAll_cons {p : Port} {i : Instr} {rest : List (Port × Instr)} {s t : State} (h : issue p i s = .next t) :
    issueAll ((p, i) :: rest) s = issueAll rest t := by
  rw [issueAll, h]

/-- HOP.NEXT always answers, and answers EUNCONF exactly while the unit is unconfigured (R223). -/
theorem issue_hopNext (s : State) :
    ∃ t, issue .I .hopNext s = .next t ∧ (t.respI = .result 0x70000000 ↔ hopConfigured s = false) := by
  have hissue : issue .I .hopNext s = runChecks _ _ _ [(hopConfigured s, .unconf)] := 
    checked_of_right .hopNext { s with port := .I } _ _ rfl
  rw [hissue]
  cases hopConfigured s with
  | false => exact ⟨_, rfl, iff_of_true rfl rfl⟩
  | true =>
    refine ⟨_, rfl, iff_of_false (fun hresp => ?_) nofun⟩
    have hstatus := congrArg (·.extractLsb' 28 4) (Response.result.inj hresp)
    rw [resultWord_status] at hstatus
    exact absurd hstatus (by decide)

/-- The empty map has no used channel. -/
@[simp] theorem popcount_zero : popcount 0 = 0 := by decide

/-- A unit in which a legal map and a legal increment may each have been installed, where there were none, is configured exactly
when both were (R42, R43). -/
theorem hopConfigured_iff_installed {s : State} {m stg : ChanMap} {h sh : BitVec 5} {a b : Bool} (hm : 2 ≤ popcount m)
    (hh : hopLegal h = true) (hs : s.HopIs (if a then m else 0) stg (if b then h else 0) sh) :
    hopConfigured s = true ↔ a = true ∧ b = true := by
  rw [hopConfigured_iff, ← hopLegal_iff, hs.map, hs.h]
  have hzero : hopLegal 0#5 = false := by decide
  cases a
  · rw [if_neg Bool.false_ne_true, popcount_zero]
    simp
  · cases b <;> simp [hm, hh, hzero]

/-- Installing a value twice over is installing it if either does. -/
theorem ite_ite_same_eq_or {α : Type} (a b : Bool) (x y : α) :
    (if b then x else if a then x else y) = if a || b then x else y := by
  cases a <;> cases b <;> rfl

/-- R343's sequence: staging a legal increment and map and committing twice leaves HOP.NEXT unconfigured unless the two commits
installed both. -/
theorem issueAll_stage_commit_commit_next {s : State} {stg : ChanMap} {sh : BitVec 5} (hs : s.HopIs 0 stg 0 sh)
    {h : BitVec 5} {m : ChanMap} (am ah bm bh : Bool) (hh : hopLegal h = true) (hm : 2 ≤ popcount m) :
    ∃ t, issueAll (onPort .I ([.hopSethop h] ++ pseudoStageMap m ++ [.hopCommit am ah, .hopCommit bm bh, .hopNext])) s =
        .next t ∧
      (t.respI = .result 0x70000000 ↔ ¬ ((am || bm) = true ∧ (ah || bh) = true)) := by
  obtain ⟨t₁, h₁, hs₁⟩ := issue_hopSethop hs hh
  obtain ⟨t₂, h₂, hs₂⟩ := issue_hopStglo hs₁ (m.extractLsb' 0 24)
  obtain ⟨t₃, h₃, hs₃⟩ := issue_hopStghi hs₂ (m.extractLsb' 24 13)
  rw [stagedMap_eq] at hs₃
  obtain ⟨t₄, h₄, hs₄⟩ := issue_hopCommit hs₃ am ah hm hh
  obtain ⟨t₅, h₅, hs₅⟩ := issue_hopCommit hs₄ bm bh hm hh
  rw [ite_ite_same_eq_or, ite_ite_same_eq_or] at hs₅
  obtain ⟨t₆, h₆, hnext⟩ := issue_hopNext t₅
  refine ⟨t₆, ?_, ?_⟩
  · calc
      _ = issueAll (onPort .I [.hopStglo _, .hopStghi _, .hopCommit am ah, .hopCommit bm bh, .hopNext]) t₁ :=
        issueAll_cons h₁
      _ = issueAll (onPort .I [.hopStghi _, .hopCommit am ah, .hopCommit bm bh, .hopNext]) t₂ := issueAll_cons h₂
      _ = issueAll (onPort .I [.hopCommit am ah, .hopCommit bm bh, .hopNext]) t₃ := issueAll_cons h₃
      _ = issueAll (onPort .I [.hopCommit bm bh, .hopNext]) t₄ := issueAll_cons h₄
      _ = issueAll (onPort .I [.hopNext]) t₅ := issueAll_cons h₅
      _ = .next t₆ := issueAll_cons h₆
  · rw [hnext, ← Bool.not_eq_true, hopConfigured_iff_installed hm hh hs₅]

/-! ### The judgement of a received packet -/

/-- VALID is bit 0 of the result word (R259). -/
theorem rxData_bit_zero (s : State) (k : RxPacket) : (resultWord .ok (rxData s k)).getLsbD 0 = rxValid s.cfg k := by
  simp only [resultWord, rxData, BitVec.getLsbD_append, BitVec.getLsbD_setWidth]
  simp

/-- An invalid packet moves no sequence bit (R263). -/
theorem rxNext_of_invalid {s : State} {k : RxPacket} (h : rxValid s.cfg k = false) :
    rxSnNext s k = s.arqSn ∧ rxNesnNext s k = s.arqNesn := by
  simp [rxSnNext, rxNesnNext, rxAcked, rxNew, h]

/-- After a valid packet SN is its NESN: acknowledged, SN moves to it, and else it is that already (R255, R259). -/
theorem rxSnNext_of_valid {s : State} {k : RxPacket} (h : rxValid s.cfg k = true) : rxSnNext s k = hdrNesn k.h0 := by
  rw [rxSnNext, rxAcked, h]
  cases s.arqSn <;> cases hdrNesn k.h0 <;> rfl

/-- After a valid packet NESN has moved if the packet is new and accepted (R254, R259). -/
theorem rxNesnNext_of_valid {s : State} {k : RxPacket} (h : rxValid s.cfg k = true) :
    rxNesnNext s k = (s.arqNesn ^^ ((hdrSn k.h0 == s.arqNesn) && rxEacc k)) := by
  rw [rxNesnNext, rxNew, h, Bool.true_and]

/-- The packet of ARQ.RX right after reset: no byte was fed, so its length cannot be right. -/
theorem rxValid_resetWith (c : Config) (accept : Bool) : rxValid c (crcPacket accept (State.resetWith c)) = false := by
  simp [rxValid, crcPacket, lenOk, State.resetWith]

/-- A packet with its three verdicts good is valid (R257). -/
theorem rxValid_of_header {c : Config} {h0 h1 : Byte} (accept : Bool) (hllid : h0.extractLsb' 0 2 ≠ 0)
    (hlen : h1.toNat ≤ c.maxPayload) :
    rxValid c { h0 := h0, h1 := h1, crcOk := true, lenOk := true, accept := accept } = true := by
  have hlegal : headerLegal c (hdrLlid h0) h1 = true := (headerLegal_iff c _ h1).mpr ⟨hllid, hlen⟩
  simpa [rxValid, rxHdrOk] using hlegal

/-! ### Right after reset -/

/-- The SYS unit has recorded no fault. -/
theorem issue_sysRdfault_resetWith (c : Config) (p : Port) :
    ∃ t, issue p .sysRdfault (State.resetWith c) = .next t ∧ t.response p = .result 0x00000000 := by
  have hword : resultWord .ok ((0 : BitVec 8).setWidth 28) = 0x00000000 := by decide
  exact ⟨_, rfl, (State.respond_response_self { State.resetWith c with port := p } _).trans (congrArg _ hword)⟩

/-- The CRC register is 0, and so ZERO is set. -/
theorem issue_crcRead_resetWith (c : Config) :
    ∃ t, issue .I .crcRead (State.resetWith c) = .next t ∧ t.respI = .result 0x01000000 := by
  have hword : resultWord .ok (crcData 0) = 0x01000000 := by decide
  exact ⟨_, rfl, congrArg Response.result hword⟩

/-- The producer of either queue is given slot 0. -/
theorem issue_pqAcq_resetWith {c : Config} (q : QueueId) (hc : 1 ≤ c.cap q) :
    ∃ t, issue (prod q) (.pqAcq q) (State.resetWith c) = .next t ∧ (t.queue q).ph = .held ∧
      t.response (prod q) = .result ((0 : BitVec 8) ++ BitVec.ofNat 24 (c.qbase q)) := by
  have hqueue : ({ State.resetWith c with port := prod q } : State).queue q = Queue.reset := queue_resetWith c q
  have hexec := exec_pqAcq_of_room (s := { State.resetWith c with port := prod q }) rfl (by rw [hqueue]; nofun)
    (by rw [hqueue]; exact (queueFlags_reset hc).2)
  rw [hqueue] at hexec
  refine ⟨_, hexec, ?_, (State.respond_response_self _ _).trans (congrArg Response.result ?_)⟩
  · rw [State.respond_queue, State.setQueue_queue_self]
  · exact (resultWord_ok_addr _).trans (congrArg _ (slotAddr_zero c q))

/-- The consumer of either queue finds it empty. -/
theorem issue_cqAcq_resetWith {c : Config} (q : QueueId) (hc : 1 ≤ c.cap q) :
    ∃ t, issue (cons q) (.cqAcq q) (State.resetWith c) = .next t ∧ t.response (cons q) = .result 0x20000000 := by
  have hqueue : ({ State.resetWith c with port := cons q } : State).queue q = Queue.reset := queue_resetWith c q
  have hexec := exec_cqAcq_of_empty (s := { State.resetWith c with port := cons q }) rfl (by rw [hqueue]; nofun)
    (by rw [hqueue]; exact (queueFlags_reset hc).1)
  exact ⟨_, hexec, State.respond_response_self _ _⟩

/-- The sequence bits are 0. -/
theorem issue_arqRead_resetWith (c : Config) :
    ∃ t, issue .I .arqRead (State.resetWith c) = .next t ∧ t.respI = .result 0x00000000 := by
  have hword : resultWord .ok ((BitVec.ofBool false ++ BitVec.ofBool false).setWidth 28) = 0x00000000 := by decide
  exact ⟨_, rfl, congrArg Response.result hword⟩

/-- With no byte fed there is no valid packet, and the sequence bits stay. -/
theorem issue_arqRx_resetWith (c : Config) (accept : Bool) :
    ∃ t w, issue .I (.arqRx accept) (State.resetWith c) = .next t ∧ t.respI = .result w ∧ w.getLsbD 0 = false ∧
      t.arqSn = false ∧ t.arqNesn = false := by
  have hvalid := rxValid_resetWith c accept
  obtain ⟨hsn, hnesn⟩ := rxNext_of_invalid (s := { State.resetWith c with port := .I }) hvalid
  exact ⟨_, _, rfl, rfl, (rxData_bit_zero _ _).trans hvalid, hsn, hnesn⟩

/-- A valid packet is judged against SN = NESN = 0. -/
theorem issue_arqRxx_resetWith {c : Config} {h0 h1 : Byte} (accept : Bool) (hllid : h0.extractLsb' 0 2 ≠ 0)
    (hlen : h1.toNat ≤ c.maxPayload) :
    ∃ t w, issue .I (.arqRxx h0 h1 true accept) (State.resetWith c) = .next t ∧ t.respI = .result w ∧
      w.getLsbD 0 = true ∧ t.arqSn = h0.getLsbD 2 ∧ t.arqNesn = (!h0.getLsbD 3 && (accept || decide (h1 = 0))) := by
  have hvalid := rxValid_of_header (c := c) accept hllid hlen
  have hnesn : (false ^^ ((h0.getLsbD 3 == false) && (accept || h1 == 0))) =
      (!h0.getLsbD 3 && (accept || decide (h1 = 0))) := by
    rw [Bool.false_xor, beq_false]
    rfl
  exact ⟨_, _, rfl, rfl, (rxData_bit_zero _ _).trans hvalid, rxSnNext_of_valid hvalid,
    (rxNesnNext_of_valid hvalid).trans hnesn⟩

/-- Settles O13, unit by unit: what each command does in any state, at the reset values. -/
theorem rightAfterReset : Obligations.RightAfterReset := by
  intro c hc
  have hcap := fun q => (cap_of_wellFormed hc q).1
  obtain ⟨t, hissue, heunconf⟩ := issue_hopNext (State.resetWith c)
  exact
    ⟨issue_sysRdfault_resetWith c, issue_crcRead_resetWith c, fun b => ⟨_, rfl, rfl, rfl, rfl⟩,
      fun q => issue_pqAcq_resetWith q (hcap q), fun q => issue_cqAcq_resetWith q (hcap q),
      ⟨t, hissue, heunconf.mpr rfl⟩,
      fun h _ am ah bm bh h5 h16 hm =>
        issueAll_stage_commit_commit_next ⟨rfl, rfl, rfl, rfl⟩ am ah bm bh ((hopLegal_iff h).mpr ⟨h5, h16⟩) hm,
      issue_arqRead_resetWith c, issue_arqRx_resetWith c,
      fun _ _ accept hllid hlen => issue_arqRxx_resetWith accept hllid hlen⟩

end Sys2Proof.Machine

/-! PROOFS. One step of the ports: it never stops, it serves one port's oldest request and leaves the other port alone, and it runs
what that request says (20_memory.md R60, R70, R71). -/

namespace Sys2Proof.Machine

/-! ### No step stops (R302, R311) -/

/-- Every command ends in a next state: in its effect, or in a fault, which is an answer too. -/
theorem exec_next (i : Instr) (s : State) : ∃ t, exec i s = .next t := by
  rcases exec_cases i s with ⟨k, _, hexec⟩ | ⟨_, _, st, d, _, hexec⟩
  · exact ⟨_, hexec⟩
  · exact ⟨_, hexec⟩

/-- Every request that is served ends in a next state: an illegal word is an answered fault, and no access faults. -/
theorem serve_next (r : Request) (s : State) : ∃ t, serve r s = .next t := by
  rcases serve_cases r s with ⟨w, i, _, _, hserve⟩ | ⟨w, e, _, _, hserve⟩ | ⟨a, _, hserve⟩ | ⟨a, v, _, hserve⟩ <;> rw [hserve]
  case inl => exact exec_next i s
  case inr.inl => exact ⟨_, raiseFault_eq .illegal w s⟩
  case inr.inr.inl =>
    rcases portRead_cases a s with ⟨v, _, hread⟩ | ⟨_, hread⟩
    · exact ⟨_, hread⟩
    · exact ⟨_, hread⟩
  case inr.inr.inr => exact ⟨_, rfl⟩

/-- Settles O9: only an ill-formed configuration is refused, and reset, waiting and serving each give a next state. -/
theorem stepNeverStops : Obligations.StepNeverStops := by
  intro s hwf
  rcases step_cases s with ⟨hill, _⟩ | ⟨_, _, hstep⟩ | ⟨_, _, _, _, hstep⟩ | ⟨_, _, p, r, _, _, hstep⟩
  case inl => cases hill.symm.trans hwf
  case inr.inl => exact ⟨_, hstep⟩
  case inr.inr.inl => exact ⟨_, hstep⟩
  case inr.inr.inr =>
    rw [hstep]
    exact serve_next r (s.grant p)

/-! ### What serving a request leaves of the ports (R70, R71) -/

/-- `u` differs from `s` neither in the executing port nor in what a port presents or last received. -/
structure State.SamePorts (s u : State) : Prop where
  port : u.port = s.port
  reqI : u.reqI = s.reqI
  reqA : u.reqA = s.reqA
  respI : u.respI = s.respI
  respA : u.respA = s.respA

/-- With the same ports each port presents the same. -/
theorem State.SamePorts.requests {s u : State} (h : s.SamePorts u) (p : Port) : u.requests p = s.requests p := by
  cases p
  · exact h.reqI
  · exact h.reqA

/-- With the same ports each port last received the same. -/
theorem State.SamePorts.response {s u : State} (h : s.SamePorts u) (p : Port) : u.response p = s.response p := by
  cases p
  · exact h.respI
  · exact h.respA

/-- Whatever serving a request does to the registers, it leaves the ports, but for the answer it gives the executing one. -/
theorem serve_samePorts {r : Request} {s t : State} (h : serve r s = .next t) :
    ∃ u r', s.SamePorts u ∧ t = u.respond r' := by
  rcases serve_next_cases h with ⟨k, w, r', rfl⟩ | ⟨i, r', _, rfl⟩ | ⟨n, r', rfl⟩ | ⟨a, v, r', rfl⟩
  case inl => exact ⟨s.takeFault k w, r', ⟨rfl, rfl, rfl, rfl, rfl⟩, rfl⟩
  case inr.inl =>
    have hunits : _ = _ := effectOf_unitsOnly s i
    refine ⟨effectOf s i, r', ?_, rfl⟩
    rw [hunits]
    exact ⟨rfl, rfl, rfl, rfl, rfl⟩
  case inr.inr.inl => exact ⟨{ s with draws := n }, r', ⟨rfl, rfl, rfl, rfl, rfl⟩, rfl⟩
  case inr.inr.inr =>
    obtain ⟨m, l, hstore⟩ := s.storeByte_frame a v
    refine ⟨s.storeByte a v, r', ?_, rfl⟩
    rw [hstore]
    exact ⟨rfl, rfl, rfl, rfl, rfl⟩

/-- Serving a request leaves the executing port, what both ports present and the other port's last answer. -/
theorem serve_ports {r : Request} {s t : State} (h : serve r s = .next t) :
    t.port = s.port ∧ (∀ p, t.requests p = s.requests p) ∧
      t.response (otherPort s.port) = s.response (otherPort s.port) := by
  obtain ⟨u, r', hports, rfl⟩ := serve_samePorts h
  refine ⟨hports.port, fun p => ?_, ?_⟩
  · rw [State.respond_requests, hports.requests]
  · rw [← hports.port, State.respond_response_other, hports.response]

/-- Granting a port leaves both ports' last answers. -/
@[simp] theorem State.grant_response (s : State) (p p' : Port) : (s.grant p).response p' = s.response p' := by
  cases p' <;> rfl

/-- Settles O11: a step waits when nothing is presented, else it grants one port, which takes that port's oldest request, and
serving it leaves the ports but for that port's answer. -/
theorem stepKeepsEachPortsOrder : Obligations.StepKeepsEachPortsOrder := by
  constructor
  · intro s t hstep hawake
    rcases step_cases s with ⟨_, hs⟩ | ⟨_, hreset, _⟩ | ⟨_, _, hI, hA, hs⟩ | ⟨_, _, p, r, _, hr, hs⟩
    case inl => cases hs.symm.trans hstep
    case inr.inl => cases hawake.symm.trans hreset
    case inr.inr.inl =>
      cases hs.symm.trans hstep
      exact .inl ⟨rfl, hI, hA⟩
    case inr.inr.inr =>
      obtain ⟨hport, hrequests, hresponse⟩ := serve_ports (hs.symm.trans hstep)
      rw [State.grant_port, State.grant_response] at hresponse
      exact .inr ⟨p, List.ne_nil_of_mem (List.mem_of_head? hr), hport, (hrequests p).trans (s.grant_requests_self p),
        (hrequests _).trans (s.grant_requests_other p), hresponse⟩
  · intro s hwf hawake hI hA
    rcases step_cases s with ⟨hill, _⟩ | ⟨_, hreset, _⟩ | ⟨_, _, _, _, hs⟩ | ⟨_, _, p, r, _, hr, _⟩
    case inl => cases hill.symm.trans hwf
    case inr.inl => cases hawake.symm.trans hreset
    case inr.inr.inl => exact hs
    case inr.inr.inr => exact absurd (by cases p <;> assumption) (List.ne_nil_of_mem (List.mem_of_head? hr))

/-! ### What the step runs (R92, R98) -/

/-- The fetched request is the oldest one of the port that is next, in the state in which that port is granted. -/
theorem fetch_of_nextPort {s : State} {p : Port} {r : Request} (hp : nextPort s = some p) (hr : (s.requests p).head? = some r) :
    fetch s = some (r, s.grant p) := by
  simp [fetch, hp, hr]

/-- Without reset a step serves the request that is fetched. -/
theorem step_of_fetch {s t : State} {r : Request} (hwf : s.cfg.wellFormed = true) (hawake : s.resetIn = false)
    (h : fetch s = some (r, t)) : step s = serve r t := by
  simp [step, hwf, hawake, h]

/-- Serving a word runs the command it decodes to (R98). -/
theorem serve_command {w : Word} {i : Instr} (h : decode w = .ok i) (s : State) : serve (.command w) s = exec i s := by
  simp [serve, h]

/-- Settles O6: the state is that in which the port is granted, and serving its request there is the three cases. -/
theorem stepRunsDecodedCommand : Obligations.StepRunsDecodedCommand := by
  intro s p r hwf hawake hp hr
  have hstep := step_of_fetch hwf hawake (fetch_of_nextPort hp hr)
  refine ⟨s.grant p, rfl, s.grant_requests_self p, s.grant_requests_other p, rfl, ?_, ?_, ?_⟩
  · rintro w i rfl hdecode
    exact hstep.trans (serve_command hdecode _)
  · rintro a rfl
    exact hstep
  · rintro a v rfl
    exact hstep

end Sys2Proof.Machine

/-! PROOFS. Slot memory: what an access by the owner and by another port does, and that a byte keeps its value until it is written
(20_memory.md R61, R72, R73, R75). -/

namespace Sys2Proof.Machine

/-! ### One byte and one access -/

/-- An owned write stores its byte: in a canonical state the address is open no longer (R72, R73). -/
theorem slotByte_storeByte_of_owns {s : State} {a : Addr} (v : Byte) (hracy : addressesWf s.racy = true)
    (hin : inSlotMemory s.cfg a = true) (howns : owns s s.port a = true) : slotByte (s.storeByte a v) a = some v := by
  rcases s.storeByte_cases a v with ⟨hout, _⟩ | ⟨_, _, hs⟩ | ⟨_, hnot, _⟩
  · cases hout.symm.trans hin
  · rw [hs]
    simp [slotByte, not_mem_dropAddress s.racy a.toNat hracy, Memory.read_write_same]
  · cases hnot.symm.trans howns

/-- An unowned write inside slot memory leaves its byte open (R75). -/
theorem slotByte_storeByte_of_not_owns {s : State} {a : Addr} (v : Byte) (hin : inSlotMemory s.cfg a = true)
    (howns : owns s s.port a = false) : slotByte (s.storeByte a v) a = none := by
  rcases s.storeByte_cases a v with ⟨hout, _⟩ | ⟨_, hown, _⟩ | ⟨_, _, hs⟩
  · cases hout.symm.trans hin
  · cases howns.symm.trans hown
  · rw [hs]
    simp [slotByte, mem_addAddress]

/-- A write outside slot memory stores nothing (R61). -/
theorem storeByte_of_outside {s : State} {a : Addr} (v : Byte) (hout : inSlotMemory s.cfg a = false) :
    s.storeByte a v = s := by
  rcases s.storeByte_cases a v with ⟨_, hs⟩ | ⟨hin, _⟩ | ⟨hin, _⟩
  · exact hs
  all_goals cases hout.symm.trans hin

/-- Every write, wherever it goes, is answered, leaves the other bytes and the other port's answer, and changes no register. -/
theorem portWrite_rest (a : Addr) (v : Byte) (s : State) :
    ∃ t, portWrite a v s = .next t ∧ (∀ b, slotByte t b = slotByte (s.storeByte a v) b) ∧
      (∀ b, b ≠ a → slotByte t b = slotByte s b) ∧ t.response s.port = .writeDone ∧
      t.response (otherPort s.port) = s.response (otherPort s.port) ∧
      t = { s with mem := t.mem, racy := t.racy, respI := t.respI, respA := t.respA } := by
  refine ⟨_, rfl, fun _ => rfl, fun b hb => slotByte_storeByte_of_ne s v hb, ?_⟩
  obtain ⟨m, l, hs⟩ := s.storeByte_frame a v
  rw [hs]
  exact ⟨State.respond_response_self { s with mem := m, racy := l } _,
    State.respond_response_other { s with mem := m, racy := l } _, rfl⟩

/-- A read of a byte that the spec fixes answers it and changes nothing but the answer (R69, R73). -/
theorem portRead_of_owns {s : State} {a : Addr} {v : Byte} (hin : inSlotMemory s.cfg a = true)
    (howns : owns s s.port a = true) (hbyte : slotByte s a = some v) : portRead a s = .next (s.respond (.readData v)) := by
  rw [portRead, (readable_eq_some_iff s s.port a v).mpr ⟨hin, howns, hbyte⟩]

/-- Settles O34: an unowned write leaves its byte open, a write outside stores nothing, and in the cases left the spec fixes no byte
that a read could answer. -/
theorem unownedAccess : Obligations.UnownedAccess := by
  refine fun s a v => ⟨fun hin howns => ?_, fun hout => ?_, fun hfree => ?_⟩
  · obtain ⟨t, hwrite, hself, hother, hdone, _, hframe⟩ := portWrite_rest a v s
    exact ⟨t, hwrite, (hself a).trans (slotByte_storeByte_of_not_owns v hin howns), hother, hdone, hframe⟩
  · rw [portWrite, storeByte_of_outside v hout]
  · rcases portRead_cases a s with ⟨x, hfixed, _⟩ | ⟨_, hread⟩
    · obtain ⟨hin, howns, hbyte⟩ := (readable_eq_some_iff s s.port a x).mp hfixed
      rcases hfree with hout | hnot | hopen
      · cases hout.symm.trans hin
      · cases hnot.symm.trans howns
      · cases hopen.symm.trans hbyte
    · exact ⟨_, hread, rfl⟩

/-! ### A byte along a run (R73, R74) -/

/-- Serving a request that is no write at `a` leaves the byte at `a`. -/
theorem slotByte_serve {r : Request} {s t : State} {a : Addr} (hquiet : ∀ v, r ≠ .memWrite a v) (h : serve r s = .next t) :
    slotByte t a = slotByte s a := by
  rcases serve_cases r s with ⟨w, i, _, _, hserve⟩ | ⟨w, e, _, _, hserve⟩ | ⟨b, _, hserve⟩ | ⟨b, v, hr, hserve⟩ <;>
    rw [hserve] at h
  case inl => exact (commandsIgnoreSlotMemory i s s.mem s.racy s.resets).2 t a h
  case inr.inl =>
    cases (raiseFault_eq .illegal w s).symm.trans h
    rfl
  case inr.inr.inl => rcases portRead_cases b s with ⟨v, _, hread⟩ | ⟨_, hread⟩ <;> cases hread.symm.trans h <;> rfl
  case inr.inr.inr =>
    have hne : a ≠ b := fun hab => hquiet v (hab ▸ hr)
    obtain ⟨u, hwrite, _, hother, _⟩ := portWrite_rest b v s
    cases hwrite.symm.trans h
    exact hother a hne

/-- A step without reset that writes nothing at `a` leaves the byte at `a`. -/
theorem slotByte_step {s t : State} {a : Addr} (hquiet : ¬ WritesTo a s) (hawake : s.resetIn = false)
    (h : step s = .next t) : slotByte t a = slotByte s a := by
  rcases step_cases s with ⟨_, hs⟩ | ⟨_, hreset, _⟩ | ⟨_, _, _, _, hs⟩ | ⟨_, _, p, r, hp, hr, hs⟩
  case inl => cases hs.symm.trans h
  case inr.inl => cases hawake.symm.trans hreset
  case inr.inr.inl =>
    cases hs.symm.trans h
    rfl
  case inr.inr.inr =>
    have hserved : ∀ v, r ≠ .memWrite a v := fun v hwrite =>
      hquiet ⟨s.grant p, v, hwrite ▸ fetch_of_nextPort hp hr⟩
    exact slotByte_serve (s := s.grant p) hserved (hs.symm.trans h)

/-- A quiet run leaves the configuration and the byte. -/
theorem QuietRun.kept {a : Addr} {s u : State} (h : QuietRun a s u) : u.cfg = s.cfg ∧ slotByte u a = slotByte s a := by
  induction h with
  | refl s => exact ⟨rfl, rfl⟩
  | step quiet awake taken _ ih =>
    obtain ⟨hcfg, hbyte⟩ := ih
    exact ⟨hcfg.trans (step_cfg taken), hbyte.trans (slotByte_step quiet awake taken)⟩

/-- Settles O35: the write stores its byte, each step of the run keeps it, and whoever owns it then reads it. -/
theorem publishedBytesAreRead : Obligations.PublishedBytesAreRead := by
  intro s t u a v p hs hin howns hwrite hrun hlater
  have hstored : slotByte (s.storeByte a v) a = some v := slotByte_storeByte_of_owns v hs.racyWf hin howns
  obtain ⟨t', hwrite', hself, _, _, _, hframe⟩ := portWrite_rest a v s
  cases hwrite'.symm.trans hwrite
  obtain ⟨hcfg, hbyte⟩ := hrun.kept
  have hcfg' : u.cfg = s.cfg := by rw [hcfg, hframe]
  have hread : portRead a { u with port := p } = _ :=
    portRead_of_owns (s := { u with port := p }) (hcfg' ▸ hin) hlater (hbyte.trans ((hself a).trans hstored))
  exact ⟨_, hread, State.respond_response_self { u with port := p } _⟩

end Sys2Proof.Machine

/-! PROOFS. Ownership of the slots (20_memory.md R72): which bytes a hold owns, what each queue command makes of it, and that no byte
has two owners. -/

namespace Sys2Proof.Machine

/-! ### Slots inside slot memory (R63, R171) -/

@[simp] theorem otherPort_prod (q : QueueId) : otherPort (prod q) = cons q := by
  cases q <;> rfl

@[simp] theorem otherPort_cons (q : QueueId) : otherPort (cons q) = prod q := by
  cases q <;> rfl

@[simp] theorem prod_ne_cons (q : QueueId) : prod q ≠ cons q := by
  cases q <;> decide

/-- An index names one of the queue's slots. -/
theorem slotOf_lt {c : Config} (hwf : c.wellFormed = true) (q : QueueId) (x : BitVec 8) : slotOf c q x < c.cap q :=
  Nat.mod_lt _ (cap_of_wellFormed hwf q).1

/-- A slot ends inside its queue's slot memory (R35, R63). -/
theorem slotBase_add_slotBytes_le (c : Config) (q : QueueId) {n : Nat} (hn : n < c.cap q) :
    slotBase c q n + c.slotBytes ≤ c.qbase q + c.cap q * c.slotBytes := by
  have hmul : (n + 1) * c.slotBytes ≤ c.cap q * c.slotBytes := Nat.mul_le_mul_right _ hn
  rw [Nat.succ_mul] at hmul
  rw [slotBase]
  omega

/-- The bytes of a slot are in its queue's slot memory. -/
theorem inQueueMemory_of_inSlot {c : Config} {q : QueueId} {n : Nat} {b : Addr} (hn : n < c.cap q)
    (h : inSlot c q n b = true) : InQueueMemory c q b := by
  obtain ⟨hlo, hhi⟩ := (inSlot_iff c q n b).mp h
  have hend := slotBase_add_slotBytes_le c q hn
  have hbase : c.qbase q ≤ slotBase c q n := Nat.le_add_right _ _
  exact ⟨hbase.trans hlo, by omega⟩

/-- Two slots of a queue that share a byte are one slot. -/
theorem slot_unique {c : Config} {q : QueueId} {m n : Nat} {b : Addr} (hm : inSlot c q m b = true)
    (hn : inSlot c q n b = true) : m = n := by
  obtain ⟨hmlo, hmhi⟩ := (inSlot_iff c q m b).mp hm
  obtain ⟨hnlo, hnhi⟩ := (inSlot_iff c q n b).mp hn
  rw [slotBase] at hmlo hmhi hnlo hnhi
  have hle : ∀ {i j : Nat}, c.qbase q + i * c.slotBytes ≤ b.toNat → b.toNat < c.qbase q + j * c.slotBytes + c.slotBytes →
      i ≤ j := by
    intro i j hi hj
    have hlt : i * c.slotBytes < (j + 1) * c.slotBytes := by
      rw [Nat.succ_mul]
      omega
    exact Nat.lt_succ_iff.mp (Nat.lt_of_mul_lt_mul_right hlt)
  exact Nat.le_antisymm (hle hmlo hnhi) (hle hnlo hmhi)

/-- No byte is in both queues' slot memory (R2). -/
theorem queueId_unique {c : Config} (hwf : c.wellFormed = true) {q q' : QueueId} {b : Addr} (h : InQueueMemory c q b)
    (h' : InQueueMemory c q' b) : q = q' := by
  obtain ⟨_, _, _, _, _, _, _, _, hdisjoint⟩ := (wellFormed_iff c).mp hwf
  cases q <;> cases q'
  case txq.txq | rxq.rxq => rfl
  case txq.rxq => exact absurd ⟨h, h'⟩ (hdisjoint b.toNat)
  case rxq.txq => exact absurd ⟨h', h⟩ (hdisjoint b.toNat)

/-- In a well-formed configuration a slot address is the number of its slot's first byte: nothing is lost in 24 bits (R171). -/
theorem slotAddr_toNat {c : Config} (hwf : c.wellFormed = true) (q : QueueId) (x : BitVec 8) :
    (slotAddr c q x).toNat = slotBase c q (slotOf c q x) := by
  obtain ⟨_, _, _, _, _, hslot, htx, hrx, _⟩ := (wellFormed_iff c).mp hwf
  have hfits : c.qbase q + c.cap q * c.slotBytes ≤ 2 ^ 24 := by
    cases q
    · exact htx
    · exact hrx
  have hend := slotBase_add_slotBytes_le c q (slotOf_lt hwf q x)
  rw [slotAddr, BitVec.toNat_ofNat, Nat.mod_eq_of_lt (by omega)]

/-- The bytes of the slot at an index are the SLOT_BYTES bytes from its slot address on (R63). -/
theorem inSlot_slotOf_iff {c : Config} (hwf : c.wellFormed = true) (q : QueueId) (x : BitVec 8) (b : Addr) :
    inSlot c q (slotOf c q x) b = true ↔ InSlotAt c (slotAddr c q x) b := by
  rw [inSlot_iff, InSlotAt, slotAddr_toNat hwf]

/-! ### What a hold owns -/

/-- The producer owns the slot at WR while it holds it. -/
theorem ownsIn_prod_iff (s : State) (q : QueueId) (b : Addr) :
    ownsIn s (prod q) q b = true ↔ (s.queue q).ph = .held ∧ inSlot s.cfg q (slotOf s.cfg q (s.queue q).wr) b = true := by
  simp [ownsIn_iff]

/-- The consumer owns the slot at RD while it holds it. -/
theorem ownsIn_cons_iff (s : State) (q : QueueId) (b : Addr) :
    ownsIn s (cons q) q b = true ↔ (s.queue q).ch = .held ∧ inSlot s.cfg q (slotOf s.cfg q (s.queue q).rd) b = true := by
  simp [ownsIn_iff, (prod_ne_cons q).symm]

/-- What is owned through a hold of a queue is in that queue's slot memory. -/
theorem inQueueMemory_of_ownsIn {s : State} (hwf : s.cfg.wellFormed = true) {p : Port} {q : QueueId} {b : Addr}
    (h : ownsIn s p q b = true) : InQueueMemory s.cfg q b := by
  rcases (ownsIn_iff s p q b).mp h with ⟨_, _, hslot⟩ | ⟨_, _, hslot⟩
  · exact inQueueMemory_of_inSlot (slotOf_lt hwf q _) hslot
  · exact inQueueMemory_of_inSlot (slotOf_lt hwf q _) hslot

/-- Within a queue's slot memory only that queue's holds own. -/
theorem owns_iff_of_inQueueMemory {s : State} (hwf : s.cfg.wellFormed = true) {q : QueueId} {b : Addr}
    (hb : InQueueMemory s.cfg q b) (p : Port) : owns s p b = true ↔ ownsIn s p q b = true := by
  rw [owns_iff]
  refine ⟨fun ⟨q', h⟩ => ?_, fun h => ⟨q, h⟩⟩
  rwa [queueId_unique hwf hb (inQueueMemory_of_ownsIn hwf h)]

/-- A queue whose sides hold nothing is owned by none. -/
theorem ownsIn_eq_false_of_no_hold {s : State} {q : QueueId} (hph : (s.queue q).ph ≠ .held) (hch : (s.queue q).ch ≠ .held)
    (p : Port) (b : Addr) : ownsIn s p q b = false := by
  simp [ownsIn, hph, hch]

/-! ### One queue written -/

section
variable {s : State} {q : QueueId} {v : Queue} (hwf : s.cfg.wellFormed = true)
include hwf

/-- Outside a queue's slot memory its registers do not matter. -/
theorem owns_setQueue_of_outside {b : Addr} (hb : ¬ InQueueMemory s.cfg q b) (p : Port) :
    owns (s.setQueue q v) p b = owns s p b := by
  rw [Bool.eq_iff_iff, owns_iff, owns_iff]
  refine exists_congr fun q' => ?_
  by_cases hq : q' = q
  · subst hq
    exact iff_of_false (fun h => hb (inQueueMemory_of_ownsIn (s := s.setQueue q' v) hwf h))
      fun h => hb (inQueueMemory_of_ownsIn hwf h)
  · rw [ownsIn, State.setQueue_queue_of_ne s v hq, State.setQueue_cfg, ownsIn]

/-- Writing a queue's registers changes one side's ownership alone, if what the other side owns in that queue stays. -/
theorem ownershipBecomes_setQueue {p : Port} {now : Addr → Prop}
    (hnow : ∀ b, ownsIn (s.setQueue q v) p q b = true ↔ now b)
    (hother : ∀ b, ownsIn (s.setQueue q v) (otherPort p) q b = true ↔ ownsIn s (otherPort p) q b = true) :
    OwnershipBecomes s (s.setQueue q v) p q now := by
  refine fun b => ⟨fun hb => ?_, fun hb => owns_setQueue_of_outside hwf hb p, ?_⟩
  · exact (owns_iff_of_inQueueMemory (s := s.setQueue q v) hwf hb p).trans (hnow b)
  · by_cases hb : InQueueMemory s.cfg q b
    · rw [Bool.eq_iff_iff, owns_iff_of_inQueueMemory hwf hb, owns_iff_of_inQueueMemory (s := s.setQueue q v) hwf hb]
      exact hother b
    · exact owns_setQueue_of_outside hwf hb _

/-- The producer's side written: the producer owns the slot at the new WR if it holds it. -/
theorem ownershipBecomes_producer {now : Addr → Prop} (hrd : v.rd = (s.queue q).rd) (hch : v.ch = (s.queue q).ch)
    (hnow : ∀ b, (v.ph = .held ∧ inSlot s.cfg q (slotOf s.cfg q v.wr) b = true) ↔ now b) :
    OwnershipBecomes s (s.setQueue q v) (prod q) q now := by
  refine ownershipBecomes_setQueue hwf (fun b => ?_) fun b => ?_
  · rw [ownsIn_prod_iff, State.setQueue_queue_self]
    exact hnow b
  · rw [otherPort_prod, ownsIn_cons_iff, ownsIn_cons_iff, State.setQueue_queue_self, State.setQueue_cfg, hrd, hch]

/-- The consumer's side written: the consumer owns the slot at the new RD if it holds it. -/
theorem ownershipBecomes_consumer {now : Addr → Prop} (hwr : v.wr = (s.queue q).wr) (hph : v.ph = (s.queue q).ph)
    (hnow : ∀ b, (v.ch = .held ∧ inSlot s.cfg q (slotOf s.cfg q v.rd) b = true) ↔ now b) :
    OwnershipBecomes s (s.setQueue q v) (cons q) q now := by
  refine ownershipBecomes_setQueue hwf (fun b => ?_) fun b => ?_
  · rw [ownsIn_cons_iff, State.setQueue_queue_self]
    exact hnow b
  · rw [otherPort_cons, ownsIn_prod_iff, ownsIn_prod_iff, State.setQueue_queue_self, State.setQueue_cfg, hwr, hph]

end

/-- An answer changes no ownership. -/
@[simp] theorem owns_respond (s : State) (r : Response) (p : Port) (b : Addr) : owns (s.respond r) p b = owns s p b := rfl

/-- A fault changes no ownership. -/
@[simp] theorem owns_takeFault (s : State) (k : FaultKind) (w : Word) (p : Port) (b : Addr) :
    owns (s.takeFault k w) p b = owns s p b := rfl

/-! ### The acquires (R172, R174) -/

/-- A result word that is an address is the status OK with that address as its data (R93). -/
theorem resultWord_eq_addr_iff {st : Status} {d : Data} {a : Addr} :
    resultWord st d = (0 : BitVec 8) ++ a ↔ st = .ok ∧ d = a.setWidth 28 := by
  rw [← resultWord_ok_addr]
  refine ⟨fun h => ⟨?_, ?_⟩, fun ⟨hst, hd⟩ => hst ▸ hd ▸ rfl⟩
  · have hcode : statusCode st = statusCode .ok := by rw [← resultWord_status st d, h, resultWord_status]
    revert hcode
    cases st <;> decide
  · rw [← resultWord_data st d, h, resultWord_data]

/-- An address loses nothing in the DATA field. -/
theorem addr_eq_of_setWidth {a x : Addr} (h : a.setWidth 28 = x.setWidth 28) : a = x := by
  have := congrArg (BitVec.setWidth 24) h
  simpa using this

/-- A state answered with an address was answered with status OK and that address. -/
theorem answer_next_addr {s u t : State} {st : Status} {d : Data} {a : Addr} (hport : u.port = s.port)
    (h : answer st d u = .next t) (ha : t.response s.port = .result ((0 : BitVec 8) ++ a)) :
    st = .ok ∧ d = a.setWidth 28 ∧ ∃ r, t = u.respond r := by
  rw [answer_eq] at h
  cases h
  rw [← hport, State.respond_response_self] at ha
  obtain ⟨hst, hd⟩ := resultWord_eq_addr_iff.mp (Response.result.inj ha)
  exact ⟨hst, hd, _, rfl⟩

/-- An acquire answered with an address was issued by the side that may, and gave the slot it names: a hold taken before is the hold
after, and no slot is given with another status. -/
theorem acquire_answered {i : Instr} {s u t : State} {held denied : Prop} [Decidable held] [Decidable denied] {st : Status}
    {x a : Addr} (hst : st ≠ .ok) (hagain : held → u = s) (hport : u.port = s.port)
    (h : checked i s [] (if held then answer .ok (x.setWidth 28) s else if denied then answer st 0 s
      else answer .ok (x.setWidth 28) u) = .next t)
    (ha : t.response s.port = .result ((0 : BitVec 8) ++ a)) :
    portMay s.port i = true ∧ x = a ∧ ∃ r, t = u.respond r := by
  rcases checked_cases i s [] _ with ⟨hmay, _, hbody⟩ | ⟨_, hfault⟩ | ⟨k, _, hk, _⟩
  case inl =>
    refine ⟨hmay, ?_⟩
    rw [hbody] at h
    split_ifs at h with hheld hdenied
    · obtain ⟨_, hx, ht⟩ := answer_next_addr rfl h ha
      exact ⟨addr_eq_of_setWidth hx, hagain hheld ▸ ht⟩
    · exact absurd (answer_next_addr rfl h ha).1 hst
    · obtain ⟨_, hx, ht⟩ := answer_next_addr hport h ha
      exact ⟨addr_eq_of_setWidth hx, ht⟩
  case inr.inl => cases (answer_next_addr (s.takeFault_port .port _) (hfault.symm.trans h) ha).1
  case inr.inr => cases hk

/-- After PQ.ACQ answered an address its port owns the slot there (R72, R172). -/
theorem ownershipBecomes_of_pqAcq {s t : State} {q : QueueId} {a : Addr} (hwf : s.cfg.wellFormed = true)
    (h : exec (.pqAcq q) s = .next t) (ha : t.response s.port = .result ((0 : BitVec 8) ++ a)) :
    OwnershipBecomes s t s.port q (InSlotAt s.cfg a) := by
  have hagain : (s.queue q).ph = .held → s.setQueue q { s.queue q with ph := .held } = s := fun hheld => by
    rw [← hheld, State.setQueue_queue_eq]
  obtain ⟨hmay, rfl, r, rfl⟩ := acquire_answered (by decide) hagain rfl h ha
  have hport : s.port = prod q := by simpa [portMay] using hmay
  rw [hport]
  exact ownershipBecomes_producer hwf rfl rfl fun b => (and_iff_right rfl).trans (inSlot_slotOf_iff hwf q _ b)

/-- After CQ.ACQ answered an address its port owns the slot there (R72, R174). -/
theorem ownershipBecomes_of_cqAcq {s t : State} {q : QueueId} {a : Addr} (hwf : s.cfg.wellFormed = true)
    (h : exec (.cqAcq q) s = .next t) (ha : t.response s.port = .result ((0 : BitVec 8) ++ a)) :
    OwnershipBecomes s t s.port q (InSlotAt s.cfg a) := by
  have hagain : (s.queue q).ch = .held → s.setQueue q { s.queue q with ch := .held } = s := fun hheld => by
    rw [← hheld, State.setQueue_queue_eq]
  obtain ⟨hmay, rfl, r, rfl⟩ := acquire_answered (by decide) hagain rfl h ha
  have hport : s.port = cons q := by simpa [portMay] using hmay
  rw [hport]
  exact ownershipBecomes_consumer hwf rfl rfl fun b => (and_iff_right rfl).trans (inSlot_slotOf_iff hwf q _ b)

/-! ### The ends of a hold (R173, R177, R180) -/

@[simp] theorem producerDone_ph (c : Config) (q : QueueId) (v : Queue) : (producerDone c q v).ph = .noHold := by
  unfold producerDone
  split <;> rfl

@[simp] theorem consumerDone_ch (c : Config) (q : QueueId) (v : Queue) : (consumerDone c q v).ch = .noHold := by
  unfold consumerDone
  split <;> rfl

/-- On a port with the right a command faults by one of its own checks or leaves its effect. -/
theorem exec_next_of_right {i : Instr} {s t : State} (hmay : portMay s.port i = true) (h : exec i s = .next t) :
    (∃ k, (false, k) ∈ checksOf s i ∧ ∃ r, t = (s.takeFault k (encode i)).respond r) ∨
      ∃ r, t = (effectOf s i).respond r := by
  obtain ⟨st, d, _, hexec⟩ := exec_eq i s
  rw [hexec] at h
  rcases checked_cases i s (checksOf s i) (answer st d (effectOf s i)) with ⟨_, _, hc⟩ | ⟨hnot, _⟩ | ⟨k, _, hk, hc⟩
  · cases hc.symm.trans h
    exact .inr ⟨_, rfl⟩
  · cases hnot.symm.trans hmay
  · cases hc.symm.trans h
    exact .inl ⟨k, hk, _, rfl⟩

/-- After PQ.COMMIT the producer owns nothing of the queue: it had no hold, or its hold is ended (R72, R173). -/
theorem ownershipBecomes_of_pqCommit {s t : State} {q : QueueId} (hwf : s.cfg.wellFormed = true) (hport : s.port = prod q)
    (h : exec (.pqCommit q) s = .next t) : OwnershipBecomes s t s.port q fun _ => False := by
  rcases exec_next_of_right (by simp [portMay, hport]) h with ⟨k, hk, r, rfl⟩ | ⟨r, rfl⟩ <;> rw [hport]
  · obtain ⟨hnone, _⟩ : (s.queue q).ph = .noHold ∧ k = .seq := by simpa [checksOf] using hk
    have hsame := ownershipBecomes_producer (v := s.queue q) (now := fun _ => False) hwf rfl rfl fun b => by simp [hnone]
    rw [State.setQueue_queue_eq] at hsame
    exact hsame
  · exact ownershipBecomes_producer hwf (producerDone_rd _ _ _) (producerDone_ch _ _ _) fun b => by simp

/-- After CQ.REL the consumer owns nothing of the queue: it had no hold, or its hold is ended (R72, R177). -/
theorem ownershipBecomes_of_cqRel {s t : State} {q : QueueId} (hwf : s.cfg.wellFormed = true) (hport : s.port = cons q)
    (h : exec (.cqRel q) s = .next t) : OwnershipBecomes s t s.port q fun _ => False := by
  rcases exec_next_of_right (by simp [portMay, hport]) h with ⟨k, hk, r, rfl⟩ | ⟨r, rfl⟩ <;> rw [hport]
  · obtain ⟨hnone, _⟩ : (s.queue q).ch = .noHold ∧ k = .seq := by simpa [checksOf] using hk
    have hsame := ownershipBecomes_consumer (v := s.queue q) (now := fun _ => False) hwf rfl rfl fun b => by simp [hnone]
    rw [State.setQueue_queue_eq] at hsame
    exact hsame
  · exact ownershipBecomes_consumer hwf (consumerDone_wr _ _ _) (consumerDone_ph _ _ _) fun b => by simp

/-- After Q.FLUSH nobody owns a byte of the queue, and the other queue is as it was (R180). -/
theorem owns_of_qFlush {s t : State} {q : QueueId} (hwf : s.cfg.wellFormed = true) (hport : s.port = .I)
    (h : exec (.qFlush q) s = .next t) (p : Port) (b : Addr) :
    (InQueueMemory s.cfg q b → owns t p b = false) ∧ (¬ InQueueMemory s.cfg q b → owns t p b = owns s p b) := by
  rcases exec_next_of_right (by simp [portMay, hport]) h with ⟨k, hk, _⟩ | ⟨r, rfl⟩
  · cases hk
  · refine ⟨fun hb => ?_, fun hb => owns_setQueue_of_outside hwf hb p⟩
    have hnone : ownsIn (effectOf s (.qFlush q)) p q b = false := by
      refine ownsIn_eq_false_of_no_hold ?_ ?_ p b <;> rw [effectOf, State.setQueue_queue_self]
      · exact holdFlushed_ne_held _
      · exact holdFlushed_ne_held _
    rw [owns_respond, ← Bool.not_eq_true, owns_iff_of_inQueueMemory (s := effectOf s (.qFlush q)) hwf hb, hnone]
    exact Bool.false_ne_true

/-! ### Everything else -/

/-- The commands that are none of the five change no hold and no index. -/
theorem owns_exec_of_others {i : Instr} {s t : State} (h : exec i s = .next t)
    (hi : ∀ q, i ≠ .pqAcq q ∧ i ≠ .pqCommit q ∧ i ≠ .cqAcq q ∧ i ≠ .cqRel q ∧ i ≠ .qFlush q) (p : Port) (b : Addr) :
    owns t p b = owns s p b := by
  rcases exec_next_cases h with ⟨k, w, r, rfl⟩ | ⟨_, _, r, rfl⟩
  · rw [owns_respond, owns_takeFault]
  · rw [owns_respond]
    cases i with
    | pqAcq q | pqCommit q | cqAcq q | cqRel q | qFlush q => exact absurd (hi q) (by simp)
    | _ => rfl

/-- After reset no port owns a byte. -/
theorem owns_resetWith (c : Config) (p : Port) (b : Addr) : owns (State.resetWith c) p b = false := by
  have hnone : ∀ q, ownsIn (State.resetWith c) p q b = false := fun q => by
    refine ownsIn_eq_false_of_no_hold ?_ ?_ p b <;> rw [queue_resetWith] <;> decide
  rw [owns, hnone, hnone, Bool.false_or]

/-- While both sides hold, their slots differ: the count is no multiple of CAP (R175, R176). -/
theorem Queue.Legal.slotOf_ne {c : Config} {q : QueueId} {v : Queue} (h : v.Legal c q) (hph : v.ph = .held)
    (hch : v.ch = .held) : slotOf c q v.wr ≠ slotOf c q v.rd := by
  intro hslot
  have hroom := h.producerRoom hph
  have hitem := h.consumerItem hch
  have hr := h.rdRange
  have hcount := queueCount_legal c q v hr h.wrRange
  have hmod : v.rd.toNat ≡ v.wr.toNat [MOD c.cap q] := hslot.symm
  have hdvd : c.cap q ∣ queueCount c q v := by
    rw [hcount]
    split
    · next hle => exact (Nat.modEq_iff_dvd' hle).mp hmod
    · have hround : v.rd.toNat ≡ v.wr.toNat + 2 * c.cap q [MOD c.cap q] :=
        hmod.trans (Nat.add_mul_mod_self_right ..).symm
      exact (Nat.modEq_iff_dvd' (by omega)).mp hround
  exact absurd (Nat.le_of_dvd hitem hdvd) (by omega)

/-- In a legal state no byte has two owners: one byte is in one slot of one queue, and the two sides' slots differ (R176). -/
theorem State.Legal.owner_unique {s : State} (h : s.Legal) (b : Addr) : ¬ (owns s .I b = true ∧ owns s .A b = true) := by
  rintro ⟨hI, hA⟩
  obtain ⟨q, hI⟩ := (owns_iff s .I b).mp hI
  obtain ⟨q', hA⟩ := (owns_iff s .A b).mp hA
  obtain rfl := queueId_unique h.config (inQueueMemory_of_ownsIn h.config hI) (inQueueMemory_of_ownsIn h.config hA)
  obtain ⟨hprod, hcons⟩ : ownsIn s (prod q) q b = true ∧ ownsIn s (cons q) q b = true := by
    cases q
    · exact ⟨hA, hI⟩
    · exact ⟨hI, hA⟩
  obtain ⟨hph, hwr⟩ := (ownsIn_prod_iff s q b).mp hprod
  obtain ⟨hch, hrd⟩ := (ownsIn_cons_iff s q b).mp hcons
  exact (h.queueLegal q).slotOf_ne hph hch (slot_unique hwr hrd)

/-- Settles O33: ownership follows the holds, which the five queue commands alone write, and an owned access reaches its byte. -/
theorem ownedAccess : Obligations.OwnedAccess := by
  refine ⟨fun s t q hs => ⟨fun a h ha => ownershipBecomes_of_pqAcq hs.config h ha,
      fun a h ha => ownershipBecomes_of_cqAcq hs.config h ha,
      fun hport h => ownershipBecomes_of_pqCommit hs.config hport h,
      fun hport h => ownershipBecomes_of_cqRel hs.config hport h, fun hport h => owns_of_qFlush hs.config hport h⟩,
    fun i s t h hi => owns_exec_of_others h hi, owns_resetWith, fun s b hs => hs.owner_unique b, fun s a v hs hin howns => ?_⟩
  obtain ⟨t, hwrite, hself, hother, hrest⟩ := portWrite_rest a v s
  exact ⟨⟨t, hwrite, (hself a).trans (slotByte_storeByte_of_owns v hs.racyWf hin howns), hother, hrest⟩,
    portRead_of_owns hin howns⟩

end Sys2Proof.Machine

/-! PROOFS. The read-only commands (20_memory.md R69): they leave their port's answer alone, and read no answer. -/

namespace Sys2Proof.Machine

/-- The commands that R69 calls read-only. -/
def isReadOnly : Instr → Bool
  | .sysNop | .sysRdfault | .sysRdfcmd _ | .crcRead | .crcStat | .crcTxb _ | .qStat _ _ | .hopRead | .hopRdmap _
  | .arqTxhdr _ _ _ | .arqRead => true
  | _ => false

/-- A read-only command leaves every register. -/
theorem effectOf_of_isReadOnly {i : Instr} (h : isReadOnly i = true) (s : State) : effectOf s i = s := by
  cases i with
  | sysNop | sysRdfault | sysRdfcmd | crcRead | crcStat | crcTxb | qStat | hopRead | hopRdmap | arqTxhdr | arqRead => rfl
  | _ => cases h

/-- Of two answers to one port the later stands. -/
@[simp] theorem State.respond_respond (s : State) (r r' : Response) : (s.respond r).respond r' = s.respond r' := by
  cases hport : s.port <;> simp [State.respond, hport]

/-- An answer is the same whatever its port received before. -/
theorem answer_respond (st : Status) (d : Data) (s : State) (r : Response) : answer st d (s.respond r) = answer st d s := by
  rw [answer_eq, answer_eq, State.respond_respond]

/-- The checks decide the same outcome whatever the port received before, if the command's rule gives the same. -/
theorem runChecks_respond {w : Word} {s : State} {r : Response} {body body' : StepResult} (h : body' = body)
    (cs : List (Bool × FaultKind)) : runChecks w (s.respond r) body' cs = runChecks w s body cs := by
  induction cs with
  | nil => exact h
  | cons c rest ih =>
    obtain ⟨good, k⟩ := c
    cases good with
    | false => exact answer_respond (faultStatus k) 0 (s.takeFault k w) r
    | true => exact ih

/-- A read-only command does the same whatever its port received before: no check and no answer of it reads an answer. -/
theorem exec_respond_of_isReadOnly {i : Instr} (h : isReadOnly i = true) (s : State) (r : Response) :
    exec i (s.respond r) = exec i s := by
  cases i with
  | qStat q sel =>
    refine runChecks_respond ?_ _
    rw [State.respond_queue]
    exact answer_respond _ _ s r
  | sysNop | sysRdfault | sysRdfcmd | crcRead | crcStat | crcTxb | hopRead | hopRdmap | arqTxhdr | arqRead =>
    exact runChecks_respond (answer_respond _ _ s r) _
  | _ => cases h

/-- A fault never reports status OK. -/
theorem statusCode_faultStatus_ne_zero (k : FaultKind) : statusCode (faultStatus k) ≠ 0 := by
  cases k <;> decide

/-- Settles O58: status OK excludes a fault, the effect is the state itself, and from its answer the command does the same. -/
theorem readOnlyCommandsRepeat : Obligations.ReadOnlyCommandsRepeat := by
  intro i s t hi hexec hok
  have hread : isReadOnly i = true := by
    rcases hi with rfl | rfl | ⟨_, rfl⟩ | rfl | rfl | ⟨_, rfl⟩ | ⟨_, _, rfl⟩ | rfl | ⟨_, rfl⟩ | rfl | ⟨_, _, _, rfl⟩ <;> rfl
  obtain ⟨r, rfl⟩ : ∃ r, t = s.respond r := by
    rcases exec_cases i s with ⟨k, _, hfault⟩ | ⟨_, _, st, d, _, hanswer⟩
    · cases hfault.symm.trans hexec
      rw [statusOf_respond s (s.takeFault k _) _ _ rfl, Option.some_inj] at hok
      exact absurd hok (statusCode_faultStatus_ne_zero k)
    · rw [effectOf_of_isReadOnly hread] at hanswer
      cases hanswer.symm.trans hexec
      exact ⟨_, rfl⟩
  exact ⟨⟨r, rfl⟩, (exec_respond_of_isReadOnly hread s r).trans hexec⟩

end Sys2Proof.Machine

/-! PROOFS. Decoding and encoding undo each other, no word selects two rows, and which words are illegal (30_encoding.md R96 to
R99); every command answers its port, with a normal status or a precise fault (R93, R302, R308). -/

namespace Sys2Proof

/-! ### The first row a word selects (R98) -/

/-- Everything decoding can do: build the command of a row the word selects, or, when it selects none, name why it is illegal. -/
theorem decodeRows_cases (l : List Row) (w : Word) :
    (∃ r ∈ l, r.selects w = true ∧ decodeRows l w = .ok (r.build w)) ∨
      ((∀ r ∈ l, r.selects w = false) ∧ decodeRows l w = .error (illegalReason w)) := by
  induction l with
  | nil => exact .inr ⟨by simp, rfl⟩
  | cons r rest ih =>
    cases hsel : r.selects w with
    | true => exact .inl ⟨r, List.mem_cons_self, hsel, by rw [decodeRows, if_pos hsel]⟩
    | false =>
      have hnext : decodeRows (r :: rest) w = decodeRows rest w := by
        rw [decodeRows, hsel, if_neg Bool.false_ne_true]
      rw [hnext]
      rcases ih with ⟨r', hr', hsel', hok⟩ | ⟨hnone, herr⟩
      · exact .inl ⟨r', List.mem_cons_of_mem r hr', hsel', hok⟩
      · exact .inr ⟨List.forall_mem_cons.mpr ⟨hsel, hnone⟩, herr⟩

/-- A row selects a word when the word has the row's pattern under its mask (R97). -/
theorem Row.selects_iff (r : Row) (w : Word) : r.selects w = true ↔ w &&& r.mask = r.pattern :=
  beq_iff_eq

/-! ### A row's pattern is its UNIT and OP (R91, R97) -/

/-- Every mask keeps UNIT and OP whole, and every pattern is 0 in ARG. -/
theorem rows_opcode : ∀ r ∈ rows, r.mask &&& 0xFF000000 = 0xFF000000 ∧ r.pattern &&& 0xFF000000 = r.pattern := by decide

/-- No two rows have the same pattern. -/
theorem rows_pattern_nodup : (rows.map Row.pattern).Nodup := by decide

/-- Every row's UNIT defines its OP. -/
theorem rows_op_defined : ∀ r ∈ rows, (field r.pattern 28 4).toNat < 5 ∧
    (field r.pattern 24 4).toNat < opCount (field r.pattern 28 4).toNat := by decide

/-- Every OP that a UNIT defines has a row. -/
theorem row_of_op_defined : ∀ u < 5, ∀ op < opCount u, ∃ r ∈ rows, r.pattern = commandWord (.ofNat 4 u) (.ofNat 4 op) 0 := by
  decide

/-- The pattern of a row is UNIT and OP of every word that selects it. -/
theorem pattern_of_selects {r : Row} (hr : r ∈ rows) {w : Word} (h : r.selects w = true) :
    r.pattern = w &&& 0xFF000000 := by
  obtain ⟨hmask, hpattern⟩ := rows_opcode r hr
  rw [← hpattern, ← (r.selects_iff w).mp h, BitVec.and_assoc, hmask]

/-- A pattern that is a word's upper byte has the word's UNIT. -/
theorem field_unit_of_pattern {r : Row} {w : Word} (h : r.pattern = w &&& 0xFF000000) :
    field r.pattern 28 4 = field w 28 4 := by
  rw [h, field, BitVec.extractLsb'_and, show (0xFF000000 : Word).extractLsb' 28 4 = BitVec.allOnes 4 from by decide,
    BitVec.and_allOnes, field]

/-- A pattern that is a word's upper byte has the word's OP. -/
theorem field_op_of_pattern {r : Row} {w : Word} (h : r.pattern = w &&& 0xFF000000) :
    field r.pattern 24 4 = field w 24 4 := by
  rw [h, field, BitVec.extractLsb'_and, show (0xFF000000 : Word).extractLsb' 24 4 = BitVec.allOnes 4 from by decide,
    BitVec.and_allOnes, field]

/-- A word that selects a row has an OP its UNIT defines. -/
theorem op_defined_of_selects {r : Row} (hr : r ∈ rows) {w : Word} (h : r.selects w = true) :
    (field w 28 4).toNat < 5 ∧ (field w 24 4).toNat < opCount (field w 28 4).toNat := by
  have hpattern := pattern_of_selects hr h
  rw [← field_unit_of_pattern hpattern, ← field_op_of_pattern hpattern]
  exact rows_op_defined r hr

/-- A word selects at most one row of the table. -/
theorem row_unique {r r' : Row} (hr : r ∈ rows) (hr' : r' ∈ rows) {w : Word} (h : r.selects w = true)
    (h' : r'.selects w = true) : r = r' :=
  List.inj_on_of_nodup_map rows_pattern_nodup hr hr' ((pattern_of_selects hr h).trans (pattern_of_selects hr' h').symm)

/-- Settles O4: the patterns are all different, and each is UNIT and OP of the words that select its row. -/
theorem atMostOneRowMatches : Obligations.AtMostOneRowMatches := by
  intro w m n hm hn hselm hseln
  have hpattern : rows[m].pattern = rows[n].pattern :=
    (pattern_of_selects (List.getElem_mem hm) hselm).trans (pattern_of_selects (List.getElem_mem hn) hseln).symm
  refine (rows_pattern_nodup.getElem_inj_iff (hi := by simpa using hm) (hj := by simpa using hn)).mp ?_
  rw [List.getElem_map, List.getElem_map, hpattern]

/-! ### Decoding a command's word (R98) -/

/-- Decoding builds the command of any row the word selects. -/
theorem decode_of_selects {r : Row} (hr : r ∈ rows) {w : Word} (h : r.selects w = true) : decode w = .ok (r.build w) := by
  rcases decodeRows_cases rows w with ⟨r', hr', hsel', hok⟩ | ⟨hnone, _⟩
  · rw [row_unique hr hr' h hsel']
    exact hok
  · cases (hnone r hr).symm.trans h

/-- The word of every command selects that command's row, whose operand fields give the operands back. -/
theorem encode_selects_row (i : Instr) : Laws.RowMatch.Statement i := by
  cases i with
  | sysNop => exact Laws.RowMatch.sysNop
  | sysRdfault => exact Laws.RowMatch.sysRdfault
  | sysRdfcmd half => exact Laws.RowMatch.sysRdfcmd half
  | crcInit iv => exact Laws.RowMatch.crcInit iv
  | crcFeed b => exact Laws.RowMatch.crcFeed b
  | crcRead => exact Laws.RowMatch.crcRead
  | crcStat => exact Laws.RowMatch.crcStat
  | crcTxb k => exact Laws.RowMatch.crcTxb k
  | pqAcq q => exact Laws.RowMatch.pqAcq q
  | pqCommit q => exact Laws.RowMatch.pqCommit q
  | cqAcq q => exact Laws.RowMatch.cqAcq q
  | cqRel q => exact Laws.RowMatch.cqRel q
  | qStat q sel => exact Laws.RowMatch.qStat q sel
  | qFlush q => exact Laws.RowMatch.qFlush q
  | hopSethop h => exact Laws.RowMatch.hopSethop h
  | hopStglo m => exact Laws.RowMatch.hopStglo m
  | hopStghi m => exact Laws.RowMatch.hopStghi m
  | hopCommit am ah => exact Laws.RowMatch.hopCommit am ah
  | hopSetunm c => exact Laws.RowMatch.hopSetunm c
  | hopNext => exact Laws.RowMatch.hopNext
  | hopRead => exact Laws.RowMatch.hopRead
  | hopRdmap sel => exact Laws.RowMatch.hopRdmap sel
  | arqReset => exact Laws.RowMatch.arqReset
  | arqRx accept => exact Laws.RowMatch.arqRx accept
  | arqRxx h0 h1 crcv accept => exact Laws.RowMatch.arqRxx h0 h1 crcv accept
  | arqTxhdr llid md len => exact Laws.RowMatch.arqTxhdr llid md len
  | arqRead => exact Laws.RowMatch.arqRead

/-- Settles O1: a command's word selects its row and no other, and the row reads the operands back. -/
theorem decodeOfEncode : Obligations.DecodeOfEncode := by
  intro i
  obtain ⟨r, hr, hsel, hbuild⟩ := encode_selects_row i
  rw [decode_of_selects hr hsel, hbuild]

/-! ### The operand bits of a word (R95, R99) -/

/-- The `n` bits of a word from bit `lo` on. -/
def operandMask (lo n : Nat) : Word :=
  (BitVec.allOnes n).setWidth 32 <<< lo

/-- A command word is its UNIT and OP with its ARG below them. -/
theorem commandWord_eq_or (unit op : BitVec 4) (arg : BitVec 24) :
    commandWord unit op arg = commandWord unit op 0 ||| arg.setWidth 32 := by
  refine Laws.word_ext fun j hj => ?_
  rw [BitVec.getLsbD_or, Laws.commandWord_bit, Laws.commandWord_bit, BitVec.getLsbD_setWidth]
  by_cases h : j < 24
  · simp [h, hj]
  · simp [h, BitVec.getLsbD_of_ge arg j (by omega)]

/-- An operand put back where it was read gives the word's bits there. -/
theorem field_shiftLeft (w : Word) {lo n : Nat} (h : lo + n ≤ 24) :
    ((field w lo n).setWidth 24 <<< lo).setWidth 32 = w &&& operandMask lo n := by
  refine Laws.word_ext fun j hj => ?_
  simp only [operandMask, field, BitVec.getLsbD_and, BitVec.getLsbD_setWidth, BitVec.getLsbD_shiftLeft,
    BitVec.getLsbD_extractLsb', BitVec.getLsbD_allOnes]
  by_cases hlo : j < lo
  · simp [hlo]
  · by_cases hn : j - lo < n
    · simp [hlo, hn, hj, show j < 24 by omega, show j - lo < 24 by omega, show j - lo < 32 by omega,
        show lo + (j - lo) = j by omega]
    · simp [hn]

/-- An operand read and put back at ARG bit 0 gives the word's low bits. -/
theorem field_setWidth (w : Word) {n : Nat} (h : n ≤ 24) :
    ((field w 0 n).setWidth 24).setWidth 32 = w &&& operandMask 0 n := by
  rw [← field_shiftLeft w (by omega), BitVec.shiftLeft_zero]

/-- A one-bit operand put back where it was read gives the word's bit there. -/
theorem argBit_getLsbD (w : Word) {lo : Nat} (h : lo < 24) :
    (argBit (w.getLsbD lo) lo).setWidth 32 = w &&& operandMask lo 1 := by
  have hbit : BitVec.ofBool (w.getLsbD lo) = field w lo 1 := by
    refine (Laws.field_eq_of_bits fun j hj => ?_).symm
    simp [show j = 0 by omega]
  rw [← field_shiftLeft w (by omega), argBit, hbit]

/-- The queue operand put back where it was read gives the word's bit 20. -/
theorem argQueue_queueField (w : Word) : (argQueue (queueField w)).setWidth 32 = w &&& operandMask 20 1 := by
  have hbit : (queueField w == .rxq) = w.getLsbD 20 := by
    rw [queueField]
    cases w.getLsbD 20 <;> rfl
  rw [argQueue, hbit, argBit_getLsbD w (by omega)]

/-- The command a row builds from a word is encoded as the row's pattern with the word's bits outside the row's mask. -/
def Row.KeepsOperands (r : Row) : Prop :=
  ∀ w, encode (r.build w) = r.pattern ||| (w &&& ~~~r.mask)

/-- A command without operands reads no bit of the word. -/
theorem noOperand (w : Word) : (0 : BitVec 24).setWidth 32 = w &&& 0 :=
  BitVec.and_zero.symm

/-- An operand that is the whole of ARG gives the word's ARG. -/
theorem wholeArg (w : Word) : (field w 0 24).setWidth 32 = w &&& operandMask 0 24 := by
  rw [← field_setWidth w (by omega), BitVec.setWidth_eq]

/-- Operands side by side give the word's bits of both. -/
theorem setWidth_or_eq_and {a b : BitVec 24} {w m m' : Word} (ha : a.setWidth 32 = w &&& m) (hb : b.setWidth 32 = w &&& m') :
    (a ||| b).setWidth 32 = w &&& (m ||| m') := by
  rw [BitVec.setWidth_or, ha, hb, BitVec.and_or_distrib_left]

/-- A command word whose ARG is the word's bits outside a row's mask. -/
theorem commandWord_eq_of_arg {unit op : BitVec 4} {arg : BitVec 24} {w m pattern mask : Word}
    (harg : arg.setWidth 32 = w &&& m) (hpattern : commandWord unit op 0 = pattern) (hmask : m = ~~~mask) :
    commandWord unit op arg = pattern ||| (w &&& ~~~mask) := by
  rw [commandWord_eq_or, harg, hpattern, hmask]

/-- The SYS rows, each by its operands in R96. -/
theorem sysRows_keepOperands : ∀ r ∈ sysRows, r.KeepsOperands := by
  simp only [sysRows, List.forall_mem_cons]
  refine ⟨fun w => ?sysNop, fun w => ?sysRdfault, fun w => ?sysRdfcmd, List.forall_mem_nil _⟩
  case sysNop | sysRdfault => exact commandWord_eq_of_arg (noOperand w) (by decide) (by decide)
  case sysRdfcmd => exact commandWord_eq_of_arg (argBit_getLsbD w (by omega)) (by decide) (by decide)

/-- The CRC rows, each by its operands in R96. -/
theorem crcRows_keepOperands : ∀ r ∈ crcRows, r.KeepsOperands := by
  simp only [crcRows, List.forall_mem_cons]
  refine ⟨fun w => ?crcInit, fun w => ?crcFeed, fun w => ?crcRead, fun w => ?crcStat, fun w => ?crcTxb, List.forall_mem_nil _⟩
  case crcInit => exact commandWord_eq_of_arg (wholeArg w) (by decide) (by decide)
  case crcRead | crcStat => exact commandWord_eq_of_arg (noOperand w) (by decide) (by decide)
  case crcFeed | crcTxb => exact commandWord_eq_of_arg (field_setWidth w (by omega)) (by decide) (by decide)

/-- The QUEUE rows, each by its operands in R96. -/
theorem queueRows_keepOperands : ∀ r ∈ queueRows, r.KeepsOperands := by
  simp only [queueRows, List.forall_mem_cons]
  refine ⟨fun w => ?pqAcq, fun w => ?pqCommit, fun w => ?cqAcq, fun w => ?cqRel, fun w => ?qStat, fun w => ?qFlush,
    List.forall_mem_nil _⟩
  case qStat =>
    exact commandWord_eq_of_arg (setWidth_or_eq_and (argQueue_queueField w) (argBit_getLsbD w (by omega)))
      (by decide) (by decide)
  all_goals exact commandWord_eq_of_arg (argQueue_queueField w) (by decide) (by decide)

/-- The HOP rows, each by its operands in R96. -/
theorem hopRows_keepOperands : ∀ r ∈ hopRows, r.KeepsOperands := by
  simp only [hopRows, List.forall_mem_cons]
  refine ⟨fun w => ?hopSethop, fun w => ?hopStglo, fun w => ?hopStghi, fun w => ?hopCommit, fun w => ?hopSetunm,
    fun w => ?hopNext, fun w => ?hopRead, fun w => ?hopRdmap, List.forall_mem_nil _⟩
  case hopStglo => exact commandWord_eq_of_arg (wholeArg w) (by decide) (by decide)
  case hopCommit =>
    exact commandWord_eq_of_arg (setWidth_or_eq_and (argBit_getLsbD w (by omega)) (argBit_getLsbD w (by omega)))
      (by decide) (by decide)
  case hopNext | hopRead => exact commandWord_eq_of_arg (noOperand w) (by decide) (by decide)
  case hopSethop | hopStghi | hopSetunm | hopRdmap =>
    exact commandWord_eq_of_arg (field_setWidth w (by omega)) (by decide) (by decide)

/-- The ARQ rows, each by its operands in R96. -/
theorem arqRows_keepOperands : ∀ r ∈ arqRows, r.KeepsOperands := by
  simp only [arqRows, List.forall_mem_cons]
  refine ⟨fun w => ?arqReset, fun w => ?arqRx, fun w => ?arqRxx, fun w => ?arqTxhdr, fun w => ?arqRead, List.forall_mem_nil _⟩
  case arqReset | arqRead => exact commandWord_eq_of_arg (noOperand w) (by decide) (by decide)
  case arqRx => exact commandWord_eq_of_arg (argBit_getLsbD w (by omega)) (by decide) (by decide)
  case arqRxx =>
    have hheader := setWidth_or_eq_and (field_setWidth w (n := 8) (by omega)) (field_shiftLeft w (lo := 8) (n := 8) (by omega))
    exact commandWord_eq_of_arg
      (setWidth_or_eq_and (setWidth_or_eq_and hheader (argBit_getLsbD w (by omega))) (argBit_getLsbD w (by omega)))
      (by decide) (by decide)
  case arqTxhdr =>
    have hllidMd := setWidth_or_eq_and (field_setWidth w (n := 2) (by omega)) (argBit_getLsbD w (lo := 2) (by omega))
    exact commandWord_eq_of_arg (setWidth_or_eq_and hllidMd (field_shiftLeft w (by omega))) (by decide) (by decide)

/-- Every row of R97 keeps the operand bits of every word, and no others. -/
theorem rows_keepOperands : ∀ r ∈ rows, r.KeepsOperands := by
  simp only [rows, List.forall_mem_append]
  exact ⟨⟨⟨⟨sysRows_keepOperands, crcRows_keepOperands⟩, queueRows_keepOperands⟩, hopRows_keepOperands⟩, arqRows_keepOperands⟩

/-- Settles O2: the command built from a row is encoded as that row's pattern with the word's operand bits, which is the word. -/
theorem encodeOfDecode : Obligations.EncodeOfDecode := by
  intro w i hdecode
  rcases decodeRows_cases rows w with ⟨r, hr, hsel, hok⟩ | ⟨_, herr⟩
  · cases hok.symm.trans hdecode
    rw [rows_keepOperands r hr, ← (r.selects_iff w).mp hsel, ← BitVec.and_or_distrib_left, BitVec.or_not_self,
      BitVec.and_allOnes]
  · cases herr.symm.trans hdecode

/-! ### Illegal words (R98) -/

/-- A word whose UNIT does not define its OP is illegal. -/
theorem decode_of_op_undefined {w : Word} (h : 5 ≤ (field w 28 4).toNat ∨ opCount (field w 28 4).toNat ≤ (field w 24 4).toNat) :
    decode w = .error (illegalReason w) := by
  rcases decodeRows_cases rows w with ⟨r, hr, hsel, _⟩ | ⟨_, herr⟩
  · have hdefined := op_defined_of_selects hr hsel
    omega
  · exact herr

/-- A word of a reserved UNIT is illegal for that reason. -/
theorem decode_of_reservedUnit {w : Word} (h : 5 ≤ (field w 28 4).toNat) : decode w = .error .reservedUnit := by
  rw [decode_of_op_undefined (.inl h), illegalReason, if_pos h]

/-- A word of a defined UNIT with an OP the UNIT does not define is illegal for that reason. -/
theorem decode_of_undefinedOp {w : Word} (hunit : (field w 28 4).toNat < 5)
    (hop : opCount (field w 28 4).toNat ≤ (field w 24 4).toNat) : decode w = .error .undefinedOp := by
  rw [decode_of_op_undefined (.inr hop), illegalReason, if_neg (not_le.mpr hunit), if_pos hop]

/-- The third reason is given only where UNIT defines OP. -/
theorem op_defined_of_reservedArg {w : Word} (h : illegalReason w = .reservedArg) :
    (field w 28 4).toNat < 5 ∧ (field w 24 4).toNat < opCount (field w 28 4).toNat := by
  rw [illegalReason] at h
  split_ifs at h with hunit hop
  exact ⟨not_le.mp hunit, not_le.mp hop⟩

/-- UNIT and OP of a word are its upper byte. -/
theorem commandWord_field (w : Word) : commandWord (field w 28 4) (field w 24 4) 0 = w &&& 0xFF000000 := by
  refine Laws.word_ext fun j hj => ?_
  rw [Laws.commandWord_bit, BitVec.getLsbD_and, field, field, BitVec.getLsbD_extractLsb', BitVec.getLsbD_extractLsb']
  interval_cases j <;> simp

/-- A word whose UNIT defines its OP has a row with that UNIT and OP. -/
theorem row_of_word {w : Word} (hunit : (field w 28 4).toNat < 5)
    (hop : (field w 24 4).toNat < opCount (field w 28 4).toNat) : ∃ r ∈ rows, r.pattern = w &&& 0xFF000000 := by
  obtain ⟨r, hr, hpattern⟩ := row_of_op_defined _ hunit _ hop
  rw [BitVec.ofNat_toNat, BitVec.ofNat_toNat, BitVec.setWidth_eq, BitVec.setWidth_eq, commandWord_field] at hpattern
  exact ⟨r, hr, hpattern⟩

/-- With the upper byte of `w` as its pattern, a row's command has the upper byte of `w` and no bit that `w` lacks. -/
theorem encode_build_of_pattern {r : Row} (hr : r ∈ rows) {w : Word} (h : r.pattern = w &&& 0xFF000000) :
    (encode (r.build w)).extractLsb' 24 8 = w.extractLsb' 24 8 ∧ encode (r.build w) &&& w = encode (r.build w) := by
  have hcode : encode (r.build w) = w &&& (0xFF000000 ||| ~~~r.mask) := by
    rw [rows_keepOperands r hr, h, BitVec.and_or_distrib_left]
  have hupper : (0xFF000000 ||| ~~~r.mask).extractLsb' 24 8 = BitVec.allOnes 8 := by
    rw [BitVec.extractLsb'_or, show (0xFF000000 : Word).extractLsb' 24 8 = BitVec.allOnes 8 from by decide,
      BitVec.allOnes_or]
  rw [hcode]
  constructor
  · rw [BitVec.extractLsb'_and, hupper, BitVec.and_allOnes]
  · rw [BitVec.and_comm, ← BitVec.and_assoc, BitVec.and_self]

/-- Settles O5: a word that selects a row has an OP its UNIT defines; and where UNIT defines OP, the row's command with the word's
operand bits is the word without its reserved bits. -/
theorem illegalWordCases : Obligations.IllegalWordCases := by
  intro w
  refine ⟨decode_of_reservedUnit, fun hop => ?_, fun hdecode => ?_⟩
  · have hdefines : (field w 28 4).toNat < 5 ∧ opCount (field w 28 4).toNat ≤ (field w 24 4).toNat := by
      rcases hop with ⟨hunit, hop⟩ | ⟨hunit, hop⟩ | ⟨hunit, hop⟩ | ⟨hunit, hop⟩ | ⟨hunit, hop⟩ <;>
        rw [field, hunit] <;> exact ⟨by decide, hop⟩
    obtain ⟨hunit, hop⟩ := hdefines
    exact decode_of_undefinedOp hunit hop
  · rcases decodeRows_cases rows w with ⟨r, _, _, hok⟩ | ⟨_, herr⟩
    · cases hok.symm.trans hdecode
    · obtain ⟨hunit, hop⟩ := op_defined_of_reservedArg (Except.error.inj (herr.symm.trans hdecode))
      obtain ⟨r, hr, hpattern⟩ := row_of_word hunit hop
      obtain ⟨hupper, hbits⟩ := encode_build_of_pattern hr hpattern
      refine ⟨r.build w, hupper, fun hword => ?_, hbits⟩
      have hlegal := decodeOfEncode (r.build w)
      rw [hword] at hlegal
      cases hlegal.symm.trans hdecode

/-- Settles O3: each legal word is `encode` of its command, and of the illegal ones the first has UNIT 5, the second OP 6 of QUEUE,
and the third a reserved bit. -/
theorem someWordsDecode : Obligations.SomeWordsDecode :=
  ⟨decodeOfEncode (.sysRdfcmd true), decodeOfEncode (.crcInit 0x555555), decodeOfEncode (.qStat .rxq true),
    decodeOfEncode (.hopCommit true false), decodeOfEncode (.arqRxx 0x0E 0x05 true true),
    decodeOfEncode (.arqTxhdr 3 true 27), decode_of_reservedUnit (by decide),
    decode_of_undefinedOp (by decide) (by decide), by decide⟩

end Sys2Proof

namespace Sys2Proof.Machine

/-! ### The answer of every command (R93, R302) -/

/-- Taking a fault leaves the ports. -/
theorem samePorts_takeFault (s : State) (k : FaultKind) (w : Word) : s.SamePorts (s.takeFault k w) :=
  ⟨rfl, rfl, rfl, rfl, rfl⟩

/-- A command's effect leaves the ports. -/
theorem samePorts_effectOf (s : State) (i : Instr) : s.SamePorts (effectOf s i) := by
  have hunits : _ = _ := effectOf_unitsOnly s i
  rw [hunits]
  exact ⟨rfl, rfl, rfl, rfl, rfl⟩

/-- Every command gives its port a result word and otherwise leaves the ports. -/
theorem exec_answers (i : Instr) (s : State) : ∃ u w, s.SamePorts u ∧ exec i s = .next (u.respond (.result w)) := by
  rcases exec_cases i s with ⟨k, _, hfault⟩ | ⟨_, _, st, d, _, hanswer⟩
  · exact ⟨_, _, samePorts_takeFault s k (encode i), hfault⟩
  · exact ⟨_, _, samePorts_effectOf s i, hanswer⟩

/-- Settles O8: a fault and an effect are both answered, and neither touches the ports. -/
theorem everyCommandAnswers : Obligations.EveryCommandAnswers := by
  intro i s
  obtain ⟨u, w, hports, hexec⟩ := exec_answers i s
  refine ⟨_, w, hexec, ?_, ?_, hports.reqI, hports.reqA⟩
  · rw [← hports.port, State.respond_response_self]
  · rw [← hports.port, State.respond_response_other, hports.response]

/-- A normal status is a code of 0 to 3 (R94). -/
theorem statusCode_of_isNormal {st : Status} (h : st.isNormal = true) : (statusCode st).toNat ≤ 3 := by
  cases st with
  | ok | full | empty | stale => decide
  | _ => cases h

/-- The status of a decoded command's fault is a code of 4 to 8, three above the fault's bit of FAULT (R94, R302). -/
theorem statusCode_of_fault {k : FaultKind} (h : k ≠ .illegal) :
    4 ≤ (statusCode (faultStatus k)).toNat ∧ (statusCode (faultStatus k)).toNat ≤ 8 ∧
      (statusCode (faultStatus k)).toNat - 3 = faultBit k := by
  cases k with
  | illegal => exact absurd rfl h
  | _ => decide

/-- Settles O55: a command takes a fault, which is R302 written out, or answers a normal status over an effect, which leaves FAULT
and FCMD. -/
theorem faultsArePrecise : Obligations.FaultsArePrecise := by
  intro i s t hexec
  rcases exec_cases i s with ⟨k, hk, hfault⟩ | ⟨_, _, st, d, hst, hanswer⟩
  · obtain ⟨hlow, hhigh, hbit⟩ := statusCode_of_fault hk
    have htaken := raiseFault_taken k _ s t (hfault.symm.trans hexec)
    rw [← hbit] at htaken
    cases hfault.symm.trans hexec
    exact ⟨_, statusOf_respond s (s.takeFault k _) _ _ rfl, .inr ⟨hlow, hhigh, htaken⟩⟩
  · have hunits : _ = _ := effectOf_unitsOnly s i
    cases hanswer.symm.trans hexec
    refine ⟨_, statusOf_respond s (effectOf s i) _ _ (samePorts_effectOf s i).port, .inl ⟨statusCode_of_isNormal hst, ?_, ?_⟩⟩
    · rw [State.respond_fault, hunits]
    · rw [State.respond_fcmd, hunits]

end Sys2Proof.Machine

/-! PROOFS. The SYS unit's commands (40_sys.md): both ports may issue them, they make no further check, and each answers OK. -/

namespace Sys2Proof.Machine

/-- SYS.NOP answers the zero word (R130). -/
theorem completes_sysNop (s : State) : Completes .sysNop s s (fun w => w = 0) :=
  have hword : resultWord .ok 0 = 0 := by decide
  completes_of_checks (cs := []) rfl rfl nofun hword

/-- SYS.RDFAULT answers FAULT (R131). -/
theorem completes_sysRdfault (s : State) : Completes .sysRdfault s s (OkLow 8 s.fault) :=
  completes_of_checks (cs := []) rfl rfl nofun (okLow_setWidth (by decide) s.fault)

/-- SYS.RDFCMD answers the half of FCMD that its operand names (R132). -/
theorem completes_sysRdfcmd (half : Bool) (s : State) :
    Completes (.sysRdfcmd half) s s
      (OkLow 16 (if half then s.fcmd.extractLsb' 16 16 else s.fcmd.extractLsb' 0 16)) :=
  completes_of_checks (cs := []) rfl rfl nofun (okLow_setWidth (by decide) _)

/-- Settles O14: the words are the fixed bits of R96, and each command answers over an unchanged state. -/
theorem sysCommandsRead : Obligations.SysCommandsRead :=
  ⟨by decide, by decide, by decide, by decide, fun s =>
    ⟨completes_sysNop s, completes_sysRdfault s, completes_sysRdfcmd false s, completes_sysRdfcmd true s⟩⟩

end Sys2Proof.Machine

/-! PROOFS. The CRC unit (41_crc.md): the register as a function of the bits fed to it, its reflected form, the one tail that brings
it to zero, and the five commands, which only port I may issue. -/

namespace Sys2Proof.Machine

/-! ### One input bit (R140) -/

/-- The taps of the polynomial. -/
theorem crcPoly_bit {j : Nat} (hj : j < 24) : crcPoly.getLsbD j = decide (j ∈ [0, 1, 3, 4, 6, 9, 10]) := by
  have htaps : ∀ j < 24, crcPoly.getLsbD j = decide (j ∈ [0, 1, 3, 4, 6, 9, 10]) := by decide
  exact htaps j hj

/-- The bits of a register shifted up by one. -/
theorem shiftLeft_one_bit (c : BitVec 24) {j : Nat} (hj : j < 24) :
    (c <<< 1).getLsbD j = (decide (0 < j) && c.getLsbD (j - 1)) := by
  rw [BitVec.getLsbD_shiftLeft, decide_eq_true hj, Bool.true_and]
  congr 1
  cases j <;> simp

/-- The bits of the register after one input bit: the shift, and the feedback at the taps. -/
theorem crcBit_bit (c : BitVec 24) (d : Bool) {j : Nat} (hj : j < 24) :
    (crcBit c d).getLsbD j =
      ((decide (0 < j) && c.getLsbD (j - 1)) ^^ (decide (j ∈ [0, 1, 3, 4, 6, 9, 10]) && (c.getLsbD 23 ^^ d))) := by
  rw [crcBit, ← shiftLeft_one_bit c hj, ← crcPoly_bit hj]
  cases c.getLsbD 23 ^^ d <;> simp

/-- An input bit equal to the top bit cancels it: the register is shifted. -/
theorem crcBit_top (c : BitVec 24) : crcBit c (c.getLsbD 23) = c <<< 1 := by
  rw [crcBit, Bool.xor_self, if_neg Bool.false_ne_true]

/-- Any other input bit feeds back into bit 0. -/
theorem crcBit_bit_zero_of_ne {c : BitVec 24} {d : Bool} (hd : d ≠ c.getLsbD 23) : (crcBit c d).getLsbD 0 = true := by
  rw [crcBit_bit c d (by decide), Bool.eq_not_of_ne hd]
  simp

/-- Settles O15: the bits after one step, and the eight steps of a byte in order. -/
theorem crcStepRule : Obligations.CrcStepRule :=
  ⟨fun c d _ hj => crcBit_bit c d hj, fun _ _ => rfl⟩

/-! ### The reflected form (R146) -/

/-- The bits of a reversed register. -/
theorem bitrev24_bit (c : BitVec 24) {j : Nat} (hj : j < 24) : (bitrev24 c).getLsbD j = c.getLsbD (23 - j) := by
  rw [bitrev24, BitVec.getLsbD_ofFnLE, dif_pos hj]

theorem bitrev24_xor (a b : BitVec 24) : bitrev24 (a ^^^ b) = bitrev24 a ^^^ bitrev24 b := by
  refine BitVec.eq_of_getLsbD_eq fun j hj => ?_
  simp only [BitVec.getLsbD_xor, bitrev24_bit _ hj]

/-- Reversal turns a shift up into a shift down. -/
theorem bitrev24_shiftLeft_one (c : BitVec 24) : bitrev24 (c <<< 1) = bitrev24 c >>> 1 := by
  refine BitVec.eq_of_getLsbD_eq fun j hj => ?_
  rw [bitrev24_bit _ hj, shiftLeft_one_bit c (by omega), BitVec.getLsbD_ushiftRight]
  by_cases hlast : j < 23
  · rw [bitrev24_bit c (show 1 + j < 24 by omega), decide_eq_true (by omega), Bool.true_and]
    congr 1
    omega
  · rw [BitVec.getLsbD_of_ge _ _ (show 24 ≤ 1 + j by omega), decide_eq_false (by omega), Bool.false_and]

/-- The reflected constant is the polynomial reversed. -/
theorem bitrev24_crcPoly : bitrev24 crcPoly = 0xDA6000 := by decide

/-- One bit of the reflected form on the reversed register is the reversal of one bit of the register. -/
theorem crcBitReflected_bitrev24 (c : BitVec 24) (d : Bool) : crcBitReflected (bitrev24 c) d = bitrev24 (crcBit c d) := by
  rw [crcBitReflected, crcBit, bitrev24_bit c (by decide)]
  cases c.getLsbD (23 - 0) ^^ d with
  | false => rw [if_neg Bool.false_ne_true, if_neg Bool.false_ne_true, bitrev24_shiftLeft_one]
  | true => rw [if_pos rfl, if_pos rfl, bitrev24_xor, bitrev24_shiftLeft_one, bitrev24_crcPoly]

/-- Settles O21: the two forms agree on every bit, so on the eight bits of a byte. -/
theorem crcReflectedForm : Obligations.CrcReflectedForm :=
  ⟨bitrev24_crcPoly, fun _ b => List.foldl_hom bitrev24 fun x i => crcBitReflected_bitrev24 x (b.getLsbD i)⟩

/-! ### The bits that cancel the register (R148) -/

/-- The bits of a byte as they enter, least significant first (R140). -/
def byteBits (b : Byte) : List Bool :=
  (List.range 8).map b.getLsbD

/-- The `n` most significant bits of the register, top bit first. -/
def topBits (c : BitVec 24) (n : Nat) : List Bool :=
  (List.range n).map fun i => c.getLsbD (23 - i)

theorem crcByte_eq_foldl (c : BitVec 24) (b : Byte) : crcByte c b = (byteBits b).foldl crcBit c :=
  List.foldl_map.symm

/-- A byte is known by its bits. -/
theorem byteBits_inj {a b : Byte} : byteBits a = byteBits b ↔ a = b := by
  refine ⟨fun h => BitVec.eq_of_getLsbD_eq fun j hj => ?_, congrArg _⟩
  exact List.map_inj_left.mp h j (List.mem_range.mpr hj)

/-- Bytes that start two lists of bits can be compared first. -/
theorem byteBits_append_inj {a b : Byte} {l m : List Bool} : byteBits a ++ l = byteBits b ++ m ↔ a = b ∧ l = m := by
  constructor
  · intro h
    obtain ⟨hbits, hrest⟩ := List.append_inj h rfl
    exact ⟨byteBits_inj.mp hbits, hrest⟩
  · rintro ⟨rfl, rfl⟩
    rfl

/-- Below its top bit a register holds the top bits of the register shifted. -/
theorem topBits_succ (c : BitVec 24) {n : Nat} (hn : n ≤ 23) :
    topBits c (n + 1) = c.getLsbD 23 :: topBits (c <<< 1) n := by
  rw [topBits, List.range_succ_eq_map, List.map_cons, List.map_map, topBits]
  refine congrArg (_ :: ·) (List.map_congr_left fun i hi => ?_)
  have hi : i < n := List.mem_range.mp hi
  rw [shiftLeft_one_bit c (by omega), decide_eq_true (by omega), Bool.true_and]
  exact congrArg c.getLsbD (by omega)

/-- Fewer than 24 shifts do not lose bit 0. -/
theorem shiftLeft_ne_zero {c : BitVec 24} (hc : c.getLsbD 0 = true) {n : Nat} (hn : n < 24) : c <<< n ≠ 0 := by
  intro h
  have hbit : (c <<< n).getLsbD n = true := by
    rw [BitVec.getLsbD_shiftLeft, Nat.sub_self, hc]
    simp [hn]
  simp [h] at hbit

/-- Feeding at most 24 bits brings the register to zero exactly when they are its top bits and it holds nothing below them: the first
bit that differs from the top bit sets bit 0, which the bits after it cannot shift out. -/
theorem foldl_crcBit_eq_zero_iff (l : List Bool) (c : BitVec 24) (hl : l.length ≤ 24) :
    l.foldl crcBit c = 0 ↔ c <<< l.length = 0 ∧ l = topBits c l.length := by
  induction l generalizing c with
  | nil => simp [topBits]
  | cons d l ih =>
    have hlen : l.length < 24 := hl
    rw [List.foldl_cons, ih _ (by omega), List.length_cons, topBits_succ c (by omega), List.cons.injEq]
    by_cases hd : d = c.getLsbD 23
    · rw [hd, crcBit_top, Nat.add_comm, BitVec.shiftLeft_add]
      simp
    · exact iff_of_false (fun h => shiftLeft_ne_zero (crcBit_bit_zero_of_ne hd) hlen h.1) fun h => hd h.2.1

/-- The bits of on-air byte `k` are the register's, the more significant first (R145). -/
theorem crcAirByte_bit (c : BitVec 24) {k j : Nat} (hk : k ≤ 2) (hj : j < 8) :
    (crcAirByte c k).getLsbD j = c.getLsbD (23 - 8 * k - j) := by
  rw [crcAirByte, bitrev8, BitVec.getLsbD_ofFnLE, dif_pos hj, BitVec.getLsbD_extractLsb',
    decide_eq_true (show 7 - j < 8 by omega), Bool.true_and]
  exact congrArg c.getLsbD (show 16 - 8 * k + (7 - j) = 23 - 8 * k - j by omega)

/-- Eight consecutive bits of the register are the bits of an on-air byte. -/
theorem byteBits_crcAirByte (c : BitVec 24) {k : Nat} (hk : k ≤ 2) :
    byteBits (crcAirByte c k) = (List.range 8).map fun j => c.getLsbD (23 - 8 * k - j) :=
  List.map_congr_left fun _ hj => crcAirByte_bit c hk (List.mem_range.mp hj)

/-- All the bits of the register, top bit first, are the bits of the three on-air bytes (R145). -/
theorem topBits_eq_airBytes (c : BitVec 24) :
    topBits c 24 = byteBits (crcAirByte c 0) ++ (byteBits (crcAirByte c 1) ++ byteBits (crcAirByte c 2)) := by
  rw [byteBits_crcAirByte c (by decide), byteBits_crcAirByte c (by decide), byteBits_crcAirByte c (by decide)]
  rfl

/-- Three bytes bring the register to zero exactly when they are its on-air bytes. -/
theorem crcByte_three_eq_zero_iff (c : BitVec 24) (x y z : Byte) :
    crcByte (crcByte (crcByte c x) y) z = 0 ↔ x = crcAirByte c 0 ∧ y = crcAirByte c 1 ∧ z = crcAirByte c 2 := by
  have hshift : c <<< 24 = 0 := BitVec.shiftLeft_eq_zero (Nat.le_refl 24)
  have hbits : (byteBits x ++ (byteBits y ++ byteBits z)).foldl crcBit c = 0 ↔
      c <<< 24 = 0 ∧ byteBits x ++ (byteBits y ++ byteBits z) = topBits c 24 :=
    foldl_crcBit_eq_zero_iff _ c (Nat.le_refl 24)
  rw [crcByte_eq_foldl, crcByte_eq_foldl, crcByte_eq_foldl, ← List.foldl_append, ← List.foldl_append, hbits,
    topBits_eq_airBytes, byteBits_append_inj, byteBits_append_inj, byteBits_inj]
  exact and_iff_right hshift

/-! ### The commands (R141 to R145) -/

/-- A command word whose operand is its low bits: the fixed bits of R96 and then the operand. -/
theorem commandWord_setWidth (unit op : BitVec 4) {m n : Nat} (h : m + n = 24) (v : BitVec n) :
    commandWord unit op (v.setWidth 24) = (unit ++ op ++ (0 : BitVec m) ++ v).cast (by omega) := by
  refine BitVec.eq_of_getLsbD_eq fun j _ => ?_
  simp only [commandWord, BitVec.getLsbD_cast, BitVec.getLsbD_append, BitVec.getLsbD_setWidth]
  by_cases hv : j < n
  · simp [hv, show j < 24 by omega]
  · have hzero : v.getLsbD j = false := BitVec.getLsbD_of_ge v j (by omega)
    by_cases hm : j < 24
    · simp [hv, hm, hzero, show j - n < m by omega]
    · simp [hv, hm, show ¬ j - n < m by omega, show j - n - m = j - 24 by omega]

/-- Any field within DATA is read from it. -/
theorem resultWord_field (st : Status) (d : Data) {lo n : Nat} (h : lo + n ≤ 28) :
    (resultWord st d).extractLsb' lo n = d.extractLsb' lo n :=
  BitVec.extractLsb'_append_eq_of_add_le h

/-- The bits of a value answered in the low bits of a result word. -/
theorem OkLow.bit {n : Nat} {v : BitVec n} {w : Word} (h : OkLow n v w) {j : Nat} (hj : j < n) :
    w.getLsbD j = v.getLsbD j := by
  rw [← h.1, BitVec.getLsbD_extractLsb', decide_eq_true hj, Bool.true_and, Nat.zero_add]

/-- What a command's result word satisfies may be weakened. -/
theorem Completes.imp {i : Instr} {s u : State} {fields fields' : Word → Prop} (h : Completes i s u fields)
    (hf : ∀ w, fields w → fields' w) : Completes i s u fields' := by
  obtain ⟨w, hexec, hw⟩ := h
  exact ⟨w, hexec, hf w hw⟩

/-- The answer of CRC.FEED and CRC.READ: the register, ZERO above it, and zeros (R142, R143). -/
theorem crcData_fields (c : BitVec 24) :
    (resultWord .ok (crcData c)).extractLsb' 0 24 = c ∧ (resultWord .ok (crcData c)).getLsbD 24 = decide (c = 0) ∧
      (resultWord .ok (crcData c)).extractLsb' 25 7 = 0 := by
  have hlow : OkLow 25 (BitVec.ofBool (crcZero c) ++ c) (resultWord .ok (crcData c)) := okLow_setWidth (by decide) _
  refine ⟨?_, ?_, hlow.2⟩
  · rw [resultWord_field _ _ (by decide), crcData, BitVec.extractLsb'_setWidth_of_le (by decide),
      BitVec.extractLsb'_append_eq_of_add_le (by decide), BitVec.extractLsb'_eq_self]
  · rw [hlow.bit (by decide), BitVec.getLsbD_append, if_neg (by decide)]
    simp [crcZero, beq_eq_decide]

/-- CNT goes up by one until it is 4095, where it stays (R142). -/
theorem cntNext_eq (n : BitVec 12) : cntNext n = if n.toNat < 4095 then n + 1 else 4095 := by
  apply BitVec.eq_of_toNat_eq
  rw [cntNext]
  split <;> simp <;> omega

section
variable {s : State} (hport : s.port = .I)
include hport

/-- CRC.INIT loads the register and clears the rest of the unit. -/
theorem completes_crcInit (iv : BitVec 24) :
    Completes (.crcInit iv) s { s with crc := iv, cnt := 0, hdr0 := 0, hdr1 := 0 } (OkLow 24 iv) :=
  completes_of_checks (cs := []) rfl (by rw [hport]; rfl) nofun (okLow_setWidth (by decide) iv)

/-- CRC.FEED advances the register, counts, and captures the first two bytes. -/
theorem completes_crcFeed (b : Byte) :
    Completes (.crcFeed b) s
      { s with
        crc := crcByte s.crc b
        cnt := if s.cnt.toNat < 4095 then s.cnt + 1 else 4095
        hdr0 := if s.cnt = 0 then b else s.hdr0
        hdr1 := if s.cnt = 1 then b else s.hdr1 }
      (fun w => w.extractLsb' 0 24 = crcByte s.crc b ∧ w.getLsbD 24 = decide (crcByte s.crc b = 0) ∧
        w.extractLsb' 25 7 = 0) := by
  rw [← cntNext_eq]
  exact completes_of_checks (cs := []) rfl (by rw [hport]; rfl) nofun (crcData_fields _)

/-- CRC.READ answers the register. -/
theorem completes_crcRead :
    Completes .crcRead s s
      (fun w => w.extractLsb' 0 24 = s.crc ∧ w.getLsbD 24 = decide (s.crc = 0) ∧ w.extractLsb' 25 7 = 0) :=
  completes_of_checks (cs := []) rfl (by rw [hport]; rfl) nofun (crcData_fields _)

/-- CRC.STAT answers the count and the header bytes. -/
theorem completes_crcStat :
    Completes .crcStat s s
      (fun w => w.extractLsb' 0 12 = s.cnt ∧ w.extractLsb' 12 8 = s.hdr0 ∧ w.extractLsb' 20 8 = s.hdr1 ∧
        w.extractLsb' 28 4 = 0) := by
  refine completes_of_checks (cs := []) rfl (by rw [hport]; rfl) nofun ⟨?_, ?_, ?_, resultWord_status _ _⟩
  · rw [resultWord_field _ _ (by decide), BitVec.extractLsb'_append_eq_of_add_le (by decide), BitVec.extractLsb'_eq_self]
  · rw [resultWord_field _ _ (by decide), BitVec.extractLsb'_append_eq_of_le (by decide),
      BitVec.extractLsb'_append_eq_of_add_le (by decide)]
    exact BitVec.extractLsb'_eq_self
  · rw [resultWord_field _ _ (by decide), BitVec.extractLsb'_append_eq_of_le (by decide),
      BitVec.extractLsb'_append_eq_of_le (by decide)]
    exact BitVec.extractLsb'_eq_self

/-- CRC.TXB answers an on-air byte of the register. -/
theorem completes_crcTxb {k : BitVec 2} (hk : k ≠ 3) :
    Completes (.crcTxb k) s s (OkLow 8 (crcAirByte s.crc k.toNat)) :=
  completes_of_checks (cs := [(crcByteIndexLegal k, .range)]) rfl (by rw [hport]; rfl)
    (by simpa [crcByteIndexLegal] using hk) (okLow_setWidth (by decide) _)

/-- There is no on-air byte 3. -/
theorem faultsRange_crcTxb_three : FaultsRange (.crcTxb 3) s :=
  faultsWith_of_raise (k := .range) (checked_of_right _ _ _ _ (by rw [hport]; rfl))

end

/-- Settles O16: the word is the fixed bits of R96, and the command runs on port I alone. -/
theorem crcInitRule : Obligations.CrcInitRule := fun iv s =>
  ⟨rfl, fun hport => completes_crcInit hport iv, fun hport => faultsPort_of_no_right (by rw [hport]; rfl)⟩

/-- Settles O17: the fixed bits of R96 leave the byte its eight low bits, and the command runs on port I alone. -/
theorem crcFeedRule : Obligations.CrcFeedRule := fun b s =>
  ⟨commandWord_setWidth (m := 16) 1 1 rfl b, fun hport => completes_crcFeed hport b,
    fun hport => faultsPort_of_no_right (by rw [hport]; rfl)⟩

/-- Settles O18: both commands answer over an unchanged state. -/
theorem crcReadsRule : Obligations.CrcReadsRule :=
  ⟨by decide, by decide, fun s => ⟨fun hport => ⟨completes_crcRead hport, completes_crcStat hport⟩, fun hport =>
    ⟨faultsPort_of_no_right (by rw [hport]; rfl), faultsPort_of_no_right (by rw [hport]; rfl)⟩⟩⟩

/-- Settles O19: the answered byte, bit by bit. -/
theorem crcTxbRule : Obligations.CrcTxbRule := by
  intro k s
  refine ⟨commandWord_setWidth (m := 22) 1 4 rfl k, fun hport hk => ?_, ?_, fun hport => ?_⟩
  · have hle : k.toNat ≤ 2 := by bv_omega
    exact (completes_crcTxb hport hk).imp fun w hw =>
      ⟨fun j hj => (hw.bit hj).trans (crcAirByte_bit s.crc hle hj), hw.2⟩
  · rintro hport rfl
    exact faultsRange_crcTxb_three hport
  · exact faultsPort_of_no_right (by rw [hport]; rfl)

/-! ### The residue (R148) -/

/-- A sequence of CRC.FEED on port I completes and advances the register byte by byte. -/
theorem issueAll_pseudoFeeds (d : List Byte) (s : State) :
    ∃ t, issueAll (onPort .I (pseudoFeeds d)) s = .next t ∧ t.crc = d.foldl crcByte s.crc := by
  induction d generalizing s with
  | nil => exact ⟨s, rfl, rfl⟩
  | cons b d ih =>
    obtain ⟨r, hissue⟩ := issue_of_good (p := .I) (i := .crcFeed b) (s := s) rfl nofun
    obtain ⟨t, hrest, hcrc⟩ := ih _
    exact ⟨t, (issueAll_cons hissue).trans hrest, hcrc⟩

/-- Settles O20: the tail is the three on-air bytes of the register. -/
theorem crcResidue : Obligations.CrcResidue := by
  intro iv d s
  obtain ⟨r, hinit⟩ := issue_of_good (p := .I) (i := .crcInit iv) (s := s) rfl nofun
  obtain ⟨t, hfeeds, _⟩ := issueAll_pseudoFeeds d _
  refine ⟨t, crcAirByte t.crc 0, crcAirByte t.crc 1, crcAirByte t.crc 2, (issueAll_cons hinit).trans hfeeds,
    completes_crcTxb rfl (by decide), completes_crcTxb rfl (by decide), completes_crcTxb rfl (by decide), fun x y z => ?_⟩
  obtain ⟨u, htail, hcrc⟩ := issueAll_pseudoFeeds [x, y, z] t
  exact ⟨u, htail, hcrc ▸ crcByte_three_eq_zero_iff t.crc x y z⟩

end Sys2Proof.Machine

/-! PROOFS. The packet queues (42_queue.md): what each of their commands answers and leaves, one equation for each case of its rule,
and from these how many items a queue holds, in which order they leave it, and which port changes it. -/

namespace Sys2Proof.Machine

/-! ### The queue commands, case by case (R172 to R177, R180) -/

/-- A command on a port without the right is EPORT (R303). -/
theorem exec_of_no_right {i : Instr} {s : State} (h : portMay s.port i = false) :
    exec i s = raiseFault .port (encode i) s := by
  obtain ⟨st, d, _, hexec⟩ := exec_eq i s
  exact hexec.trans (checked_of_port i s _ _ h)

section
variable {s : State} {q : QueueId}

/-- The producer that holds already is given its slot again. -/
theorem exec_pqAcq_of_held (hport : s.port = prod q) (hheld : (s.queue q).ph = .held) :
    exec (.pqAcq q) s = answer .ok ((slotAddr s.cfg q (s.queue q).wr).setWidth 28) s :=
  (checked_of_good (.pqAcq q) s [] _ (beq_iff_eq.mpr hport) nofun).trans (if_pos hheld)

/-- The producer without a hold finds a full queue FULL. -/
theorem exec_pqAcq_of_full (hport : s.port = prod q) (hhold : (s.queue q).ph ≠ .held)
    (hfull : queueFull s.cfg q (s.queue q) = true) : exec (.pqAcq q) s = answer .full 0 s :=
  (checked_of_good (.pqAcq q) s [] _ (beq_iff_eq.mpr hport) nofun).trans ((if_neg hhold).trans (if_pos hfull))

/-- The consumer that holds already is given its slot again. -/
theorem exec_cqAcq_of_held (hport : s.port = cons q) (hheld : (s.queue q).ch = .held) :
    exec (.cqAcq q) s = answer .ok ((slotAddr s.cfg q (s.queue q).rd).setWidth 28) s :=
  (checked_of_good (.cqAcq q) s [] _ (beq_iff_eq.mpr hport) nofun).trans (if_pos hheld)

/-- The consumer without a hold is given the slot at RD of a queue with an item. -/
theorem exec_cqAcq_of_item (hport : s.port = cons q) (hhold : (s.queue q).ch ≠ .held)
    (hitem : queueEmpty s.cfg q (s.queue q) = false) :
    exec (.cqAcq q) s =
      answer .ok ((slotAddr s.cfg q (s.queue q).rd).setWidth 28) (s.setQueue q { s.queue q with ch := .held }) :=
  (checked_of_good (.cqAcq q) s [] _ (beq_iff_eq.mpr hport) nofun).trans
    ((if_neg hhold).trans (if_neg (ne_true_of_eq_false hitem)))

/-- A commit with no hold is out of sequence. -/
theorem exec_pqCommit_of_noHold (hport : s.port = prod q) (hnone : (s.queue q).ph = .noHold) :
    exec (.pqCommit q) s = raiseFault .seq (encode (.pqCommit q)) s :=
  (checked_of_right (.pqCommit q) s _ _ (beq_iff_eq.mpr hport)).trans (by rw [hnone]; rfl)

/-- A commit of a STALE hold ends it. -/
theorem exec_pqCommit_of_stale (hport : s.port = prod q) (hstale : (s.queue q).ph = .stale) :
    exec (.pqCommit q) s = answer .stale 0 (s.setQueue q { s.queue q with ph := .noHold }) :=
  (checked_of_good (.pqCommit q) s _ _ (beq_iff_eq.mpr hport) (by simp [hstale])).trans (if_pos hstale)

/-- A commit of a HELD slot publishes it. -/
theorem exec_pqCommit_of_held (hport : s.port = prod q) (hheld : (s.queue q).ph = .held) :
    exec (.pqCommit q) s =
      answer .ok (BitVec.ofNat 28 (queueCount s.cfg q (queueCommitted s.cfg q (s.queue q))))
        (s.setQueue q (queueCommitted s.cfg q (s.queue q))) :=
  (checked_of_good (.pqCommit q) s _ _ (beq_iff_eq.mpr hport) (by simp [hheld])).trans (if_neg (by simp [hheld]))

/-- A release with no hold is out of sequence. -/
theorem exec_cqRel_of_noHold (hport : s.port = cons q) (hnone : (s.queue q).ch = .noHold) :
    exec (.cqRel q) s = raiseFault .seq (encode (.cqRel q)) s :=
  (checked_of_right (.cqRel q) s _ _ (beq_iff_eq.mpr hport)).trans (by rw [hnone]; rfl)

/-- A release of a STALE hold ends it. -/
theorem exec_cqRel_of_stale (hport : s.port = cons q) (hstale : (s.queue q).ch = .stale) :
    exec (.cqRel q) s = answer .stale 0 (s.setQueue q { s.queue q with ch := .noHold }) :=
  (checked_of_good (.cqRel q) s _ _ (beq_iff_eq.mpr hport) (by simp [hstale])).trans (if_pos hstale)

/-- A release of a HELD slot removes its item. -/
theorem exec_cqRel_of_held (hport : s.port = cons q) (hheld : (s.queue q).ch = .held) :
    exec (.cqRel q) s =
      answer .ok (BitVec.ofNat 28 (queueCount s.cfg q (queueReleased s.cfg q (s.queue q))))
        (s.setQueue q (queueReleased s.cfg q (s.queue q))) :=
  (checked_of_good (.cqRel q) s _ _ (beq_iff_eq.mpr hport) (by simp [hheld])).trans (if_neg (by simp [hheld]))

/-- A flush sets both indices to 0 and turns HELD holds STALE. -/
theorem exec_qFlush_of_I (hport : s.port = .I) :
    exec (.qFlush q) s =
      answer .ok 0 (s.setQueue q ⟨0, 0, holdFlushed (s.queue q).ph, holdFlushed (s.queue q).ch⟩) :=
  checked_of_good (.qFlush q) s [] _ (beq_iff_eq.mpr hport) nofun

end

/-- A command that answers completes with the word it answers. -/
theorem completes_of_answer {i : Instr} {s u : State} {st : Status} {d : Data} {fields : Word → Prop}
    (h : exec i s = answer st d u) (hf : fields (resultWord st d)) : Completes i s u fields :=
  ⟨_, h, hf⟩

/-- A number answered as the whole of DATA. -/
theorem okLow_data (d : Data) : OkLow 28 d (resultWord .ok d) :=
  ⟨resultWord_data _ _, resultWord_status _ _⟩

/-- FULL, written out (R33). -/
theorem queueFull_iff (c : Config) (q : QueueId) (v : Queue) : queueFull c q v = true ↔ queueCount c q v = c.cap q :=
  beq_iff_eq

/-- EMPTY, written out (R33). -/
theorem queueEmpty_iff (c : Config) (q : QueueId) (v : Queue) : queueEmpty c q v = true ↔ queueCount c q v = 0 :=
  beq_iff_eq

/-- Settles O22, by the cases of R172: held already, full, with room. -/
theorem pqAcqRule : Obligations.PqAcqRule := by
  refine ⟨by decide, by decide, ?_⟩
  rintro q s a rfl
  refine ⟨fun hport => ⟨fun hheld => ?_, fun hhold hfull => ?_, fun hhold hroom => ?_⟩, fun hport => ?_⟩
  · exact completes_of_answer (exec_pqAcq_of_held hport hheld) (okLow_setWidth (by decide) _)
  · exact completes_of_answer (exec_pqAcq_of_full hport hhold ((queueFull_iff _ _ _).mpr hfull)) (by decide)
  · exact completes_of_answer (exec_pqAcq_of_room hport hhold (beq_eq_false_iff_ne.mpr hroom))
      (okLow_setWidth (by decide) _)
  · exact faultsPort_of_no_right (beq_eq_false_iff_ne.mpr hport)

/-- Settles O23, by the hold the commit ends: none, STALE, HELD. -/
theorem pqCommitRule : Obligations.PqCommitRule := by
  refine ⟨by decide, by decide, ?_⟩
  rintro q s v rfl
  refine ⟨fun hport => ⟨fun hnone => ?_, fun hstale => ?_, fun hheld => ?_⟩, fun hport => ?_⟩
  · exact faultsWith_of_raise (exec_pqCommit_of_noHold hport hnone)
  · exact completes_of_answer (exec_pqCommit_of_stale hport hstale) (by decide)
  · exact completes_of_answer (exec_pqCommit_of_held hport hheld) (okLow_data _)
  · exact faultsPort_of_no_right (beq_eq_false_iff_ne.mpr hport)

/-- Settles O24, by the cases of R174: held already, empty, with an item. -/
theorem cqAcqRule : Obligations.CqAcqRule := by
  refine ⟨by decide, by decide, ?_⟩
  rintro q s a rfl
  refine ⟨fun hport => ⟨fun hheld => ?_, fun hhold hempty => ?_, fun hhold hitem => ?_⟩, fun hport => ?_⟩
  · exact completes_of_answer (exec_cqAcq_of_held hport hheld) (okLow_setWidth (by decide) _)
  · exact completes_of_answer (exec_cqAcq_of_empty hport hhold ((queueEmpty_iff _ _ _).mpr hempty)) (by decide)
  · exact completes_of_answer (exec_cqAcq_of_item hport hhold (beq_eq_false_iff_ne.mpr hitem))
      (okLow_setWidth (by decide) _)
  · exact faultsPort_of_no_right (beq_eq_false_iff_ne.mpr hport)

/-- Settles O25, by the hold the release ends: none, STALE, HELD. -/
theorem cqRelRule : Obligations.CqRelRule := by
  refine ⟨by decide, by decide, ?_⟩
  rintro q s v rfl
  refine ⟨fun hport => ⟨fun hnone => ?_, fun hstale => ?_, fun hheld => ?_⟩, fun hport => ?_⟩
  · exact faultsWith_of_raise (exec_cqRel_of_noHold hport hnone)
  · exact completes_of_answer (exec_cqRel_of_stale hport hstale) (by decide)
  · exact completes_of_answer (exec_cqRel_of_held hport hheld) (okLow_data _)
  · exact faultsPort_of_no_right (beq_eq_false_iff_ne.mpr hport)

/-- A flushed hold, written out (R180). -/
theorem holdFlushed_eq_ite (x : Hold) : holdFlushed x = if x = .held then .stale else x := by
  cases x <;> rfl

/-- Settles O27: equal indices count nothing, and no hold is HELD after a flush. -/
theorem qFlushRule : Obligations.QFlushRule := by
  refine ⟨by decide, by decide, ?_⟩
  rintro q s v rfl
  rw [← holdFlushed_eq_ite, ← holdFlushed_eq_ite]
  have hcount := queueCount_zero s.cfg q (holdFlushed (s.queue q).ph) (holdFlushed (s.queue q).ch)
  refine ⟨fun hport => ⟨?_, ?_, fun hcap => ?_, fun p a => ?_⟩, fun hport => ?_⟩
  · exact completes_of_answer (exec_qFlush_of_I hport) (by decide)
  · exact (queueEmpty_iff _ _ _).mpr hcount
  · exact beq_eq_false_iff_ne.mpr (by omega)
  · refine ownsIn_eq_false_of_no_hold ?_ ?_ p a <;> rw [State.setQueue_queue_self] <;> exact holdFlushed_ne_held _
  · exact faultsPort_of_no_right (by rw [hport]; rfl)

/-! ### The holds and the ports (R170, R176) -/

/-- Settles O29: with room and an item the count is no multiple of CAP, so the two slots differ. -/
theorem holdsNeverShareASlot : Obligations.HoldsNeverShareASlot :=
  fun _ q hs hph hch => (hs.queueLegal q).slotOf_ne hph hch

/-- What a command that port A may issue writes: the producer's side of TXQ or the consumer's side of RXQ, at most (R170, R303). -/
theorem effectOf_of_portA {i : Instr} (h : portMay .A i = true) (s : State) :
    ∃ v w, effectOf s i = { s with txq := v, rxq := w } ∧
      v.rd = s.txq.rd ∧ v.ch = s.txq.ch ∧ w.wr = s.rxq.wr ∧ w.ph = s.rxq.ph := by
  cases i with
  | sysNop | sysRdfault | sysRdfcmd | qStat => exact ⟨_, _, rfl, rfl, rfl, rfl, rfl⟩
  | pqAcq q =>
    cases q with
    | txq => exact ⟨_, _, rfl, producerAcquired_rd _ _ _, producerAcquired_ch _ _ _, rfl, rfl⟩
    | rxq => cases h
  | pqCommit q =>
    cases q with
    | txq => exact ⟨_, _, rfl, producerDone_rd _ _ _, producerDone_ch _ _ _, rfl, rfl⟩
    | rxq => cases h
  | cqAcq q =>
    cases q with
    | txq => cases h
    | rxq => exact ⟨_, _, rfl, rfl, rfl, consumerAcquired_wr _ _ _, consumerAcquired_ph _ _ _⟩
  | cqRel q =>
    cases q with
    | txq => cases h
    | rxq => exact ⟨_, _, rfl, rfl, rfl, consumerDone_wr _ _ _, consumerDone_ph _ _ _⟩
  | _ => cases h

/-- An answer to port A leaves port I's last answer. -/
theorem State.respond_respI_of_portA {s : State} (h : s.port = .A) (r : Response) : (s.respond r).respI = s.respI :=
  if_neg (by rw [h]; decide)

/-- Settles O57: a fault writes no unit, and the effects left to port A write its own sides of the queues. -/
theorem portAIsConfined : Obligations.PortAIsConfined := by
  intro i s t hexec hport
  rcases exec_next_cases hexec with ⟨k, w, r, rfl⟩ | ⟨hmay, _, r, rfl⟩
  · exact ⟨rfl, rfl, rfl, rfl, rfl, rfl, rfl, rfl, rfl, rfl, rfl, rfl, rfl, rfl, rfl, rfl,
      State.respond_respI_of_portA (s := s.takeFault k w) hport r⟩
  · rw [hport] at hmay
    obtain ⟨v, w, heffect, hrd, hch, hwr, hph⟩ := effectOf_of_portA hmay s
    rw [heffect]
    exact ⟨rfl, rfl, rfl, rfl, rfl, rfl, rfl, rfl, rfl, rfl, rfl, rfl, hrd, hch, hwr, hph,
      State.respond_respI_of_portA (s := { s with txq := v, rxq := w }) hport r⟩

end Sys2Proof.Machine

/-! PROOFS. What a packet queue holds (42_queue.md R178 to R182): how each command moves COUNT, the slots of the items not yet
taken, and the order in which they are taken. -/

namespace Sys2Proof.Machine

/-! ### What one command does to a queue -/

/-- A fault leaves every queue and is not answered OK. -/
theorem queue_of_raiseFault {k : FaultKind} {w : Word} {s t : State} (h : raiseFault k w s = .next t) (q : QueueId) :
    t.queue q = s.queue q ∧ statusOf s t ≠ some 0 := by
  rw [raiseFault_eq] at h
  cases h
  refine ⟨by simp, ?_⟩
  rw [statusOf_respond s (s.takeFault k w) _ _ rfl, ne_eq, Option.some_inj]
  exact statusCode_faultStatus_ne_zero k

/-- A command on a port without the right leaves every queue. -/
theorem queue_of_no_right {i : Instr} {s t : State} (h : exec i s = .next t) (hmay : portMay s.port i = false) (q : QueueId) :
    t.queue q = s.queue q :=
  (queue_of_raiseFault ((exec_of_no_right hmay).symm.trans h) q).1

/-- An answered state has the queues of the effect, and the port that issued the command has the status. -/
theorem queue_of_answer {s u t : State} {st : Status} {d : Data} (h : answer st d u = .next t) (hport : u.port = s.port)
    (q : QueueId) : t.queue q = u.queue q ∧ statusOf s t = some (statusCode st) := by
  rw [answer_eq] at h
  cases h
  exact ⟨u.respond_queue _ q, statusOf_respond s u st d hport⟩

/-- From `v` to `v'` nothing is published, taken or newly held; a hold may have ended. -/
structure Queue.HoldsEnded (v v' : Queue) : Prop where
  rd : v'.rd = v.rd
  wr : v'.wr = v.wr
  ph : v'.ph = .held → v.ph = .held
  ch : v'.ch = .held → v.ch = .held

/-- A queue that stays has published, taken and newly held nothing. -/
theorem Queue.HoldsEnded.of_eq {v v' : Queue} (h : v' = v) : v.HoldsEnded v' :=
  h ▸ ⟨rfl, rfl, id, id⟩

/-- A commit or release moves its index and answers OK, from a HELD hold, or moves none and does not answer OK. -/
theorem queue_of_endHold {i : Instr} {s t : State} {q : QueueId} {hold : Hold} {d : Data} {ended moved : Queue}
    (h : checked i s [(decide (hold ≠ .noHold), .seq)]
      (if hold = .stale then answer .stale 0 (s.setQueue q ended) else answer .ok d (s.setQueue q moved)) = .next t)
    (hended : (s.queue q).HoldsEnded ended) :
    (portMay s.port i = true ∧ hold = .held ∧ t.queue q = moved ∧ statusOf s t = some 0) ∨
      ((s.queue q).HoldsEnded (t.queue q) ∧ statusOf s t ≠ some 0) := by
  rcases checked_cases i s _ _ with ⟨hmay, hchecks, hbody⟩ | ⟨_, hfault⟩ | ⟨k, _, _, hfault⟩
  case inl =>
    rw [hbody] at h
    cases hold with
    | noHold => simp at hchecks
    | stale =>
      obtain ⟨hq, hst⟩ := queue_of_answer (s := s) h rfl q
      rw [hq, hst, State.setQueue_queue_self]
      exact .inr ⟨hended, by decide⟩
    | held =>
      obtain ⟨hq, hst⟩ := queue_of_answer (s := s) h rfl q
      exact .inl ⟨hmay, rfl, hq.trans (State.setQueue_queue_self _ _ _), hst⟩
  case inr.inl =>
    obtain ⟨hq, hst⟩ := queue_of_raiseFault (hfault.symm.trans h) q
    exact .inr ⟨.of_eq hq, hst⟩
  case inr.inr =>
    obtain ⟨hq, hst⟩ := queue_of_raiseFault (hfault.symm.trans h) q
    exact .inr ⟨.of_eq hq, hst⟩

/-- PQ.COMMIT publishes the slot its producer holds and answers OK, or publishes nothing and does not (R173). -/
theorem queue_of_pqCommit {s t : State} {q : QueueId} (h : exec (.pqCommit q) s = .next t) :
    (s.port = prod q ∧ (s.queue q).ph = .held ∧ t.queue q = queueCommitted s.cfg q (s.queue q) ∧ statusOf s t = some 0) ∨
      ((s.queue q).HoldsEnded (t.queue q) ∧ statusOf s t ≠ some 0) :=
  (queue_of_endHold h ⟨rfl, rfl, nofun, id⟩).imp_left (And.imp_left beq_iff_eq.mp)

/-- CQ.REL takes the slot its consumer holds and answers OK, or takes nothing and does not (R177). -/
theorem queue_of_cqRel {s t : State} {q : QueueId} (h : exec (.cqRel q) s = .next t) :
    (s.port = cons q ∧ (s.queue q).ch = .held ∧ t.queue q = queueReleased s.cfg q (s.queue q) ∧ statusOf s t = some 0) ∨
      ((s.queue q).HoldsEnded (t.queue q) ∧ statusOf s t ≠ some 0) :=
  (queue_of_endHold h ⟨rfl, rfl, id, nofun⟩).imp_left (And.imp_left beq_iff_eq.mp)

/-- A status other than OK gives no slot. -/
theorem slotAnswered_of_status_ne {s t : State} (h : statusOf s t ≠ some 0) (a : Addr) : slotAnswered s t a = a := by
  unfold statusOf at h
  unfold slotAnswered
  split at h
  · exact if_neg fun hzero => h (congrArg some hzero)
  · rfl

/-- An address answered with OK is the slot given. -/
theorem slotAnswered_of_answer {s u t : State} {x : Addr} (h : answer .ok (x.setWidth 28) u = .next t)
    (hport : u.port = s.port) (a : Addr) : slotAnswered s t a = x := by
  rw [answer_eq] at h
  cases h
  rw [slotAnswered, ← hport, State.respond_response_self]
  exact (if_pos (resultWord_status _ _)).trans (okLow_setWidth (by decide) x).1

/-- An acquire leaves a slot held and gives it, or leaves the queue and gives none. -/
theorem queue_of_acquire {i : Instr} {s t : State} {q : QueueId} {held denied : Prop} [Decidable held] [Decidable denied]
    {st : Status} {x : Addr} {acquired : Queue} (hst : some (statusCode st) ≠ some 0) (hagain : held → acquired = s.queue q)
    (h : checked i s [] (if held then answer .ok (x.setWidth 28) s else if denied then answer st 0 s
      else answer .ok (x.setWidth 28) (s.setQueue q acquired)) = .next t) :
    (t.queue q = acquired ∧ ∀ a, slotAnswered s t a = x) ∨ (t.queue q = s.queue q ∧ ∀ a, slotAnswered s t a = a) := by
  rcases checked_cases i s [] _ with ⟨_, _, hbody⟩ | ⟨_, hfault⟩ | ⟨k, _, hk, _⟩
  case inl =>
    rw [hbody] at h
    split_ifs at h with hheld hdenied
    · exact .inl ⟨(queue_of_answer (s := s) h rfl q).1.trans (hagain hheld).symm, slotAnswered_of_answer h rfl⟩
    · obtain ⟨hq, hstatus⟩ := queue_of_answer (s := s) h rfl q
      exact .inr ⟨hq, slotAnswered_of_status_ne (hstatus ▸ hst)⟩
    · exact .inl ⟨(queue_of_answer (s := s) h rfl q).1.trans (s.setQueue_queue_self q acquired), slotAnswered_of_answer h rfl⟩
  case inr.inl =>
    obtain ⟨hq, hstatus⟩ := queue_of_raiseFault (hfault.symm.trans h) q
    exact .inr ⟨hq, slotAnswered_of_status_ne hstatus⟩
  case inr.inr => cases hk

/-- PQ.ACQ leaves the slot at WR held and gives it, or leaves the queue and gives none (R172). -/
theorem queue_of_pqAcq {s t : State} {q : QueueId} (h : exec (.pqAcq q) s = .next t) :
    (t.queue q = { s.queue q with ph := .held } ∧ ∀ a, slotAnswered s t a = slotAddr s.cfg q (s.queue q).wr) ∨
      (t.queue q = s.queue q ∧ ∀ a, slotAnswered s t a = a) :=
  queue_of_acquire (by decide) (fun hheld => by rw [← hheld]) h

/-- CQ.ACQ leaves the slot at RD held and gives it, or leaves the queue and gives none (R174). -/
theorem queue_of_cqAcq {s t : State} {q : QueueId} (h : exec (.cqAcq q) s = .next t) :
    (t.queue q = { s.queue q with ch := .held } ∧ ∀ a, slotAnswered s t a = slotAddr s.cfg q (s.queue q).rd) ∨
      (t.queue q = s.queue q ∧ ∀ a, slotAnswered s t a = a) :=
  queue_of_acquire (by decide) (fun hheld => by rw [← hheld]) h

/-- The commands that may write a queue's registers. -/
def queueWriters (q : QueueId) : List Instr :=
  [.pqAcq q, .pqCommit q, .cqAcq q, .cqRel q, .qFlush q]

/-- Every other command leaves the queue. -/
theorem queue_of_others {i : Instr} {s t : State} {q : QueueId} (h : exec i s = .next t) (hi : i ∉ queueWriters q) :
    t.queue q = s.queue q := by
  rcases exec_next_cases h with ⟨k, w, r, rfl⟩ | ⟨_, _, r, rfl⟩
  · rw [State.respond_queue, State.takeFault_queue]
  · rw [State.respond_queue]
    by_contra hne
    cases i with
    | pqAcq q' | pqCommit q' | cqAcq q' | cqRel q' | qFlush q' =>
      obtain ⟨rfl, _⟩ := State.eq_of_setQueue_ne id hne
      exact hi (by simp [queueWriters])
    | _ => exact hne (by cases q <;> rfl)

/-! ### How a command moves COUNT (R33, R185) -/

/-- COUNT is read from the indices alone. -/
theorem queueCount_congr {c : Config} {q : QueueId} {v v' : Queue} (hrd : v'.rd = v.rd) (hwr : v'.wr = v.wr) :
    queueCount c q v' = queueCount c q v := by
  rw [queueCount, hrd, hwr, queueCount]

/-- In a legal state a command leaves COUNT, or is a commit that raises it by one, a release that lowers it by one, or a flush that
makes it 0, each on the port that has the right. -/
theorem queueCount_of_exec {i : Instr} {s t : State} (q : QueueId) (hs : s.Legal) (h : exec i s = .next t) :
    queueCount s.cfg q (t.queue q) = queueCount s.cfg q (s.queue q) ∨
      (i = .pqCommit q ∧ s.port = prod q ∧ queueCount s.cfg q (t.queue q) = queueCount s.cfg q (s.queue q) + 1) ∨
      (i = .cqRel q ∧ s.port = cons q ∧ queueCount s.cfg q (t.queue q) + 1 = queueCount s.cfg q (s.queue q)) ∨
      (i = .qFlush q ∧ s.port = .I ∧ queueCount s.cfg q (t.queue q) = 0) := by
  have hcap := (cap_of_wellFormed hs.config q).2
  by_cases hi : i ∈ queueWriters q
  · simp only [queueWriters, List.mem_cons, List.not_mem_nil, or_false] at hi
    rcases hi with rfl | rfl | rfl | rfl | rfl
    case inl =>
      rcases queue_of_pqAcq h with ⟨hq, _⟩ | ⟨hq, _⟩ <;> exact .inl (queueCount_congr (by rw [hq]) (by rw [hq]))
    case inr.inl =>
      rcases queue_of_pqCommit h with ⟨hport, hheld, hq, _⟩ | ⟨hended, _⟩
      · rw [hq]
        exact .inr (.inl ⟨rfl, hport, queueCount_committed hcap (hs.queueLegal q) (hs.producerRoom q hheld)⟩)
      · exact .inl (queueCount_congr hended.rd hended.wr)
    case inr.inr.inl =>
      rcases queue_of_cqAcq h with ⟨hq, _⟩ | ⟨hq, _⟩ <;> exact .inl (queueCount_congr (by rw [hq]) (by rw [hq]))
    case inr.inr.inr.inl =>
      rcases queue_of_cqRel h with ⟨hport, hheld, hq, _⟩ | ⟨hended, _⟩
      · have hitem := hs.consumerItem q hheld
        have hcount := queueCount_released hcap (hs.queueLegal q) hitem
        rw [hq]
        exact .inr (.inr (.inl ⟨rfl, hport, by omega⟩))
      · exact .inl (queueCount_congr hended.rd hended.wr)
    case inr.inr.inr.inr =>
      cases hport : s.port with
      | I =>
        obtain ⟨hq, _⟩ := queue_of_answer (s := s) ((exec_qFlush_of_I hport).symm.trans h) rfl q
        rw [hq, State.setQueue_queue_self]
        exact .inr (.inr (.inr ⟨rfl, rfl, queueCount_zero _ _ _ _⟩))
      | A => exact .inl (by rw [queue_of_no_right h (by rw [hport]; rfl) q])
  · exact .inl (by rw [queue_of_others h hi])

/-- A command keeps a legal state legal. -/
theorem State.Legal.exec {i : Instr} {s t : State} (hs : s.Legal) (h : exec i s = .next t) : t.Legal := by
  rcases exec_next_cases h with ⟨k, w, r, rfl⟩ | ⟨_, hchecks, r, rfl⟩
  · exact (hs.takeFault k w).respond r
  · exact (hs.effectOf hchecks).respond r

/-! ### Q.STAT (R179) -/

/-- A field of a value answered in the low bits of a result word. -/
theorem OkLow.field {n : Nat} {v : BitVec n} {w : Word} (h : OkLow n v w) {lo m : Nat} (hm : lo + m ≤ n) :
    w.extractLsb' lo m = v.extractLsb' lo m := by
  rw [← h.1]
  refine BitVec.eq_of_getLsbD_eq fun j hj => ?_
  simp [hj, show lo + j < n by omega]

/-- Q.STAT with SEL 0 answers the indices, COUNT and the flags. -/
theorem completes_qStat_status (q : QueueId) (s : State) :
    Completes (.qStat q false) s s fun w =>
      w.extractLsb' 0 8 = (s.queue q).rd ∧ w.extractLsb' 8 8 = (s.queue q).wr ∧
      w.extractLsb' 16 8 = BitVec.ofNat 8 (queueCount s.cfg q (s.queue q)) ∧
      w.getLsbD 24 = decide (queueCount s.cfg q (s.queue q) = 0) ∧
      w.getLsbD 25 = decide (queueCount s.cfg q (s.queue q) = s.cfg.cap q) ∧ w.extractLsb' 26 6 = 0 := by
  have hlow : OkLow 26 _ (resultWord .ok (queueStatus s.cfg q (s.queue q))) := okLow_setWidth (by decide) _
  refine completes_of_answer (st := .ok) (d := queueStatus s.cfg q (s.queue q)) rfl ⟨?_, ?_, ?_, ?_, ?_, hlow.2⟩
  · rw [hlow.field (by decide), BitVec.extractLsb'_append_eq_of_add_le (by decide), BitVec.extractLsb'_eq_self]
  · rw [hlow.field (by decide), BitVec.extractLsb'_append_eq_of_le (by decide),
      BitVec.extractLsb'_append_eq_of_add_le (by decide)]
    exact BitVec.extractLsb'_eq_self
  · rw [hlow.field (by decide), BitVec.extractLsb'_append_eq_of_le (by decide),
      BitVec.extractLsb'_append_eq_of_le (by decide), BitVec.extractLsb'_append_eq_of_add_le (by decide)]
    exact BitVec.extractLsb'_eq_self
  · rw [hlow.bit (by decide)]
    simp only [BitVec.getLsbD_append]
    simp [queueEmpty, beq_eq_decide]
  · rw [hlow.bit (by decide)]
    simp only [BitVec.getLsbD_append]
    simp [queueFull, beq_eq_decide]

/-- Q.STAT with SEL 1 answers the holds and the capacity. -/
theorem completes_qStat_holds (q : QueueId) (s : State) :
    Completes (.qStat q true) s s fun w =>
      w.extractLsb' 0 2 = holdCode (s.queue q).ph ∧ w.extractLsb' 2 2 = holdCode (s.queue q).ch ∧
      w.extractLsb' 4 8 = BitVec.ofNat 8 (s.cfg.cap q) ∧ w.extractLsb' 12 20 = 0 := by
  have hlow : OkLow 12 _ (resultWord .ok (queueHolds s.cfg q (s.queue q))) := okLow_setWidth (by decide) _
  refine completes_of_answer (st := .ok) (d := queueHolds s.cfg q (s.queue q)) rfl ⟨?_, ?_, ?_, hlow.2⟩
  · rw [hlow.field (by decide), BitVec.extractLsb'_append_eq_of_add_le (by decide), BitVec.extractLsb'_eq_self]
  · rw [hlow.field (by decide), BitVec.extractLsb'_append_eq_of_le (by decide),
      BitVec.extractLsb'_append_eq_of_add_le (by decide)]
    exact BitVec.extractLsb'_eq_self
  · rw [hlow.field (by decide), BitVec.extractLsb'_append_eq_of_le (by decide),
      BitVec.extractLsb'_append_eq_of_le (by decide)]
    exact BitVec.extractLsb'_eq_self

/-- Settles O26: the answers field by field; and of the commands that move COUNT only a release and a flush lower it from CAP, and
only a commit raises it from 0. -/
theorem qStatRule : Obligations.QStatRule := by
  refine ⟨by decide, by decide, by decide, by decide, fun q s =>
    ⟨completes_qStat_status q s, completes_qStat_holds q s, fun i t hs h => ?_⟩⟩
  have hcount := queueCount_of_exec q hs h
  have hle := (hs.exec h).countLe q
  rw [(exec_frame h).1] at hle ⊢
  simp only [← Bool.not_eq_true, queueFull_iff, queueEmpty_iff]
  constructor
  · intro hfull hnot
    rcases hcount with hsame | ⟨_, _, hup⟩ | ⟨rfl, hport, _⟩ | ⟨rfl, hport, _⟩
    · omega
    · omega
    · exact .inl ⟨rfl, hport⟩
    · exact .inr ⟨rfl, hport⟩
  · intro hempty hnot
    rcases hcount with hsame | ⟨rfl, hport, _⟩ | ⟨_, _, hdown⟩ | ⟨_, _, hzero⟩
    · omega
    · exact ⟨rfl, hport⟩
    · omega
    · omega

/-! ### Filling a queue (R182) -/

/-- Which port executes is no part of a queue. -/
@[simp] theorem State.withPort_queue (s : State) (p : Port) (q : QueueId) : ({ s with port := p } : State).queue q = s.queue q := by
  cases q <;> rfl

/-- No clause reads the port. -/
theorem State.Legal.withPort {s : State} (h : s.Legal) (p : Port) : ({ s with port := p } : State).Legal := { h with }

/-- The producer of a queue with room is given the slot at WR, whether or not it holds it already. -/
theorem exec_pqAcq_of_count_lt {s : State} {q : QueueId} (hport : s.port = prod q)
    (hroom : queueCount s.cfg q (s.queue q) < s.cfg.cap q) :
    exec (.pqAcq q) s =
      answer .ok ((slotAddr s.cfg q (s.queue q).wr).setWidth 28) (s.setQueue q { s.queue q with ph := .held }) := by
  by_cases hheld : (s.queue q).ph = .held
  · rw [exec_pqAcq_of_held hport hheld, ← hheld, State.setQueue_queue_eq]
  · exact exec_pqAcq_of_room hport hheld (beq_eq_false_iff_ne.mpr hroom.ne)

/-- A pair of PQ.ACQ and PQ.COMMIT on a queue with room answers OK twice and counts one item more. -/
theorem issue_producerPair {s : State} {q : QueueId} (hs : s.Legal) (hroom : queueCount s.cfg q (s.queue q) < s.cfg.cap q) :
    ∃ u v, issue (prod q) (.pqAcq q) s = .next u ∧ issue (prod q) (.pqCommit q) u = .next v ∧
      statusOf { s with port := prod q } u = some 0 ∧ statusOf { u with port := prod q } v = some 0 ∧
      v.Legal ∧ v.cfg = s.cfg ∧ queueCount v.cfg q (v.queue q) = queueCount s.cfg q (s.queue q) + 1 := by
  obtain ⟨u, hu⟩ := exec_next (.pqAcq q) { s with port := prod q }
  have hacq := exec_pqAcq_of_count_lt (s := { s with port := prod q }) rfl (by rwa [State.withPort_queue])
  obtain ⟨huq, hust⟩ := queue_of_answer (s := { s with port := prod q }) (hacq.symm.trans hu) rfl q
  rw [State.setQueue_queue_self, State.withPort_queue] at huq
  have hheld : ({ u with port := prod q } : State).queue q = { s.queue q with ph := .held } :=
    (State.withPort_queue u _ q).trans huq
  have hul : ({ u with port := prod q } : State).Legal := ((hs.withPort _).exec hu).withPort _
  obtain ⟨v, hv⟩ := exec_next (.pqCommit q) { u with port := prod q }
  have hcommit := exec_pqCommit_of_held (s := { u with port := prod q }) rfl (by rw [hheld])
  obtain ⟨hvq, hvst⟩ := queue_of_answer (s := { u with port := prod q }) (hcommit.symm.trans hv) rfl q
  have hucfg : u.cfg = s.cfg := (exec_frame hu).1
  have hvcfg : v.cfg = u.cfg := (exec_frame hv).1
  refine ⟨u, v, hu, hv, hust, hvst, hul.exec hv, hvcfg.trans hucfg, ?_⟩
  rw [hvq, State.setQueue_queue_self, hvcfg]
  have hcount := queueCount_committed (cap_of_wellFormed hul.config q).2 (hul.queueLegal q)
    (hul.producerRoom q (by rw [hheld]))
  refine hcount.trans (congrArg (· + 1) ?_)
  rw [hheld, ← hucfg]
  exact queueCount_congr rfl rfl

/-- As many pairs as a queue has room for all run, and each counts one item more. -/
theorem issueAll_producerPairs (q : QueueId) (n : Nat) {s : State} (hs : s.Legal)
    (hroom : queueCount s.cfg q (s.queue q) + n ≤ s.cfg.cap q) :
    ∃ t, issueAll (List.replicate n [(prod q, Instr.pqAcq q), (prod q, Instr.pqCommit q)]).flatten s = .next t ∧
      t.Legal ∧ t.cfg = s.cfg ∧ queueCount t.cfg q (t.queue q) = queueCount s.cfg q (s.queue q) + n := by
  induction n generalizing s with
  | zero => exact ⟨s, rfl, hs, rfl, rfl⟩
  | succ n ih =>
    obtain ⟨u, v, hacq, hcommit, _, _, hv, hcfg, hcount⟩ := issue_producerPair hs (q := q) (by omega)
    obtain ⟨t, hrest, ht, htcfg, htcount⟩ := ih hv (by rw [hcount, hcfg]; omega)
    refine ⟨t, ?_, ht, htcfg.trans hcfg, by omega⟩
    exact (issueAll_cons hacq).trans ((issueAll_cons hcommit).trans hrest)

/-- A full queue of a legal state is not held by its producer: the next PQ.ACQ answers FULL and leaves the queue. -/
theorem issue_pqAcq_of_full {s : State} {q : QueueId} (hs : s.Legal)
    (hfull : queueCount s.cfg q (s.queue q) = s.cfg.cap q) :
    ∃ u, issue (prod q) (.pqAcq q) s = .next u ∧ u.response (prod q) = .result 0x10000000 ∧ u.queue q = s.queue q := by
  have hhold : (s.queue q).ph ≠ .held := fun hheld => (hs.producerRoom q hheld).ne hfull
  have hexec := exec_pqAcq_of_full (s := { s with port := prod q }) rfl (by rwa [State.withPort_queue])
    (by rw [State.withPort_queue]; exact (queueFull_iff _ _ _).mpr hfull)
  exact ⟨_, hexec, State.respond_response_self { s with port := prod q } _,
    (State.respond_queue _ _ q).trans (State.withPort_queue s _ q)⟩

/-- Settles O30: the pairs fill the queue one by one, and the count says whether a slot is left. -/
theorem queueAcceptsExactlyItsCapacity : Obligations.QueueAcceptsExactlyItsCapacity := by
  intro s q hs hzero n hn
  obtain ⟨t, hrun, ht, hcfg, hcount⟩ := issueAll_producerPairs q n hs (by omega)
  rw [hzero, Nat.zero_add] at hcount
  rw [← hcfg]
  refine ⟨t, hrun, hcount, fun hlt => ?_, fun hfull => issue_pqAcq_of_full ht (hcount.trans hfull)⟩
  obtain ⟨u, v, hacq, hcommit, hu, hv, _⟩ := issue_producerPair ht (q := q) (by omega)
  exact ⟨u, v, hacq, hcommit, hu, hv⟩

/-! ### The items of a queue (R178) -/

/-- The slots of the items not yet taken, oldest first: the COUNT slots from RD on. -/
def waitingSlots (c : Config) (q : QueueId) (v : Queue) : List Addr :=
  (List.iterate (indexNext c q) v.rd (queueCount c q v)).map (slotAddr c q)

/-- As many items wait as COUNT says. -/
@[simp] theorem length_waitingSlots (c : Config) (q : QueueId) (v : Queue) :
    (waitingSlots c q v).length = queueCount c q v := by
  simp [waitingSlots]

/-- The waiting items are read from the indices alone. -/
theorem waitingSlots_congr {c : Config} {q : QueueId} {v v' : Queue} (hrd : v'.rd = v.rd) (hwr : v'.wr = v.wr) :
    waitingSlots c q v' = waitingSlots c q v := by
  rw [waitingSlots, hrd, queueCount_congr hrd hwr, waitingSlots]

/-- An index that steps `k` times goes up by `k` around `2*CAP` (R30). -/
theorem indexNext_iterate_toNat {c : Config} {q : QueueId} {x : BitVec 8} (hc : c.cap q ≤ 127) (hx : x.toNat < 2 * c.cap q)
    (k : Nat) : ((indexNext c q)^[k] x).toNat = (x.toNat + k) % (2 * c.cap q) := by
  induction k with
  | zero => exact (Nat.mod_eq_of_lt hx).symm
  | succ k ih =>
    have hlt : (x.toNat + k + 1) % (2 * c.cap q) < 2 * c.cap q := Nat.mod_lt _ (by omega)
    rw [Function.iterate_succ_apply', indexNext, BitVec.toNat_ofNat, ih, Nat.mod_add_mod, Nat.mod_eq_of_lt (by omega)]
    rfl

/-- WR is COUNT steps after RD (R33). -/
theorem Queue.Legal.indexNext_iterate_count {c : Config} {q : QueueId} {v : Queue} (hc : c.cap q ≤ 127) (h : v.Legal c q) :
    (indexNext c q)^[queueCount c q v] v.rd = v.wr := by
  have hr := h.rdRange
  have hw := h.wrRange
  apply BitVec.eq_of_toNat_eq
  rw [indexNext_iterate_toNat hc hr, queueCount_legal c q v hr hw]
  split
  · rw [Nat.mod_eq_of_lt (by omega)]
    omega
  · rw [show v.rd.toNat + (v.wr.toNat + 2 * c.cap q - v.rd.toNat) = v.wr.toNat + 2 * c.cap q by omega, Nat.add_mod_right,
      Nat.mod_eq_of_lt hw]

/-- A commit puts the slot at WR behind the waiting ones (R173). -/
theorem waitingSlots_committed {c : Config} {q : QueueId} {v : Queue} (hc : c.cap q ≤ 127) (h : v.Legal c q)
    (hroom : queueCount c q v < c.cap q) :
    waitingSlots c q (queueCommitted c q v) = waitingSlots c q v ++ [slotAddr c q v.wr] := by
  have hrd : (queueCommitted c q v).rd = v.rd := rfl
  rw [waitingSlots, queueCount_committed hc h hroom, hrd, List.iterate_add, h.indexNext_iterate_count hc, List.map_append]
  rfl

/-- A release takes the slot at RD from the front of the waiting ones (R177). -/
theorem waitingSlots_released {c : Config} {q : QueueId} {v : Queue} (hc : c.cap q ≤ 127) (h : v.Legal c q)
    (hitem : 1 ≤ queueCount c q v) :
    slotAddr c q v.rd :: waitingSlots c q (queueReleased c q v) = waitingSlots c q v := by
  obtain ⟨n, hn⟩ := Nat.exists_eq_add_of_le' hitem
  rw [waitingSlots, queueCount_released hc h hitem, waitingSlots, hn]
  rfl

/-! ### The trace of a queue (R178) -/

namespace QueueTrace

/-- A history is in order: each side that holds was given the slot at its index, and what was published is what was taken and then
the waiting slots. -/
structure Ordered (c : Config) (q : QueueId) (h : QueueTrace) : Prop where
  legal : h.state.Legal
  cfg : h.state.cfg = c
  producer : (h.state.queue q).ph = .held → h.producerSlot = slotAddr c q (h.state.queue q).wr
  consumer : (h.state.queue q).ch = .held → h.consumerSlot = slotAddr c q (h.state.queue q).rd
  published : h.published = h.taken ++ waitingSlots c q (h.state.queue q)

section
variable {q : QueueId} {h : QueueTrace} {p : Port} {t : State}

/-- PQ.ACQ adds to the history the slot it gives. -/
theorem issue_pqAcq (hexec : exec (.pqAcq q) { h.state with port := p } = .next t) :
    h.issue q (p, .pqAcq q) =
      { h with state := t, producerSlot := slotAnswered { h.state with port := p } t h.producerSlot } := by
  simp [issue, hexec]

/-- CQ.ACQ adds to the history the slot it gives. -/
theorem issue_cqAcq (hexec : exec (.cqAcq q) { h.state with port := p } = .next t) :
    h.issue q (p, .cqAcq q) =
      { h with state := t, consumerSlot := slotAnswered { h.state with port := p } t h.consumerSlot } := by
  simp [issue, hexec]

/-- PQ.COMMIT answered OK adds its side's slot to those published. -/
theorem issue_pqCommit (hexec : exec (.pqCommit q) { h.state with port := p } = .next t) :
    h.issue q (p, .pqCommit q) =
      { h with
        state := t
        published :=
          if statusOf { h.state with port := p } t = some 0 then h.published ++ [h.producerSlot] else h.published } := by
  simp [issue, hexec]

/-- CQ.REL answered OK adds its side's slot to those taken. -/
theorem issue_cqRel (hexec : exec (.cqRel q) { h.state with port := p } = .next t) :
    h.issue q (p, .cqRel q) =
      { h with
        state := t
        taken := if statusOf { h.state with port := p } t = some 0 then h.taken ++ [h.consumerSlot] else h.taken } := by
  simp [issue, hexec]

/-- Every other command adds nothing to the history. -/
theorem issue_of_others {i : Instr} (hexec : exec i { h.state with port := p } = .next t) (hi : i ∉ queueWriters q) :
    h.issue q (p, i) = { h with state := t } := by
  simp only [queueWriters, List.mem_cons, List.not_mem_nil, or_false, not_or] at hi
  simp [issue, hexec, hi]

end

namespace Ordered
variable {c : Config} {q : QueueId} {h : QueueTrace} {t : State}

/-- What publishes, takes and newly holds nothing keeps the order. -/
theorem holdsEnded (ho : h.Ordered c q) (ht : t.Legal) (hcfg : t.cfg = c)
    (hq : (h.state.queue q).HoldsEnded (t.queue q)) : ({ h with state := t } : QueueTrace).Ordered c q where
  legal := ht
  cfg := hcfg
  producer hheld := (ho.producer (hq.ph hheld)).trans (by rw [hq.wr])
  consumer hheld := (ho.consumer (hq.ch hheld)).trans (by rw [hq.rd])
  published := ho.published.trans (by rw [waitingSlots_congr hq.rd hq.wr])

/-- A producer that is given the slot at WR keeps the order. -/
theorem producerHeld (ho : h.Ordered c q) (ht : t.Legal) (hcfg : t.cfg = c)
    (hq : t.queue q = { h.state.queue q with ph := .held }) :
    ({ h with state := t, producerSlot := slotAddr c q (h.state.queue q).wr } : QueueTrace).Ordered c q where
  legal := ht
  cfg := hcfg
  producer _ := by rw [hq]
  consumer hheld := by
    rw [hq] at hheld ⊢
    exact ho.consumer hheld
  published := ho.published.trans (by rw [hq, waitingSlots_congr] <;> rfl)

/-- A consumer that is given the slot at RD keeps the order. -/
theorem consumerHeld (ho : h.Ordered c q) (ht : t.Legal) (hcfg : t.cfg = c)
    (hq : t.queue q = { h.state.queue q with ch := .held }) :
    ({ h with state := t, consumerSlot := slotAddr c q (h.state.queue q).rd } : QueueTrace).Ordered c q where
  legal := ht
  cfg := hcfg
  producer hheld := by
    rw [hq] at hheld ⊢
    exact ho.producer hheld
  consumer _ := by rw [hq]
  published := ho.published.trans (by rw [hq, waitingSlots_congr] <;> rfl)

/-- A commit publishes the slot that joins the waiting ones. -/
theorem committed (ho : h.Ordered c q) (ht : t.Legal) (hcfg : t.cfg = c) (hheld : (h.state.queue q).ph = .held)
    (hq : t.queue q = queueCommitted c q (h.state.queue q)) :
    ({ h with state := t, published := h.published ++ [h.producerSlot] } : QueueTrace).Ordered c q where
  legal := ht
  cfg := hcfg
  producer hnow := by rw [hq] at hnow; cases hnow
  consumer hch := by
    rw [hq] at hch ⊢
    exact ho.consumer hch
  published := by
    have hlegal := ho.cfg ▸ ho.legal.queueLegal q
    have hcap := ho.cfg ▸ (cap_of_wellFormed ho.legal.config q).2
    rw [hq, waitingSlots_committed hcap hlegal (hlegal.producerRoom hheld), ho.published, ho.producer hheld,
      List.append_assoc]

/-- A release takes the slot that was the first of the waiting ones. -/
theorem released (ho : h.Ordered c q) (ht : t.Legal) (hcfg : t.cfg = c) (hheld : (h.state.queue q).ch = .held)
    (hq : t.queue q = queueReleased c q (h.state.queue q)) :
    ({ h with state := t, taken := h.taken ++ [h.consumerSlot] } : QueueTrace).Ordered c q where
  legal := ht
  cfg := hcfg
  producer hph := by
    rw [hq] at hph ⊢
    exact ho.producer hph
  consumer hnow := by rw [hq] at hnow; cases hnow
  published := by
    have hlegal := ho.cfg ▸ ho.legal.queueLegal q
    have hcap := ho.cfg ▸ (cap_of_wellFormed ho.legal.config q).2
    rw [hq, ho.published, ho.consumer hheld, List.append_assoc, List.singleton_append,
      waitingSlots_released hcap hlegal (hlegal.consumerItem hheld)]

/-- Every command but a flush of the queue keeps a history in order. -/
theorem issue (ho : h.Ordered c q) {p : Port} {i : Instr} (hi : i ≠ .qFlush q) : (h.issue q (p, i)).Ordered c q := by
  obtain ⟨t, hexec⟩ := exec_next i { h.state with port := p }
  have ht : t.Legal := (ho.legal.withPort p).exec hexec
  have hcfg : t.cfg = c := (exec_frame hexec).1.trans ho.cfg
  have hsame := h.state.withPort_queue p q
  have hscfg : ({ h.state with port := p } : State).cfg = c := ho.cfg
  by_cases hw : i ∈ queueWriters q
  · simp only [queueWriters, List.mem_cons, List.not_mem_nil, or_false] at hw
    rcases hw with rfl | rfl | rfl | rfl | rfl
    case inl =>
      rw [issue_pqAcq hexec]
      rcases queue_of_pqAcq hexec with ⟨hq, hslot⟩ | ⟨hq, hslot⟩ <;> rw [hsame] at hq <;> rw [hslot]
      · rw [hsame, hscfg]
        exact ho.producerHeld ht hcfg hq
      · exact ho.holdsEnded ht hcfg (.of_eq hq)
    case inr.inl =>
      rw [issue_pqCommit hexec]
      rcases queue_of_pqCommit hexec with ⟨_, hheld, hq, hst⟩ | ⟨hq, hst⟩ <;> rw [hsame] at hq
      · rw [hscfg] at hq
        rw [if_pos hst]
        exact ho.committed ht hcfg (hsame ▸ hheld) hq
      · rw [if_neg hst]
        exact ho.holdsEnded ht hcfg hq
    case inr.inr.inl =>
      rw [issue_cqAcq hexec]
      rcases queue_of_cqAcq hexec with ⟨hq, hslot⟩ | ⟨hq, hslot⟩ <;> rw [hsame] at hq <;> rw [hslot]
      · rw [hsame, hscfg]
        exact ho.consumerHeld ht hcfg hq
      · exact ho.holdsEnded ht hcfg (.of_eq hq)
    case inr.inr.inr.inl =>
      rw [issue_cqRel hexec]
      rcases queue_of_cqRel hexec with ⟨_, hheld, hq, hst⟩ | ⟨hq, hst⟩ <;> rw [hsame] at hq
      · rw [hscfg] at hq
        rw [if_pos hst]
        exact ho.released ht hcfg (hsame ▸ hheld) hq
      · rw [if_neg hst]
        exact ho.holdsEnded ht hcfg hq
    case inr.inr.inr.inr => exact absurd rfl hi
  · rw [issue_of_others hexec hw]
    exact ho.holdsEnded ht hcfg (.of_eq ((queue_of_others hexec hw).trans hsame))

/-- A history stays in order along any commands without a flush of the queue. -/
theorem foldl_issue (ho : h.Ordered c q) {l : List (Port × Instr)} (hl : ∀ x ∈ l, x.2 ≠ .qFlush q) :
    (l.foldl (QueueTrace.issue q) h).Ordered c q := by
  induction l generalizing h with
  | nil => exact ho
  | cons x l ih =>
    obtain ⟨hx, hrest⟩ := List.forall_mem_cons.mp hl
    exact ih (ho.issue hx) hrest

/-- A history that begins with an empty queue and no hold is in order. -/
theorem of_empty (hs : h.state.Legal) (hzero : queueCount h.state.cfg q (h.state.queue q) = 0)
    (hph : (h.state.queue q).ph ≠ .held) (hch : (h.state.queue q).ch ≠ .held) (hpublished : h.published = [])
    (htaken : h.taken = []) : h.Ordered h.state.cfg q where
  legal := hs
  cfg := rfl
  producer hheld := absurd hheld hph
  consumer hheld := absurd hheld hch
  published := by rw [hpublished, htaken, waitingSlots, hzero]; rfl

end Ordered

end QueueTrace

/-- Settles O31: every command keeps the history in order, and the waiting slots are as many as COUNT says. -/
theorem queueIsFifo : Obligations.QueueIsFifo := by
  intro q h l hs hzero hph hch hpublished htaken hl
  have ho := (QueueTrace.Ordered.of_empty hs hzero hph hch hpublished htaken).foldl_issue hl
  refine ⟨⟨_, ho.published.symm⟩, ?_⟩
  rw [ho.published, List.length_append, length_waitingSlots]

end Sys2Proof.Machine

/-! PROOFS. The HOP unit (43_hop.md): the used channels and the channel of a hop, the eight commands, which only port I may issue,
and the cycle of unmapped channels that successive hops run through. -/

namespace Sys2Proof.Machine

/-! ### The used channels and the channel of a hop (R205 to R207) -/

/-- A hop to a used channel lands on it (R206). -/
theorem hopChannel_of_used {u : Nat} {m : ChanMap} (h : m.getLsbD u = true) : hopChannel u m = u := by
  simp [hopChannel, hopRemapped, h]

/-- A hop to an unused channel lands on the used channel of index `u mod n` (R206, R207). -/
theorem getElem?_hopChannel {u : Nat} {m : ChanMap} (h : m.getLsbD u = false) (hm : 0 < popcount m) :
    (usedChannels m)[u % popcount m]? = some (hopChannel u m) := by
  have hlt : u % popcount m < (usedChannels m).length := Nat.mod_lt u hm
  simp [hopChannel, hopRemapped, h, hlt]

/-- The channel of a hop is in the list of used channels. -/
theorem hopChannel_mem_usedChannels {u : Nat} {m : ChanMap} (hu : u < 37) (hm : 0 < popcount m) :
    hopChannel u m ∈ usedChannels m := by
  cases hused : m.getLsbD u with
  | true => exact (hopChannel_of_used hused).symm ▸ (mem_usedChannels m u).mpr ⟨hu, hused⟩
  | false => exact List.mem_of_getElem? (getElem?_hopChannel hused hm)

/-- Settles O41: the list is the range of channel numbers, filtered, and the channel of a hop is one of its members. -/
theorem hopChannelIsUsed : Obligations.HopChannelIsUsed := fun m =>
  ⟨List.pairwise_lt_range.filter _, mem_usedChannels m, fun c h hm =>
    (mem_usedChannels m _).mp
      (hopChannel_mem_usedChannels (Nat.lt_succ_of_le (hopUnmapped_le c h)) (Nat.zero_lt_of_lt hm))⟩

/-! ### Successive hops (R208, R209) -/

/-- A configured unit hops: the unmapped channel moves on by the increment, and the increment and the map stay (R206, R208). -/
theorem issue_hopNext_of_configured {s : State} (h : hopConfigured s = true) :
    ∃ t, issue .I .hopNext s = .next t ∧ t.hopUnm.toNat = (s.hopUnm.toNat + s.hopH.toNat) % 37 ∧ t.hopH = s.hopH ∧
      t.hopMap = s.hopMap := by
  obtain ⟨r, hissue⟩ := issue_of_good (p := .I) (i := .hopNext) (s := s) rfl (List.forall_mem_singleton.mpr h)
  have hle : hopUnmapped s.hopUnm s.hopH ≤ 36 := hopUnmapped_le _ _
  exact ⟨_, hissue, Nat.mod_eq_of_lt (show hopUnmapped s.hopUnm s.hopH < 2 ^ 6 by omega), rfl, rfl⟩

/-- `k` hops of a configured unit move the unmapped channel on by `k` increments. -/
theorem issueAll_hopNext (k : Nat) {s : State} (h : hopConfigured s = true) (hunm : s.hopUnm.toNat ≤ 36) :
    ∃ t, issueAll (onPort .I (List.replicate k .hopNext)) s = .next t ∧
      t.hopUnm.toNat = (s.hopUnm.toNat + k * s.hopH.toNat) % 37 ∧ t.hopH = s.hopH ∧ t.hopMap = s.hopMap := by
  induction k generalizing s with
  | zero => exact ⟨s, rfl, by omega, rfl, rfl⟩
  | succ k ih =>
    obtain ⟨t, hissue, hunm', hh, hmap⟩ := issue_hopNext_of_configured h
    have hconf : hopConfigured t = true := by rwa [hopConfigured, hh, hmap]
    obtain ⟨u, hrest, hunm'', hh', hmap'⟩ := ih hconf (by omega)
    refine ⟨u, (issueAll_cons hissue).trans hrest, ?_, hh'.trans hh, hmap'.trans hmap⟩
    rw [hunm'', hunm', hh, Nat.mod_add_mod, Nat.succ_mul]
    congr 1
    omega

/-- Multiples of an increment coprime to `n`, added to any start, are distinct modulo `n` within `n` of them. -/
theorem injOn_add_mul_mod {n h : Nat} (hcop : n.Coprime h) (c : Nat) :
    Set.InjOn (fun k => (c + k * h) % n) (Finset.range n) := fun _ hj _ hk hjk =>
  ((Nat.ModEq.add_left_cancel' c hjk).cancel_right_of_coprime hcop).eq_of_lt_of_lt
    (Finset.mem_range.mp hj) (Finset.mem_range.mp hk)

/-- So, being `n` values below `n`, they are all the values below `n`. -/
theorem surjOn_add_mul_mod {n h : Nat} (hcop : n.Coprime h) (c : Nat) :
    Set.SurjOn (fun k => (c + k * h) % n) (Finset.range n) (Finset.range n) :=
  Finset.surjOn_of_injOn_of_card_le _
    (fun _ hk => Finset.mem_coe.mpr (Finset.mem_range.mpr (Nat.mod_lt _ (Nat.zero_lt_of_lt (Finset.mem_range.mp hk)))))
    (injOn_add_mul_mod hcop c) le_rfl

/-- Settles O42: 37 is prime, so an increment of 5 to 16 is coprime to it. -/
theorem hopVisitsAllChannels : Obligations.HopVisitsAllChannels := by
  intro s hunm hmin hmax hmap
  have hconf : hopConfigured s = true := (hopConfigured_iff s).mpr ⟨⟨hmin, hmax⟩, hmap⟩
  have hcop : Nat.Coprime 37 s.hopH.toNat := Nat.coprime_of_lt_prime (by omega) (by omega) (by norm_num)
  refine ⟨fun k => issueAll_hopNext k hconf hunm, fun u hu => ?_, by omega⟩
  obtain ⟨k, hk, hku⟩ := surjOn_add_mul_mod hcop s.hopUnm.toNat (Finset.mem_coe.mpr (Finset.mem_range.mpr hu))
  exact ⟨k, Finset.mem_range.mp hk, hku, fun j hj hju =>
    injOn_add_mul_mod hcop _ (Finset.mem_coe.mpr (Finset.mem_range.mpr hj)) hk (hju.trans hku.symm)⟩

/-! ### The first check that fails (R300) -/

/-- The checks before the first that fails do not matter. -/
theorem runChecks_of_failure {w : Word} {s : State} {body : StepResult} {pre rest : List (Bool × FaultKind)} {k : FaultKind}
    (hpre : ∀ c ∈ pre, c.1 = true) : runChecks w s body (pre ++ (false, k) :: rest) = raiseFault k w s := by
  induction pre with
  | nil => rfl
  | cons c pre ih =>
    obtain ⟨hc, hpre⟩ := List.forall_mem_cons.mp hpre
    rw [List.cons_append, runChecks, if_pos hc, ih hpre]

/-- A command on a port with the right ends in the fault of its first check that fails. -/
theorem faultsWith_of_failure {i : Instr} {s : State} {pre rest : List (Bool × FaultKind)} {k : FaultKind}
    (hport : portMay s.port i = true) (hchecks : checksOf s i = pre ++ (false, k) :: rest) (hpre : ∀ c ∈ pre, c.1 = true) :
    FaultsWith i s (faultBit k) (statusCode (faultStatus k)) := by
  obtain ⟨st, d, _, hexec⟩ := exec_eq i s
  rw [checked_of_right i s _ _ hport, hchecks, runChecks_of_failure hpre] at hexec
  exact faultsWith_of_raise hexec

/-- An increment that is not legal, written out (R3). -/
theorem hopLegal_eq_false_iff (h : BitVec 5) : hopLegal h = false ↔ h.toNat < 5 ∨ 16 < h.toNat := by
  rw [← Bool.not_eq_true, hopLegal_iff]
  omega

/-- A unit that is not configured, written out (R42, R43). -/
theorem hopConfigured_eq_false_iff (s : State) :
    hopConfigured s = false ↔ s.hopH.toNat < 5 ∨ 16 < s.hopH.toNat ∨ popcount s.hopMap < 2 := by
  rw [← Bool.not_eq_true, hopConfigured_iff]
  omega

/-- A channel that is not legal, written out (R3). -/
theorem channelLegal_eq_false_iff (c : BitVec 6) : channelLegal c = false ↔ 36 < c.toNat := by
  rw [← Bool.not_eq_true, channelLegal_iff]
  omega

/-! ### The answers of HOP.COMMIT, HOP.NEXT and HOP.READ, field by field -/

/-- A field that holds two values side by side is two fields. -/
theorem fields_of_extractLsb'_eq_append {k n m lo : Nat} {w : BitVec k} {x : BitVec n} {y : BitVec m}
    (h : w.extractLsb' lo (n + m) = x ++ y) : w.extractLsb' lo m = y ∧ w.extractLsb' (lo + m) n = x := by
  constructor <;> refine BitVec.eq_of_getLsbD_eq fun j hj => ?_
  · have hbit := congrArg (·.getLsbD j) h
    simpa [BitVec.getElem_append, hj, show j < n + m by omega] using hbit
  · have hbit := congrArg (·.getLsbD (m + j)) h
    simpa [BitVec.getElem_append, hj, show m + j < n + m by omega, Nat.add_assoc] using hbit

/-- A field of one bit. -/
theorem getLsbD_of_extractLsb'_eq_ofBool {k lo : Nat} {w : BitVec k} {b : Bool} (h : w.extractLsb' lo 1 = BitVec.ofBool b) :
    w.getLsbD lo = b := by
  have hbit := congrArg (·.getLsbD 0) h
  simpa using hbit

/-- HOP.COMMIT answers the number of used channels and the increment (R218). -/
theorem hopCommitData_fields (h : BitVec 5) (n : BitVec 6) :
    (resultWord .ok ((h ++ n).setWidth 28)).extractLsb' 0 6 = n ∧
      (resultWord .ok ((h ++ n).setWidth 28)).extractLsb' 6 5 = h ∧
      (resultWord .ok ((h ++ n).setWidth 28)).extractLsb' 11 21 = 0 := by
  obtain ⟨hlow, hhigh⟩ := okLow_setWidth (by decide) (h ++ n)
  obtain ⟨hn, hh⟩ := fields_of_extractLsb'_eq_append hlow
  exact ⟨hn, hh, hhigh⟩

/-- HOP.NEXT answers the channel, REMAPPED, the unmapped channel and the number of used channels (R223). -/
theorem hopNextData_fields (u : Nat) (m : ChanMap) :
    (resultWord .ok (hopNextData u m)).extractLsb' 0 6 = BitVec.ofNat 6 (hopChannel u m) ∧
      (resultWord .ok (hopNextData u m)).getLsbD 6 = hopRemapped u m ∧
      (resultWord .ok (hopNextData u m)).getLsbD 7 = false ∧
      (resultWord .ok (hopNextData u m)).extractLsb' 8 6 = BitVec.ofNat 6 u ∧
      (resultWord .ok (hopNextData u m)).extractLsb' 14 2 = 0 ∧
      (resultWord .ok (hopNextData u m)).extractLsb' 16 6 = BitVec.ofNat 6 (popcount m) ∧
      (resultWord .ok (hopNextData u m)).extractLsb' 22 10 = 0 := by
  have hlow : OkLow _ _ (resultWord .ok (hopNextData u m)) := okLow_setWidth (by decide) _
  obtain ⟨hch, hrest⟩ := fields_of_extractLsb'_eq_append hlow.1
  obtain ⟨hrm, hrest⟩ := fields_of_extractLsb'_eq_append hrest
  obtain ⟨hzero, hrest⟩ := fields_of_extractLsb'_eq_append hrest
  obtain ⟨hu, hrest⟩ := fields_of_extractLsb'_eq_append hrest
  obtain ⟨hzeros, hn⟩ := fields_of_extractLsb'_eq_append hrest
  exact ⟨hch, getLsbD_of_extractLsb'_eq_ofBool hrm, getLsbD_of_extractLsb'_eq_ofBool hzero, hu, hzeros, hn, hlow.2⟩

/-- HOP.READ answers the channel, the unmapped channel, both increments and CONFIGURED (R226). -/
theorem hopReadData_fields (s : State) :
    (resultWord .ok (hopReadData s)).extractLsb' 0 6 = s.hopChan ∧
      (resultWord .ok (hopReadData s)).extractLsb' 6 2 = 0 ∧
      (resultWord .ok (hopReadData s)).extractLsb' 8 6 = s.hopUnm ∧
      (resultWord .ok (hopReadData s)).extractLsb' 14 5 = s.hopH ∧
      (resultWord .ok (hopReadData s)).extractLsb' 19 5 = s.hopSh ∧
      (resultWord .ok (hopReadData s)).getLsbD 24 = hopConfigured s ∧
      (resultWord .ok (hopReadData s)).extractLsb' 25 7 = 0 := by
  have hlow : OkLow _ _ (resultWord .ok (hopReadData s)) := okLow_setWidth (by decide) _
  obtain ⟨hchan, hrest⟩ := fields_of_extractLsb'_eq_append hlow.1
  obtain ⟨hzeros, hrest⟩ := fields_of_extractLsb'_eq_append hrest
  obtain ⟨hunm, hrest⟩ := fields_of_extractLsb'_eq_append hrest
  obtain ⟨hh, hrest⟩ := fields_of_extractLsb'_eq_append hrest
  obtain ⟨hsh, hconf⟩ := fields_of_extractLsb'_eq_append hrest
  exact ⟨hchan, hzeros, hunm, hh, hsh, getLsbD_of_extractLsb'_eq_ofBool hconf, hlow.2⟩

/-! ### The commands (R210 to R212, R218, R220, R223, R226, R227) -/

section
variable {s : State} (hport : s.port = .I)
include hport

/-- HOP.SETHOP of a legal increment stages it. -/
theorem completes_hopSethop {h : BitVec 5} (hlegal : hopLegal h = true) :
    Completes (.hopSethop h) s { s with hopSh := h } (OkLow 5 h) :=
  completes_of_checks (cs := [(hopLegal h, .range)]) rfl (by rw [hport]; rfl) (List.forall_mem_singleton.mpr hlegal)
    (okLow_setWidth (by decide) h)

/-- HOP.SETHOP of any other increment is ERANGE. -/
theorem faultsRange_hopSethop {h : BitVec 5} (hillegal : hopLegal h = false) : FaultsRange (.hopSethop h) s :=
  faultsWith_of_failure (pre := []) (k := .range) (by rw [hport]; rfl) (by rw [checksOf, hillegal]; rfl) nofun

/-- HOP.STGLO sets the low part of the staged map. -/
theorem completes_hopStglo (lo : BitVec 24) :
    Completes (.hopStglo lo) s { s with hopStg := s.hopStg.extractLsb' 24 13 ++ lo } (fun w => w = 0) :=
  have hword : resultWord .ok 0 = 0 := by decide
  completes_of_checks (cs := []) rfl (by rw [hport]; rfl) nofun hword

/-- HOP.STGHI sets the high part of the staged map. -/
theorem completes_hopStghi (hi : BitVec 13) :
    Completes (.hopStghi hi) s { s with hopStg := hi ++ s.hopStg.extractLsb' 0 24 } (fun w => w = 0) :=
  have hword : resultWord .ok 0 = 0 := by decide
  completes_of_checks (cs := []) rfl (by rw [hport]; rfl) nofun hword

/-- HOP.COMMIT that takes an illegal staged increment is ERANGE, whatever the staged map. -/
theorem faultsRange_hopCommit (am : Bool) (hillegal : hopLegal s.hopSh = false) : FaultsRange (.hopCommit am true) s :=
  faultsWith_of_failure (pre := []) (k := .range) (by rw [hport]; rfl) (by rw [checksOf, hillegal]; rfl) nofun

/-- HOP.COMMIT that takes a staged map with too few channels, and no illegal increment, is EMAP. -/
theorem faultsMap_hopCommit {ah : Bool} (hlegal : (!ah || hopLegal s.hopSh) = true) (hfew : popcount s.hopStg < 2) :
    FaultsWith (.hopCommit true ah) s 5 8 := by
  have hmap : (!true || decide (Config.minUsed ≤ popcount s.hopStg)) = false := decide_eq_false (Nat.not_le.mpr hfew)
  exact faultsWith_of_failure (pre := [(_, .range)]) (k := .map) (by rw [hport]; rfl) (by rw [checksOf, hmap]; rfl)
    (List.forall_mem_singleton.mpr hlegal)

/-- HOP.COMMIT with both its checks passed installs what its operands name. -/
theorem completes_hopCommit {am ah : Bool} (hlegal : (!ah || hopLegal s.hopSh) = true)
    (henough : (!am || decide (Config.minUsed ≤ popcount s.hopStg)) = true) :
    Completes (.hopCommit am ah) s { s with hopMap := commitMap am s, hopH := commitH ah s } fun w =>
      w.extractLsb' 0 6 = BitVec.ofNat 6 (popcount (commitMap am s)) ∧ w.extractLsb' 6 5 = commitH ah s ∧
        w.extractLsb' 11 21 = 0 :=
  completes_of_checks rfl (by rw [hport]; rfl)
    (List.forall_mem_cons.mpr ⟨hlegal, List.forall_mem_singleton.mpr henough⟩) (hopCommitData_fields _ _)

/-- HOP.SETUNM of a legal channel sets it. -/
theorem completes_hopSetunm {c : BitVec 6} (hlegal : channelLegal c = true) :
    Completes (.hopSetunm c) s { s with hopUnm := c } (OkLow 6 c) :=
  completes_of_checks (cs := [(channelLegal c, .range)]) rfl (by rw [hport]; rfl) (List.forall_mem_singleton.mpr hlegal)
    (okLow_setWidth (by decide) c)

/-- HOP.SETUNM of any other channel is ERANGE. -/
theorem faultsRange_hopSetunm {c : BitVec 6} (hillegal : channelLegal c = false) : FaultsRange (.hopSetunm c) s :=
  faultsWith_of_failure (pre := []) (k := .range) (by rw [hport]; rfl) (by rw [checksOf, hillegal]; rfl) nofun

/-- HOP.NEXT of a configured unit hops and answers where to. -/
theorem completes_hopNext (hconf : hopConfigured s = true) :
    Completes .hopNext s (effectOf s .hopNext)
      (fun w => w = resultWord .ok (hopNextData (hopUnmapped s.hopUnm s.hopH) s.hopMap)) :=
  completes_of_checks (cs := [(hopConfigured s, .unconf)]) rfl (by rw [hport]; rfl) (List.forall_mem_singleton.mpr hconf) rfl

/-- HOP.NEXT of any other unit is EUNCONF. -/
theorem faultsUnconf_hopNext (hunconf : hopConfigured s = false) : FaultsWith .hopNext s 4 7 :=
  faultsWith_of_failure (pre := []) (k := .unconf) (by rw [hport]; rfl) (by rw [checksOf, hunconf]; rfl) nofun

/-- HOP.READ answers the unit's registers. -/
theorem completes_hopRead : Completes .hopRead s s (fun w => w = resultWord .ok (hopReadData s)) :=
  completes_of_checks (cs := []) rfl (by rw [hport]; rfl) nofun rfl

/-- HOP.RDMAP answers the part of a map that SEL names. -/
theorem completes_hopRdmap {sel : BitVec 2} {n : Nat} (hn : n ≤ 28) {v : BitVec n} (hv : hopMapData sel s = v.setWidth 28) :
    Completes (.hopRdmap sel) s s (OkLow n v) :=
  completes_of_checks (cs := []) (d := hopMapData sel s) rfl (by rw [hport]; rfl) nofun (hv ▸ okLow_setWidth hn v)

end

/-- Settles O36: each staging command's field is the operand, and the rest of the staged map is the one before. -/
theorem hopStagingRule : Obligations.HopStagingRule := fun h lo hi s =>
  ⟨commandWord_setWidth (m := 19) 3 0 rfl h, rfl, commandWord_setWidth (m := 11) 3 2 rfl hi, fun hport =>
    ⟨fun hrange => completes_hopSethop hport ((hopLegal_iff h).mpr hrange),
      fun hout => faultsRange_hopSethop hport ((hopLegal_eq_false_iff h).mpr hout),
      ⟨_, BitVec.extractLsb'_append_eq_right, BitVec.extractLsb'_append_eq_left, completes_hopStglo hport lo⟩,
      ⟨_, BitVec.extractLsb'_append_eq_left, BitVec.extractLsb'_append_eq_right, completes_hopStghi hport hi⟩⟩,
    fun hport => ⟨faultsPort_of_no_right (by rw [hport]; rfl), faultsPort_of_no_right (by rw [hport]; rfl),
      faultsPort_of_no_right (by rw [hport]; rfl)⟩⟩

/-- Settles O37, by the first check of R218 that fails, if one does. -/
theorem hopCommitRule : Obligations.HopCommitRule := by
  refine ⟨by decide, by decide, by decide, by decide, ?_⟩
  rintro am ah s _ _ rfl rfl
  rw [← hopLegal_eq_false_iff]
  have hlegal (h : ¬ (ah = true ∧ hopLegal s.hopSh = false)) : (!ah || hopLegal s.hopSh) = true := by
    cases ah with
    | false => rfl
    | true => simpa using h
  refine ⟨fun hport => ⟨?_, fun hrange => ?_, fun hrange hmap => ?_⟩, fun hport => ?_⟩
  · rintro ⟨rfl, hout⟩
    exact faultsRange_hopCommit hport am hout
  · rintro ⟨rfl, hfew⟩
    exact faultsMap_hopCommit hport (hlegal hrange) hfew
  · have henough : (!am || decide (Config.minUsed ≤ popcount s.hopStg)) = true := by
      cases am
      · rfl
      · exact decide_eq_true (Nat.not_lt.mp fun hfew => hmap ⟨rfl, hfew⟩)
    exact completes_hopCommit hport (hlegal hrange) henough
  · exact faultsPort_of_no_right (by rw [hport]; rfl)

/-- Settles O39: the operand is the word's six low bits, and 36 is the last channel. -/
theorem hopSetunmRule : Obligations.HopSetunmRule := fun c s =>
  ⟨commandWord_setWidth (m := 18) 3 4 rfl c, fun hport =>
    ⟨fun hle => completes_hopSetunm hport ((channelLegal_iff c).mpr hle),
      fun hgt => faultsRange_hopSetunm hport ((channelLegal_eq_false_iff c).mpr hgt)⟩,
    fun hport => faultsPort_of_no_right (by rw [hport]; rfl)⟩

/-- Settles O40: the channel is the unmapped one or, when that is unused, the one the list of used channels gives. -/
theorem hopNextRule : Obligations.HopNextRule := by
  refine ⟨by decide, ?_⟩
  rintro s _ _ rfl rfl
  refine ⟨fun hport hmin hmax hmap => ?_, fun hport hout => ?_, fun hport => ?_⟩
  · refine ⟨hopChannel (hopUnmapped s.hopUnm s.hopH) s.hopMap, hopRemapped (hopUnmapped s.hopUnm s.hopH) s.hopMap, ?_,
      (completes_hopNext hport ((hopConfigured_iff s).mpr ⟨⟨hmin, hmax⟩, hmap⟩)).imp ?_⟩
    · cases hused : s.hopMap.getLsbD (hopUnmapped s.hopUnm s.hopH) with
      | true => exact .inl ⟨hused, hopChannel_of_used hused, by rw [hopRemapped, hused]; rfl⟩
      | false =>
        exact .inr ⟨hused, getElem?_hopChannel hused (Nat.zero_lt_of_lt hmap), by rw [hopRemapped, hused]; rfl⟩
    · rintro _ rfl
      exact hopNextData_fields _ _
  · exact faultsUnconf_hopNext hport ((hopConfigured_eq_false_iff s).mpr hout)
  · exact faultsPort_of_no_right (by rw [hport]; rfl)

/-- CONFIGURED as the truth value of its condition (R42, R43). -/
theorem hopConfigured_eq_decide (s : State) :
    hopConfigured s = decide (5 ≤ s.hopH.toNat ∧ s.hopH.toNat ≤ 16 ∧ 2 ≤ popcount s.hopMap) := by
  rw [Bool.eq_iff_iff, decide_eq_true_iff, hopConfigured_iff, and_assoc]

/-- Settles O43: both commands answer over an unchanged state. -/
theorem hopReadsRule : Obligations.HopReadsRule := by
  refine ⟨by decide, commandWord_setWidth (m := 22) 3 7 rfl, fun s => ⟨fun hport => ⟨?_, ?_, ?_, ?_, ?_⟩, fun hport =>
    ⟨faultsPort_of_no_right (by rw [hport]; rfl), fun sel => faultsPort_of_no_right (by rw [hport]; rfl)⟩⟩⟩
  · rw [← hopConfigured_eq_decide]
    exact (completes_hopRead hport).imp fun w hw => hw ▸ hopReadData_fields s
  · exact completes_hopRdmap hport (by decide) rfl
  · exact completes_hopRdmap hport (by decide) rfl
  · exact completes_hopRdmap hport (by decide) rfl
  · exact completes_hopRdmap hport (by decide) rfl

end Sys2Proof.Machine

/-! PROOFS. The ARQ unit (44_arq.md): the packet a command judges and what judging it answers and leaves, a packet judged twice, and
the commands that judge none. -/

namespace Sys2Proof.Machine

/-! ### The packet a command judges (R256, R257) -/

/-- The packet that ARQ.RX or ARQ.RXX judges; the other commands judge none. -/
def judgedPacket (s : State) : Instr → Option RxPacket
  | .arqRx accept => some (crcPacket accept s)
  | .arqRxx h0 h1 crcv accept => some { h0 := h0, h1 := h1, crcOk := crcv, lenOk := true, accept := accept }
  | _ => none

/-- The state after a packet is judged, but for the port's answer (R259). -/
def State.judge (s : State) (k : RxPacket) : State :=
  { s with arqSn := rxSnNext s k, arqNesn := rxNesnNext s k }

/-- Judging a packet answers R259's word and leaves R259's sequence bits. -/
theorem arqUpdate_eq (k : RxPacket) (s : State) :
    arqUpdate k s = .next ((s.judge k).respond (.result (resultWord .ok (rxData s k)))) := rfl

/-- What port I receives. -/
theorem State.respond_respI {s : State} (hport : s.port = .I) (r : Response) : (s.respond r).respI = r := if_pos hport

/-- Only ARQ.RX and ARQ.RXX judge a packet. -/
theorem eq_of_judgedPacket {s : State} {i : Instr} {k : RxPacket} (h : judgedPacket s i = some k) :
    (∃ a, i = .arqRx a) ∨ ∃ h0 h1 c a, i = .arqRxx h0 h1 c a := by
  cases i with
  | arqRx a => exact .inl ⟨a, rfl⟩
  | arqRxx h0 h1 c a => exact .inr ⟨h0, h1, c, a, rfl⟩
  | _ => cases h

/-- On port I a command that judges a packet makes no further check. -/
theorem exec_of_judgedPacket {i : Instr} {s : State} {k : RxPacket} (hport : s.port = .I) (hk : judgedPacket s i = some k) :
    exec i s = arqUpdate k s := by
  rcases eq_of_judgedPacket hk with ⟨a, rfl⟩ | ⟨h0, h1, c, a, rfl⟩ <;> cases hk <;>
    exact checked_of_good _ s [] _ (by rw [hport]; rfl) nofun

/-- After a packet is judged, a command judges what it would have before: the CRC unit is read, not changed (R261). -/
theorem exec_judge {i : Instr} {s : State} {k : RxPacket} (hport : s.port = .I) (hk : judgedPacket s i = some k)
    (k' : RxPacket) (r : Response) :
    exec i ((s.judge k').respond r) = arqUpdate k ((s.judge k').respond r) :=
  have hsame : judgedPacket ((s.judge k').respond r) i = judgedPacket s i := by cases i <;> rfl
  exec_of_judgedPacket (s := (s.judge k').respond r) hport (hsame.trans hk)

/-- Every field of the word that judging a packet answers (R259). -/
theorem rxData_fields (s : State) (k : RxPacket) {w : Word} (hw : w = resultWord .ok (rxData s k)) :
    w.getLsbD 0 = rxValid s.cfg k ∧ w.getLsbD 1 = rxNew s k ∧ w.getLsbD 2 = rxAcked s k ∧ w.getLsbD 3 = rxDeliver s k ∧
      w.getLsbD 4 = rxDup s k ∧ w.getLsbD 5 = rxDrop s k ∧ w.getLsbD 6 = hdrMd k.h0 ∧ w.getLsbD 7 = k.crcOk ∧
      w.getLsbD 8 = k.lenOk ∧ w.getLsbD 9 = rxHdrOk s.cfg k ∧ w.extractLsb' 10 2 = hdrLlid k.h0 ∧
      w.extractLsb' 12 8 = k.h1 ∧ w.getLsbD 20 = rxSnNext s k ∧ w.getLsbD 21 = rxNesnNext s k ∧
      w.getLsbD 22 = hdrSn k.h0 ∧ w.getLsbD 23 = hdrNesn k.h0 ∧ w.extractLsb' 24 8 = 0 := by
  have hlow : OkLow _ _ w := hw ▸ okLow_setWidth (by decide) _
  obtain ⟨hvalid, hrest⟩ := fields_of_extractLsb'_eq_append hlow.1
  obtain ⟨hnew, hrest⟩ := fields_of_extractLsb'_eq_append hrest
  obtain ⟨hacked, hrest⟩ := fields_of_extractLsb'_eq_append hrest
  obtain ⟨hdeliver, hrest⟩ := fields_of_extractLsb'_eq_append hrest
  obtain ⟨hdup, hrest⟩ := fields_of_extractLsb'_eq_append hrest
  obtain ⟨hdrop, hrest⟩ := fields_of_extractLsb'_eq_append hrest
  obtain ⟨hmd, hrest⟩ := fields_of_extractLsb'_eq_append hrest
  obtain ⟨hcrc, hrest⟩ := fields_of_extractLsb'_eq_append hrest
  obtain ⟨hlen, hrest⟩ := fields_of_extractLsb'_eq_append hrest
  obtain ⟨hhdr, hrest⟩ := fields_of_extractLsb'_eq_append hrest
  obtain ⟨hllid, hrest⟩ := fields_of_extractLsb'_eq_append hrest
  obtain ⟨hh1, hrest⟩ := fields_of_extractLsb'_eq_append hrest
  obtain ⟨hsn, hrest⟩ := fields_of_extractLsb'_eq_append hrest
  obtain ⟨hnesn, hrest⟩ := fields_of_extractLsb'_eq_append hrest
  obtain ⟨hrxsn, hrxnesn⟩ := fields_of_extractLsb'_eq_append hrest
  have bit {lo : Nat} {b : Bool} (h : w.extractLsb' lo 1 = BitVec.ofBool b) := getLsbD_of_extractLsb'_eq_ofBool h
  exact ⟨bit hvalid, bit hnew, bit hacked, bit hdeliver, bit hdup, bit hdrop, bit hmd, bit hcrc, bit hlen, bit hhdr,
    hllid, hh1, bit hsn, bit hnesn, bit hrxsn, bit hrxnesn, hlow.2⟩

/-- On port I a command that judges a packet is R259's update of it. -/
theorem arqUpdateRule_of_judgedPacket {i : Instr} {s : State} {k : RxPacket} (hport : s.port = .I)
    (hk : judgedPacket s i = some k) : ArqUpdateRule i s k.h0 k.h1 k.crcOk k.lenOk k.accept := by
  intro hdrok valid new acked eacc hhdrok hvalid hnew hacked heacc
  obtain rfl : hdrok = rxHdrOk s.cfg k := Bool.eq_iff_iff.mpr (hhdrok.trans (headerLegal_iff _ _ _).symm)
  obtain rfl : valid = rxValid s.cfg k := by
    rw [Bool.eq_iff_iff, hvalid, rxValid, Bool.and_eq_true, Bool.and_eq_true, and_assoc]
  obtain rfl : new = rxNew s k := by
    rw [Bool.eq_iff_iff, hnew, rxNew, Bool.and_eq_true, beq_iff_eq, hdrSn]
  obtain rfl : acked = rxAcked s k := by
    rw [Bool.eq_iff_iff, hacked, rxAcked, Bool.and_eq_true, bne_iff_ne, hdrNesn]
  obtain rfl : eacc = rxEacc k := by
    rw [Bool.eq_iff_iff, heacc, rxEacc, Bool.or_eq_true, beq_iff_eq]
  have hsn : (if rxAcked s k then !s.arqSn else s.arqSn) = rxSnNext s k := by
    rw [rxSnNext]
    cases rxAcked s k <;> simp
  have hnesn : (if rxNew s k ∧ rxEacc k then !s.arqNesn else s.arqNesn) = rxNesnNext s k := by
    rw [rxNesnNext]
    cases rxNew s k <;> cases rxEacc k <;> simp
  have hdeliver : (rxNew s k && rxEacc k && decide (k.h1 ≠ 0)) = rxDeliver s k := by
    rw [rxDeliver, decide_not, ← beq_eq_decide, bne]
  rw [hsn, hnesn, hdeliver]
  exact ⟨_, exec_of_judgedPacket hport hk, rxData_fields s k rfl⟩

/-! ### A packet judged twice (R261) -/

/-- The state `t` has the sequence bits that judging `k` in `s` leaves. -/
structure State.Judged (s : State) (k : RxPacket) (t : State) : Prop where
  cfg : t.cfg = s.cfg
  sn : t.arqSn = rxSnNext s k
  nesn : t.arqNesn = rxNesnNext s k

/-- Judging a packet has judged it. -/
theorem State.judged_judge (s : State) (k : RxPacket) (r : Response) : s.Judged k ((s.judge k).respond r) := ⟨rfl, rfl, rfl⟩

/-- A packet that is neither new nor acknowledges moves nothing. -/
theorem State.judge_of_old {s : State} {k : RxPacket} (hnew : rxNew s k = false) (hacked : rxAcked s k = false) :
    s.judge k = s := by
  rw [State.judge, rxSnNext, rxNesnNext, hnew, hacked, Bool.false_and, Bool.xor_false, Bool.xor_false]

namespace State.Judged
variable {s t : State} {k : RxPacket} (h : s.Judged k t) (hvalid : rxValid s.cfg k = true)
include h hvalid

/-- A valid packet acknowledges once: SN is then its NESN. -/
theorem not_acked (k' : RxPacket) (hh0 : k'.h0 = k.h0) : rxAcked t k' = false := by
  rw [rxAcked, h.sn, rxSnNext_of_valid hvalid, hh0, bne_self_eq_false, Bool.and_false]

/-- A packet that was not dropped is old: NESN either moved on from its SN or differed from it already. -/
theorem not_new (hdrop : rxDrop s k = false) : rxNew t k = false := by
  rw [rxDrop, rxNew, hvalid, Bool.true_and] at hdrop
  rw [rxNew, h.nesn, rxNesnNext_of_valid hvalid]
  revert hdrop
  cases hdrSn k.h0 <;> cases s.arqNesn <;> cases rxEacc k <;> simp

end State.Judged

/-- What DROP says: a new packet whose payload the caller could not take (R258). -/
theorem rxDrop_eq_true_iff (s : State) (k : RxPacket) :
    rxDrop s k = true ↔ rxNew s k = true ∧ k.accept = false ∧ k.h1 ≠ 0 := by
  rw [rxDrop, rxEacc, Bool.and_eq_true, Bool.not_eq_true', Bool.or_eq_false_iff, beq_eq_false_iff_ne]

/-- A dropped packet leaves NESN. -/
theorem rxNesnNext_of_drop {s : State} {k : RxPacket} (hdrop : rxDrop s k = true) : rxNesnNext s k = s.arqNesn := by
  rw [rxDrop, Bool.and_eq_true, Bool.not_eq_true'] at hdrop
  rw [rxNesnNext, hdrop.2, Bool.and_false, Bool.xor_false]

/-- A dropped packet is new still, and delivered and counted in NESN once the caller can take it. -/
theorem State.Judged.retaken {s t : State} {k : RxPacket} (h : s.Judged k t) (hdrop : rxDrop s k = true) :
    rxValid t.cfg { k with accept := true } = true ∧ rxDeliver t { k with accept := true } = true ∧
      rxDrop t { k with accept := true } = false ∧ t.judge { k with accept := true } = { t with arqNesn := !t.arqNesn } := by
  obtain ⟨hnew, _, hlen⟩ := (rxDrop_eq_true_iff s k).mp hdrop
  have hvalid : rxValid s.cfg k = true := (Bool.and_eq_true_iff.mp hnew).1
  have hnew' : rxNew t { k with accept := true } = true := by
    rw [← hnew, rxNew, rxNew, h.cfg, h.nesn, rxNesnNext_of_drop hdrop]
    rfl
  have hacked := h.not_acked hvalid { k with accept := true } rfl
  refine ⟨h.cfg ▸ hvalid, ?_, ?_, ?_⟩
  · rw [rxDeliver, hnew', bne_iff_ne.mpr hlen]
    rfl
  · rw [rxDrop, hnew']
    rfl
  · rw [State.judge, rxSnNext, rxNesnNext, hnew', hacked, Bool.xor_false]
    exact congrArg (fun b => { t with arqNesn := b }) (Bool.xor_true _)

/-- A valid packet that was not dropped, judged again, is a duplicate and changes nothing but the answer. -/
theorem State.Judged.answers_duplicate {s t : State} {k : RxPacket} {i : Instr} (h : s.Judged k t)
    (hvalid : rxValid s.cfg k = true) (hdrop : rxDrop s k = false) (hexec : exec i t = arqUpdate k t) :
    ∃ v, exec i t = .next (t.respond (.result v)) ∧ v.getLsbD 0 = true ∧ v.getLsbD 1 = false ∧ v.getLsbD 2 = false ∧
      v.getLsbD 3 = false ∧ v.getLsbD 4 = true := by
  have hvalid' : rxValid t.cfg k = true := h.cfg ▸ hvalid
  have hnew := h.not_new hvalid hdrop
  have hacked := h.not_acked hvalid k rfl
  rw [arqUpdate_eq, State.judge_of_old hnew hacked] at hexec
  obtain ⟨hv, hn, ha, hdeliver, hdup, _⟩ := rxData_fields t k rfl
  refine ⟨_, hexec, hv.trans hvalid', hn.trans hnew, ha.trans hacked, hdeliver.trans ?_, hdup.trans ?_⟩
  · rw [rxDeliver, hnew, Bool.false_and, Bool.false_and]
  · rw [rxDup, hnew, hvalid', Bool.not_false, Bool.and_true]

/-- A dropped packet, judged again with ACCEPT = 1, is delivered and complements NESN and nothing else. -/
theorem State.Judged.answers_deliver {s t : State} {k : RxPacket} {j : Instr} (h : s.Judged k t)
    (hdrop : rxDrop s k = true) (hexec : exec j t = arqUpdate { k with accept := true } t) :
    ∃ v, exec j t = .next (({ t with arqNesn := !t.arqNesn }).respond (.result v)) ∧ v.getLsbD 0 = true ∧
      v.getLsbD 3 = true ∧ v.getLsbD 5 = false := by
  obtain ⟨hvalid, hdeliver, hnodrop, hstate⟩ := h.retaken hdrop
  rw [arqUpdate_eq, hstate] at hexec
  obtain ⟨hv, _, _, hd, _, hdr, _⟩ := rxData_fields t { k with accept := true } rfl
  exact ⟨_, hexec, hv.trans hvalid, hd.trans hdeliver, hdr.trans hnodrop⟩

/-- Settles O48: after the packet, SN is its NESN, and NESN is past its SN unless the packet was dropped. -/
theorem samePacketAgainIsDuplicate : Obligations.SamePacketAgainIsDuplicate := by
  intro i j s t w hij hport hexec hresp hbit
  obtain ⟨k, hi, hj⟩ : ∃ k, judgedPacket s i = some k ∧ judgedPacket s j = some { k with accept := true } := by
    rcases hij with ⟨a, rfl, rfl⟩ | ⟨h0, h1, c, a, rfl, rfl⟩ <;> exact ⟨_, rfl, rfl⟩
  obtain rfl := Host.Outcome.next.inj ((exec_of_judgedPacket hport hi).symm.trans hexec)
  obtain rfl := Response.result.inj ((State.respond_respI (s := s.judge k) hport _).symm.trans hresp)
  have hvalid : rxValid s.cfg k = true := (rxData_bit_zero s k).symm.trans hbit
  obtain ⟨_, _, _, _, _, hdropBit, _⟩ := rxData_fields s k rfl
  rw [hdropBit]
  have hjudged := s.judged_judge k (.result (resultWord .ok (rxData s k)))
  exact ⟨rfl, rfl, rfl, rfl,
    fun hdrop => hjudged.answers_duplicate hvalid hdrop (exec_judge hport hi _ _),
    fun hdrop => ⟨rxNesnNext_of_drop hdrop, hjudged.answers_deliver hdrop (exec_judge hport hj _ _)⟩⟩

/-! ### What moves the sequence bits (R263) -/

/-- The effects that move SN or NESN are those of ARQ.RESET and of judging a valid packet. -/
theorem effectOf_arq_ne {s : State} {i : Instr}
    (h : (effectOf s i).arqSn ≠ s.arqSn ∨ (effectOf s i).arqNesn ≠ s.arqNesn) :
    i = .arqReset ∨ ∃ k, judgedPacket s i = some k ∧ rxValid s.cfg k = true := by
  have valid {k : RxPacket} (hne : rxSnNext s k ≠ s.arqSn ∨ rxNesnNext s k ≠ s.arqNesn) : rxValid s.cfg k = true := by
    by_contra hinvalid
    obtain ⟨hsn, hnesn⟩ := rxNext_of_invalid (Bool.not_eq_true _ ▸ hinvalid)
    exact hne.elim (absurd hsn) (absurd hnesn)
  cases i with
  | arqReset => exact .inl rfl
  | arqRx a => exact .inr ⟨_, rfl, valid h⟩
  | arqRxx h0 h1 c a => exact .inr ⟨_, rfl, valid h⟩
  | pqAcq q | pqCommit q | cqAcq q | cqRel q | qFlush q =>
    exact h.elim (absurd (State.setQueue_arqSn _ _ _)) (absurd (State.setQueue_arqNesn _ _ _))
  | _ => exact h.elim (absurd rfl) (absurd rfl)

/-- Only port I has the right to any ARQ command (R303). -/
theorem port_of_judgedPacket {p : Port} {s : State} {i : Instr} {k : RxPacket} (hport : portMay p i = true)
    (hk : judgedPacket s i = some k) : p = .I := by
  rcases eq_of_judgedPacket hk with ⟨a, rfl⟩ | ⟨h0, h1, c, a, rfl⟩ <;> exact beq_iff_eq.mp hport

/-- Settles O49: a fault moves neither bit, and of the effects only those two do. -/
theorem onlyArqCommandsMoveSequenceBits : Obligations.OnlyArqCommandsMoveSequenceBits := by
  intro i s t hexec hne
  rcases exec_next_cases hexec with ⟨k, w, r, rfl⟩ | ⟨hport, _, r, rfl⟩
  · exact hne.elim (absurd rfl) (absurd rfl)
  · rcases effectOf_arq_ne hne with rfl | ⟨k, hk, hvalid⟩
    · exact ⟨beq_iff_eq.mp hport, .inl rfl⟩
    · have hI := port_of_judgedPacket hport hk
      refine ⟨hI, .inr ⟨eq_of_judgedPacket hk, resultWord .ok (rxData s k), ?_, (rxData_bit_zero s k).trans hvalid⟩⟩
      rw [← Host.Outcome.next.inj ((exec_of_judgedPacket hI hk).symm.trans hexec)]
      exact State.respond_respI (s := s.judge k) hI _

/-! ### The other commands, and the words (R96, R260, R264, R265) -/

/-- Two operands side by side are the lower one and the upper one shifted past it. -/
theorem setWidth_append_eq_or {m n : Nat} (x : BitVec m) (y : BitVec n) :
    (x ++ y).setWidth 24 = y.setWidth 24 ||| x.setWidth 24 <<< n := by
  refine BitVec.eq_of_getLsbD_eq fun j hj => ?_
  simp only [BitVec.getLsbD_or, BitVec.getLsbD_shiftLeft, BitVec.getLsbD_setWidth, BitVec.getLsbD_append, hj, decide_true,
    Bool.true_and]
  by_cases hn : j < n
  · simp [hn]
  · simp [hn, show j - n < 24 by omega, BitVec.getLsbD_of_ge y j (by omega)]

/-- The word of ARQ.RXX: its operands at bits 0, 8, 16 and 17. -/
theorem encode_arqRxx (h0 h1 : Byte) (crcv accept : Bool) :
    encode (.arqRxx h0 h1 crcv accept) = (0x1080 : BitVec 14) ++ BitVec.ofBool accept ++ BitVec.ofBool crcv ++ h1 ++ h0 := by
  have harg : h0.setWidth 24 ||| h1.setWidth 24 <<< 8 ||| argBit crcv 16 ||| argBit accept 17 =
      (BitVec.ofBool accept ++ BitVec.ofBool crcv ++ h1 ++ h0).setWidth 24 := by
    simp only [setWidth_append_eq_or, BitVec.shiftLeft_or_distrib, ← BitVec.shiftLeft_add, argBit, BitVec.or_assoc]
  rw [encode, harg, commandWord_setWidth 4 2 (m := 6) rfl]
  simp only [BitVec.append_assoc', BitVec.cast_eq]
  rfl

/-- The word of ARQ.TXHDR: its operands at bits 0, 2 and 8. -/
theorem encode_arqTxhdr (llid : BitVec 2) (md : Bool) (len : Byte) :
    encode (.arqTxhdr llid md len) = (0x4300 : BitVec 16) ++ len ++ (0 : BitVec 5) ++ BitVec.ofBool md ++ llid := by
  have harg : llid.setWidth 24 ||| argBit md 2 ||| len.setWidth 24 <<< 8 =
      (len ++ (0 : BitVec 5) ++ BitVec.ofBool md ++ llid).setWidth 24 := by
    simp only [setWidth_append_eq_or, BitVec.shiftLeft_or_distrib, ← BitVec.shiftLeft_add, argBit, BitVec.or_assoc,
      BitVec.ofNat_eq_ofNat, BitVec.setWidth_zero, BitVec.zero_or]
  rw [encode, harg, commandWord_setWidth 4 3 (m := 8) rfl]
  simp only [BitVec.append_assoc', BitVec.cast_eq]
  rfl

section
variable {s : State} (hport : s.port = .I)
include hport

/-- ARQ.RESET clears SN and NESN (R260). -/
theorem completes_arqReset : Completes .arqReset s { s with arqSn := false, arqNesn := false } (fun w => w = 0) :=
  have hword : resultWord .ok 0 = 0 := by decide
  completes_of_checks (cs := []) rfl (by rw [hport]; rfl) nofun hword

/-- ARQ.READ answers SN and NESN (R265). -/
theorem completes_arqRead :
    Completes .arqRead s s (fun w => w.getLsbD 0 = s.arqSn ∧ w.getLsbD 1 = s.arqNesn ∧ w.extractLsb' 2 30 = 0) := by
  have hlow : OkLow _ _ (resultWord .ok _) := okLow_setWidth (by decide) (BitVec.ofBool s.arqNesn ++ BitVec.ofBool s.arqSn)
  obtain ⟨hsn, hnesn⟩ := fields_of_extractLsb'_eq_append hlow.1
  exact completes_of_checks (cs := []) rfl (by rw [hport]; rfl) nofun
    ⟨getLsbD_of_extractLsb'_eq_ofBool hsn, getLsbD_of_extractLsb'_eq_ofBool hnesn, hlow.2⟩

/-- ARQ.TXHDR of a legal header answers it (R264). -/
theorem exec_arqTxhdr_of_legal {llid : BitVec 2} {len : Byte} (md : Bool) (hlegal : headerLegal s.cfg llid len = true) :
    exec (.arqTxhdr llid md len) s = answer .ok (txHeaderData llid md len s) s :=
  checked_of_good _ s [(headerLegal s.cfg llid len, .range)] _ (by rw [hport]; rfl) (List.forall_mem_singleton.mpr hlegal)

/-- ARQ.TXHDR of any other header raises ERANGE (R264). -/
theorem exec_arqTxhdr_of_illegal {llid : BitVec 2} {len : Byte} (md : Bool) (hillegal : headerLegal s.cfg llid len = false) :
    exec (.arqTxhdr llid md len) s = raiseFault .range (encode (.arqTxhdr llid md len)) s := by
  refine (checked_of_right (.arqTxhdr llid md len) s _ _ (by rw [hport]; rfl)).trans ?_
  rw [hillegal]
  rfl

end

/-- The header bytes and the sequence bits that ARQ.TXHDR answers (R264). -/
theorem txHeaderData_fields (llid : BitVec 2) (md : Bool) (len : Byte) (s : State) {w : Word}
    (hw : w = resultWord .ok (txHeaderData llid md len s)) :
    w.extractLsb' 0 8 = headerByte0 md s.arqSn s.arqNesn llid ∧ w.extractLsb' 8 8 = len ∧ w.getLsbD 16 = s.arqSn ∧
      w.getLsbD 17 = s.arqNesn ∧ w.extractLsb' 18 14 = 0 := by
  have hlow : OkLow _ _ w := hw ▸ okLow_setWidth (by decide) _
  obtain ⟨hb0, hrest⟩ := fields_of_extractLsb'_eq_append hlow.1
  obtain ⟨hb1, hrest⟩ := fields_of_extractLsb'_eq_append hrest
  obtain ⟨hsn, hnesn⟩ := fields_of_extractLsb'_eq_append hrest
  exact ⟨hb0, hb1, getLsbD_of_extractLsb'_eq_ofBool hsn, getLsbD_of_extractLsb'_eq_ofBool hnesn, hlow.2⟩

/-- The fields of a word whose low byte is header byte 0 (R252). -/
theorem fields_of_headerByte0 {md sn nesn : Bool} {llid : BitVec 2} {n : Nat} {w : BitVec n}
    (h : w.extractLsb' 0 8 = headerByte0 md sn nesn llid) :
    w.extractLsb' 0 2 = llid ∧ w.getLsbD 2 = nesn ∧ w.getLsbD 3 = sn ∧ w.getLsbD 4 = md ∧ w.extractLsb' 5 3 = 0 := by
  obtain ⟨hllid, hrest⟩ := fields_of_extractLsb'_eq_append (n := 3 + 1 + 1 + 1) (m := 2) h
  obtain ⟨hnesn, hrest⟩ := fields_of_extractLsb'_eq_append hrest
  obtain ⟨hsn, hrest⟩ := fields_of_extractLsb'_eq_append hrest
  obtain ⟨hmd, hzero⟩ := fields_of_extractLsb'_eq_append hrest
  exact ⟨hllid, getLsbD_of_extractLsb'_eq_ofBool hnesn, getLsbD_of_extractLsb'_eq_ofBool hsn,
    getLsbD_of_extractLsb'_eq_ofBool hmd, hzero⟩

/-- A header that is not legal, written out (R264). -/
theorem headerLegal_eq_false_iff (c : Config) (llid : BitVec 2) (len : Byte) :
    headerLegal c llid len = false ↔ llid = 0 ∨ c.maxPayload < len.toNat := by
  rw [← Bool.not_eq_true, headerLegal_iff, Decidable.not_and_iff_or_not, not_ne_iff, Nat.not_le]

/-- Settles O45: neither command makes a further check on port I. -/
theorem arqResetAndReadRule : Obligations.ArqResetAndReadRule :=
  ⟨by decide, by decide, fun s => ⟨fun hport => ⟨completes_arqReset hport, completes_arqRead hport⟩, fun hport =>
    ⟨faultsPort_of_no_right (by rw [hport]; rfl), faultsPort_of_no_right (by rw [hport]; rfl)⟩⟩⟩

/-- Settles O46: the packet judged is the CRC unit's. -/
theorem arqRxRule : Obligations.ArqRxRule := by
  refine ⟨by decide, by decide, fun accept s => ⟨fun hport => ?_, fun hport => faultsPort_of_no_right (by rw [hport]; rfl)⟩⟩
  have hcrc : decide (s.crc = 0) = crcZero s.crc := by rw [crcZero, beq_eq_decide]
  rw [hcrc]
  exact arqUpdateRule_of_judgedPacket (k := crcPacket accept s) hport rfl

/-- Settles O47: the packet judged is the operands'. -/
theorem arqRxxRule : Obligations.ArqRxxRule := fun h0 h1 crcv accept s =>
  ⟨encode_arqRxx h0 h1 crcv accept,
    fun hport => arqUpdateRule_of_judgedPacket
      (k := { h0 := h0, h1 := h1, crcOk := crcv, lenOk := true, accept := accept }) hport rfl,
    fun hport => faultsPort_of_no_right (by rw [hport]; rfl)⟩

/-- Settles O50: a legal header is answered over an unchanged state, any other is ERANGE. -/
theorem arqTxhdrRule : Obligations.ArqTxhdrRule := by
  refine fun llid md len s => ⟨encode_arqTxhdr llid md len, fun hport => ⟨fun hlegal => ?_, fun hillegal => ?_⟩,
    fun hport => faultsPort_of_no_right (by rw [hport]; rfl)⟩
  · obtain ⟨hb0, hb1, hsn, hnesn, hzeros⟩ := txHeaderData_fields llid md len s rfl
    obtain ⟨hllid, hn, hs, hmd, hrfu⟩ := fields_of_headerByte0 hb0
    exact ⟨_, exec_arqTxhdr_of_legal hport md ((headerLegal_iff _ _ _).mpr hlegal), hllid, hn, hs, hmd, hrfu, hb1, hsn,
      hnesn, hzeros⟩
  · exact faultsWith_of_raise (k := .range)
      (exec_arqTxhdr_of_illegal hport md ((headerLegal_eq_false_iff _ _ _).mpr hillegal))

end Sys2Proof.Machine
/-! PROOFS. Exactly-once delivery (44_arq.md R266, R267): what one block makes of one packet, and how SN and NESN count the payloads
acknowledged and delivered along any list of events. -/

namespace Sys2Proof.Machine

/-! ### One command on port I -/

/-- What port I learns of a command that answers. -/
theorem ask_of_exec {i : Instr} {s u : State} {w : Word} (hport : u.port = .I)
    (hexec : exec i { s with port := .I } = .next (u.respond (.result w))) : ask i s = (u.respond (.result w), w) := by
  have hresp := State.respond_respI hport (.result w)
  rw [ask, issue, hexec]
  simp only [hresp]

/-- ARQ.TXHDR moves nothing, and gives its caller the two bytes of a legal header; the word of ERANGE has a zero byte 0, whose LLID
makes no valid packet. -/
theorem ask_arqTxhdr (llid : BitVec 2) (md : Bool) (len : Byte) (s : State) :
    ((ask (.arqTxhdr llid md len) s).1.cfg = s.cfg ∧ (ask (.arqTxhdr llid md len) s).1.arqSn = s.arqSn ∧
      (ask (.arqTxhdr llid md len) s).1.arqNesn = s.arqNesn) ∧
    (headerLegal s.cfg llid len = true →
      (ask (.arqTxhdr llid md len) s).2.extractLsb' 0 8 = headerByte0 md s.arqSn s.arqNesn llid ∧
        (ask (.arqTxhdr llid md len) s).2.extractLsb' 8 8 = len) ∧
    (headerLegal s.cfg llid len = false → (ask (.arqTxhdr llid md len) s).2.extractLsb' 0 8 = 0) := by
  cases hlegal : headerLegal s.cfg llid len with
  | true =>
    rw [ask_of_exec rfl (exec_arqTxhdr_of_legal (s := { s with port := .I }) rfl md hlegal)]
    obtain ⟨hb0, hb1, _⟩ := txHeaderData_fields llid md len { s with port := .I } rfl
    exact ⟨⟨rfl, rfl, rfl⟩, fun _ => ⟨hb0, hb1⟩, nofun⟩
  | false =>
    rw [ask_of_exec rfl (exec_arqTxhdr_of_illegal (s := { s with port := .I }) rfl md hlegal)]
    exact ⟨⟨rfl, rfl, rfl⟩, nofun, fun _ => (show (0x60000000 : Word).extractLsb' 0 8 = 0 by decide)⟩

/-! ### One packet -/

/-- The packet a receiver judges, by what became of it; one that never arrives is no valid packet either. -/
def Fate.packet (f : Fate) (hdr : Word) (accept : Bool) : RxPacket :=
  match f with
  | .lost => { h0 := 0, h1 := 0, crcOk := false, lenOk := true, accept := accept }
  | .damaged h0 h1 => { h0 := h0, h1 := h1, crcOk := false, lenOk := true, accept := accept }
  | .intact => { h0 := hdr.extractLsb' 0 8, h1 := hdr.extractLsb' 8 8, crcOk := true, lenOk := true, accept := accept }

/-- An invalid packet is in no way new or acknowledging. -/
theorem rxFlags_of_invalid {s : State} {k : RxPacket} (h : rxValid s.cfg k = false) :
    rxNew s k = false ∧ rxAcked s k = false := by
  rw [rxNew, rxAcked, h, Bool.false_and, Bool.false_and]
  exact ⟨rfl, rfl⟩

/-- What judging the packet `k` leaves of a block, and what its caller is told: ACKED and DELIVER. -/
structure State.Received (s : State) (k : RxPacket) (r : State × Word) : Prop extends s.Judged k r.1 where
  acked : r.2.getLsbD 2 = rxAcked s k
  deliver : r.2.getLsbD 3 = rxDeliver s k

/-- A packet that does not arrive leaves and tells what an invalid one does. -/
theorem State.received_of_invalid {s : State} {k : RxPacket} (h : rxValid s.cfg k = false) : s.Received k (s, 0) := by
  obtain ⟨hsn, hnesn⟩ := rxNext_of_invalid h
  obtain ⟨hnew, hacked⟩ := rxFlags_of_invalid h
  refine ⟨⟨rfl, hsn.symm, hnesn.symm⟩, BitVec.getLsbD_zero.trans hacked.symm, BitVec.getLsbD_zero.trans ?_⟩
  rw [rxDeliver, hnew]
  rfl

/-- ARQ.RXX judges the packet of its operands. -/
theorem received_arqRxx (h0 h1 : Byte) (crcv accept : Bool) (s : State) :
    s.Received { h0 := h0, h1 := h1, crcOk := crcv, lenOk := true, accept := accept } (ask (.arqRxx h0 h1 crcv accept) s) := by
  have hexec := exec_of_judgedPacket (i := .arqRxx h0 h1 crcv accept) (s := { s with port := .I }) rfl rfl
  obtain ⟨_, _, hacked, hdeliver, _⟩ := rxData_fields { s with port := .I } _ rfl
  rw [ask_of_exec rfl hexec]
  exact ⟨⟨rfl, rfl, rfl⟩, hacked, hdeliver⟩

/-- Whatever becomes of a packet, its receiver judges what arrived. -/
theorem received_receive (f : Fate) (hdr : Word) (accept : Bool) (s : State) :
    s.Received (f.packet hdr accept) (receive f hdr accept s) := by
  cases f with
  | lost => exact State.received_of_invalid rfl
  | damaged h0 h1 => exact received_arqRxx h0 h1 false accept s
  | intact => exact received_arqRxx _ _ true accept s

/-- The packet `k` holds the sequence bits of its sender `s`, and the length `len`. -/
structure State.SentAs (s : State) (len : Byte) (k : RxPacket) : Prop where
  sn : hdrSn k.h0 = s.arqSn
  nesn : hdrNesn k.h0 = s.arqNesn
  len : k.h1 = len

/-- A valid packet arrived, and its sender's header was legal: it is the header ARQ.TXHDR built. -/
theorem sentAs_of_valid {c : Config} {s : State} {f : Fate} {llid : BitVec 2} {md accept : Bool} {len : Byte}
    (hvalid : rxValid c (f.packet (ask (.arqTxhdr llid md len) s).2 accept) = true) :
    s.SentAs len (f.packet (ask (.arqTxhdr llid md len) s).2 accept) := by
  cases f with
  | lost => cases hvalid
  | damaged h0 h1 => cases hvalid
  | intact =>
    obtain ⟨_, hlegal, hillegal⟩ := ask_arqTxhdr llid md len s
    cases h : headerLegal s.cfg llid len with
    | true =>
      obtain ⟨hb0, hb1⟩ := hlegal h
      obtain ⟨_, hnesn, hsn, _⟩ := fields_of_headerByte0 (w := headerByte0 md s.arqSn s.arqNesn llid) BitVec.extractLsb'_eq_self
      rw [← hb0] at hnesn hsn
      exact ⟨hsn, hnesn, hb1⟩
    | false =>
      have hzero : (Fate.intact.packet (ask (.arqTxhdr llid md len) s).2 accept).h0 = 0 := hillegal h
      rw [rxValid, rxHdrOk, hzero] at hvalid
      cases hvalid

/-- A header legal for both blocks arrives as a valid packet. -/
theorem valid_of_header {c : Config} {s : State} {llid : BitVec 2} {len : Byte} (md accept : Bool)
    (hsender : headerLegal s.cfg llid len = true) (hreceiver : headerLegal c llid len = true) :
    rxValid c (Fate.intact.packet (ask (.arqTxhdr llid md len) s).2 accept) = true := by
  obtain ⟨-, hlegal, -⟩ := ask_arqTxhdr llid md len s
  obtain ⟨hb0, hb1⟩ := hlegal hsender
  obtain ⟨hllid, _⟩ := fields_of_headerByte0 (w := headerByte0 md s.arqSn s.arqNesn llid) BitVec.extractLsb'_eq_self
  obtain ⟨hne, hle⟩ := (headerLegal_iff _ _ _).mp hreceiver
  exact rxValid_of_header accept (by rw [hb0, hllid]; exact hne) (by rw [hb1]; exact hle)

/-- Whatever becomes of a packet whose header `s` built, its receiver judges one that is valid only with that header, and is valid if
it arrives with a header legal for both. -/
theorem received_header (f : Fate) (llid : BitVec 2) (md : Bool) (len : Byte) (accept : Bool) (s peer : State) :
    ∃ k, peer.Received k (receive f (ask (.arqTxhdr llid md len) s).2 accept peer) ∧ k.accept = accept ∧
      (rxValid peer.cfg k = true → s.SentAs len k) ∧
      (f = .intact → headerLegal s.cfg llid len = true → headerLegal peer.cfg llid len = true →
        rxValid peer.cfg k = true) := by
  refine ⟨_, received_receive f _ accept peer, by cases f <;> rfl, sentAs_of_valid, ?_⟩
  rintro rfl hsender hreceiver
  exact valid_of_header md accept hsender hreceiver

/-- Of a packet that is not empty, NESN moves exactly on DELIVER. -/
theorem rxNesnNext_of_payload {s : State} {k : RxPacket} (h : rxValid s.cfg k = true → k.h1 ≠ 0) :
    rxNesnNext s k = (s.arqNesn ^^ rxDeliver s k) := by
  cases hvalid : rxValid s.cfg k with
  | true => rw [rxNesnNext, rxDeliver, bne_iff_ne.mpr (h hvalid), Bool.and_true]
  | false => rw [rxNesnNext, rxDeliver, (rxFlags_of_invalid hvalid).1, Bool.false_and, Bool.false_and]

/-- A packet delivered is valid, with the SN that was expected. -/
theorem valid_of_deliver {s : State} {k : RxPacket} (h : rxDeliver s k = true) :
    rxValid s.cfg k = true ∧ hdrSn k.h0 = s.arqNesn := by
  rw [rxDeliver, Bool.and_eq_true, Bool.and_eq_true, rxNew, Bool.and_eq_true, beq_iff_eq] at h
  obtain ⟨⟨hnew, -⟩, -⟩ := h
  exact hnew

/-- A packet that acknowledges is valid, with an NESN past SN. -/
theorem rxAcked_eq_true_iff (s : State) (k : RxPacket) :
    rxAcked s k = true ↔ rxValid s.cfg k = true ∧ hdrNesn k.h0 ≠ s.arqSn := by
  rw [rxAcked, Bool.and_eq_true, bne_iff_ne]

/-- A valid packet that the caller takes leaves NESN past its SN: it is new, or NESN was past it already. -/
theorem rxNesnNext_of_accept {s : State} {k : RxPacket} (hvalid : rxValid s.cfg k = true) (haccept : k.accept = true) :
    rxNesnNext s k = !hdrSn k.h0 := by
  rw [rxNesnNext_of_valid hvalid, rxEacc, haccept]
  cases hdrSn k.h0 <;> cases s.arqNesn <;> rfl

/-! ### The two blocks -/

/-- The sender's SN is the parity of the payloads acknowledged and the receiver's NESN that of the payloads delivered; those are the
first ones in order, and one of them at most is not yet acknowledged. The configurations are those given. -/
structure Link.InStep (cs cr : Config) (l : Link) : Prop where
  senderCfg : l.sender.cfg = cs
  receiverCfg : l.receiver.cfg = cr
  sn : l.sender.arqSn = l.acked.bodd
  nesn : l.receiver.arqNesn = l.delivered.length.bodd
  delivered : l.delivered = List.range l.delivered.length
  window : l.delivered.length = l.acked ∨ l.delivered.length = l.acked + 1

namespace Link.InStep
variable {cs cr : Config} {pay : Nat → BitVec 2 × Byte} {l : Link}

/-- The two bits agree exactly when every payload delivered is acknowledged. -/
theorem nesn_eq_sn_iff (h : l.InStep cs cr) : l.receiver.arqNesn = l.sender.arqSn ↔ l.delivered.length = l.acked := by
  rw [h.nesn, h.sn]
  rcases h.window with hlen | hlen <;> rw [hlen]
  · exact iff_of_true rfl rfl
  · rw [Nat.bodd_succ]
    exact iff_of_false (Bool.not_ne_self _) (Nat.succ_ne_self _)

/-- The next payload delivered keeps the payloads in order. -/
theorem delivered_append (h : l.InStep cs cr) (hlen : l.delivered.length = l.acked) :
    l.delivered ++ [l.acked] = List.range (l.acked + 1) := by
  rw [← hlen, List.range_succ, ← h.delivered]

/-- A payload is delivered only when all those before it are acknowledged, and then it is the next one. -/
theorem send (h : l.InStep cs cr) (hpay : (pay l.acked).2 ≠ 0) (e : Exchange) : (l.send pay e).InStep cs cr := by
  obtain ⟨⟨hcfg, hsn, -⟩, -⟩ := ask_arqTxhdr (pay l.acked).1 e.md (pay l.acked).2 l.sender
  obtain ⟨k, hreceived, -, hheader, -⟩ :=
    received_header e.forward (pay l.acked).1 e.md (pay l.acked).2 e.accept l.sender l.receiver
  have hnesn := hreceived.nesn.trans (rxNesnNext_of_payload fun hvalid => (hheader hvalid).len ▸ hpay)
  rw [Link.send, hreceived.deliver]
  cases hdeliver : rxDeliver l.receiver k with
  | false =>
    rw [hdeliver, Bool.xor_false] at hnesn
    exact { h with
      senderCfg := hcfg.trans h.senderCfg
      receiverCfg := hreceived.cfg.trans h.receiverCfg
      sn := hsn.trans h.sn
      nesn := hnesn.trans h.nesn }
  | true =>
    obtain ⟨hvalid, hexpected⟩ := valid_of_deliver hdeliver
    have hlen : l.delivered.length = l.acked := h.nesn_eq_sn_iff.mp (hexpected.symm.trans (hheader hvalid).sn)
    rw [hdeliver, Bool.xor_true, h.nesn, hlen, ← Nat.bodd_succ] at hnesn
    rw [if_pos rfl, h.delivered_append hlen]
    exact {
      senderCfg := hcfg.trans h.senderCfg
      receiverCfg := hreceived.cfg.trans h.receiverCfg
      sn := hsn.trans h.sn
      nesn := by rwa [List.length_range]
      delivered := by rw [List.length_range]
      window := .inr List.length_range }

/-- A payload is acknowledged only when it has been delivered. -/
theorem reply (h : l.InStep cs cr) (e : Exchange) : (l.reply e).InStep cs cr := by
  obtain ⟨⟨hcfg, -, hnesn⟩, -⟩ := ask_arqTxhdr e.replyLlid e.replyMd e.replyLen l.receiver
  obtain ⟨k, hreceived, -, hheader, -⟩ :=
    received_header e.back e.replyLlid e.replyMd e.replyLen e.acceptBack l.receiver l.sender
  have hsn : _ = (l.sender.arqSn ^^ rxAcked l.sender k) := hreceived.sn
  rw [Link.reply, hreceived.acked]
  cases hacked : rxAcked l.sender k with
  | false =>
    rw [hacked, Bool.xor_false] at hsn
    exact { h with
      senderCfg := hreceived.cfg.trans h.senderCfg
      receiverCfg := hcfg.trans h.receiverCfg
      sn := hsn.trans h.sn
      nesn := hnesn.trans h.nesn }
  | true =>
    obtain ⟨hvalid, hpast⟩ := (rxAcked_eq_true_iff _ _).mp hacked
    have hlen : l.delivered.length ≠ l.acked := fun hlen =>
      hpast ((hheader hvalid).nesn.trans (h.nesn_eq_sn_iff.mpr hlen))
    rw [hacked, Bool.xor_true, h.sn, ← Nat.bodd_succ] at hsn
    exact { h with
      senderCfg := hreceived.cfg.trans h.senderCfg
      receiverCfg := hcfg.trans h.receiverCfg
      sn := hsn
      nesn := hnesn.trans h.nesn
      window := .inl (h.window.resolve_left hlen) }

/-- Every event keeps the two blocks in step. -/
theorem event (h : l.InStep cs cr) (hpay : ∀ n, (pay n).2 ≠ 0) (e : Exchange) : (l.event pay e).InStep cs cr :=
  (h.send (hpay _) e).reply e

/-- Every list of events keeps the two blocks in step. -/
theorem events (h : l.InStep cs cr) (hpay : ∀ n, (pay n).2 ≠ 0) (es : List Exchange) :
    (es.foldl (Link.event pay) l).InStep cs cr :=
  List.foldlRecOn es _ h fun _ hl e _ => hl.event hpay e

end Link.InStep

namespace Link
variable {pay : Nat → BitVec 2 × Byte} {l : Link} {e : Exchange}

/-- A payload that arrives and can be taken leaves the receiver's NESN past the sender's SN: the receiver has it now, or had it
before. -/
theorem send_takes (hforward : e.forward = .intact) (haccept : e.accept = true)
    (hsender : headerLegal l.sender.cfg (pay l.acked).1 (pay l.acked).2 = true)
    (hreceiver : headerLegal l.receiver.cfg (pay l.acked).1 (pay l.acked).2 = true) :
    (l.send pay e).receiver.arqNesn = !(l.send pay e).sender.arqSn := by
  obtain ⟨⟨-, hsn, -⟩, -⟩ := ask_arqTxhdr (pay l.acked).1 e.md (pay l.acked).2 l.sender
  obtain ⟨k, hreceived, htake, hheader, harrives⟩ :=
    received_header e.forward (pay l.acked).1 e.md (pay l.acked).2 e.accept l.sender l.receiver
  have hvalid := harrives hforward hsender hreceiver
  calc (l.send pay e).receiver.arqNesn
    _ = rxNesnNext l.receiver k := hreceived.nesn
    _ = !hdrSn k.h0 := rxNesnNext_of_accept hvalid (htake.trans haccept)
    _ = !(l.send pay e).sender.arqSn := congrArg not ((hheader hvalid).sn.trans hsn.symm)

/-- A reply that arrives with an NESN past the sender's SN acknowledges one payload more. -/
theorem reply_acks (hback : e.back = .intact) (hpast : l.receiver.arqNesn = !l.sender.arqSn)
    (hreceiver : headerLegal l.receiver.cfg e.replyLlid e.replyLen = true)
    (hsender : headerLegal l.sender.cfg e.replyLlid e.replyLen = true) : (l.reply e).acked = l.acked + 1 := by
  obtain ⟨k, hreceived, -, hheader, harrives⟩ :=
    received_header e.back e.replyLlid e.replyMd e.replyLen e.acceptBack l.receiver l.sender
  have hvalid := harrives hback hreceiver hsender
  have hne : hdrNesn k.h0 ≠ l.sender.arqSn := by
    rw [(hheader hvalid).nesn, hpast]
    exact Bool.not_ne_self _
  exact if_pos (hreceived.acked.trans ((rxAcked_eq_true_iff _ _).mpr ⟨hvalid, hne⟩))

end Link

/-- Settles O51: the blocks are in step at the start, and every event keeps them so. -/
theorem exactlyOnceDelivery : Obligations.ExactlyOnceDelivery := by
  intro pay l es hsn _ _ hnesn hacked hdelivered hpay
  have hstart : l.InStep l.sender.cfg l.receiver.cfg :=
    { senderCfg := rfl
      receiverCfg := rfl
      sn := by rw [hsn, hacked]; rfl
      nesn := by rw [hnesn, hdelivered]; rfl
      delivered := by rw [hdelivered]; rfl
      window := .inl (by rw [hdelivered, hacked]; rfl) }
  have hend := hstart.events hpay es
  generalize es.foldl (Link.event pay) l = m at hend ⊢
  have hwindow := hend.window
  refine ⟨hend.delivered, by omega, by omega, fun e hforward hback haccept hllid hlegal hreplySender hreplyReceiver => ?_⟩
  obtain ⟨hne, hleSender, hleReceiver⟩ := hlegal m.acked
  have hsent := hend.send (hpay m.acked) e
  have htaken := Link.send_takes (pay := pay) hforward haccept
    ((headerLegal_iff _ _ _).mpr ⟨hne, hend.senderCfg ▸ hleSender⟩)
    ((headerLegal_iff _ _ _).mpr ⟨hne, hend.receiverCfg ▸ hleReceiver⟩)
  exact Link.reply_acks hback htaken
    ((headerLegal_iff _ _ _).mpr ⟨hllid, hsent.receiverCfg ▸ hreplyReceiver⟩)
    ((headerLegal_iff _ _ _).mpr ⟨hllid, hsent.senderCfg ▸ hreplySender⟩)

end Sys2Proof.Machine

/-! PROOFS. Which fault a command takes (60_exceptions.md R300 to R307): an illegal word, the port rights, and the first of a
command's checks that fails, which its port can tell from the status it is answered. -/

namespace Sys2Proof.Machine

/-! ### An illegal word (R301) -/

/-- Serving a word that decodes to nothing raises ILLEGAL (R98, R301). -/
theorem serve_illegal {w : Word} {e : Illegal} (h : decode w = .error e) (s : State) :
    serve (.command w) s = raiseFault .illegal w s := by
  simp [serve, h, illegalCommand]

/-- Settles O7: the step serves the word in the state in which its port is granted, and a raised fault is R302 written out. -/
theorem illegalWordFaults : Obligations.IllegalWordFaults := by
  intro s p w e hwf hawake hp hr hdecode
  have hstep := step_of_fetch hwf hawake (fetch_of_nextPort hp hr)
  exact ⟨_, hstep.trans (serve_illegal hdecode _), raiseFault_taken .illegal w (s.grant p) _ rfl⟩

/-! ### The fault a command takes, and the status that tells it (R94, R300) -/

/-- The fault of the first check that fails, if one does (R300). -/
def firstFailed : List (Bool × FaultKind) → Option FaultKind
  | [] => none
  | (good, k) :: rest => if good then firstFailed rest else some k

@[simp] theorem firstFailed_nil : firstFailed [] = none := rfl

@[simp] theorem firstFailed_cons_eq_some_iff {good : Bool} {k k' : FaultKind} {rest : List (Bool × FaultKind)} :
    firstFailed ((good, k) :: rest) = some k' ↔ good = false ∧ k = k' ∨ good = true ∧ firstFailed rest = some k' := by
  cases good <;> simp [firstFailed]

/-- The checks raise the fault of the first that fails, and with none the rule runs. -/
theorem runChecks_eq_firstFailed (w : Word) (s : State) (body : StepResult) (cs : List (Bool × FaultKind)) :
    runChecks w s body cs = (firstFailed cs).elim body fun k => raiseFault k w s := by
  induction cs with
  | nil => rfl
  | cons c rest ih =>
    obtain ⟨good, k⟩ := c
    cases good with
    | false => rfl
    | true => exact ih

/-- The fault a command takes, if it takes one: its port check is before its own checks (R300). -/
def faultOf (s : State) (i : Instr) : Option FaultKind :=
  firstFailed ((portMay s.port i, .port) :: checksOf s i)

/-- A command raises the fault it takes, and with none answers a normal status over its effect. -/
theorem exec_eq_faultOf (i : Instr) (s : State) :
    ∃ st d, st.isNormal = true ∧
      exec i s = (faultOf s i).elim (answer st d (effectOf s i)) fun k => raiseFault k (encode i) s := by
  obtain ⟨st, d, hst, hexec⟩ := exec_eq i s
  exact ⟨st, d, hst, hexec.trans (runChecks_eq_firstFailed _ _ _ _)⟩

/-- Each fault reports a status of its own. -/
theorem statusCode_faultStatus_inj {k k' : FaultKind} : statusCode (faultStatus k) = statusCode (faultStatus k') ↔ k = k' := by
  cases k <;> cases k' <;> decide

/-- No fault reports a normal status. -/
theorem statusCode_ne_of_isNormal {st : Status} (h : st.isNormal = true) (k : FaultKind) :
    statusCode st ≠ statusCode (faultStatus k) := by
  intro heq
  have hnormal := statusCode_of_isNormal h
  rw [heq] at hnormal
  cases k <;> exact absurd hnormal (by decide)

/-- A command answers a fault's status exactly when it takes that fault. -/
theorem statusOf_eq_fault_iff {i : Instr} {s t : State} (h : exec i s = .next t) (k : FaultKind) :
    statusOf s t = some (statusCode (faultStatus k)) ↔ faultOf s i = some k := by
  obtain ⟨st, d, hst, hexec⟩ := exec_eq_faultOf i s
  rw [hexec] at h
  cases hfault : faultOf s i with
  | none =>
    rw [hfault] at h
    cases h
    rw [statusOf_respond s (effectOf s i) _ _ (samePorts_effectOf s i).port, Option.some_inj]
    exact iff_of_false (statusCode_ne_of_isNormal hst k) nofun
  | some k' =>
    rw [hfault] at h
    cases h
    rw [statusOf_respond s (s.takeFault k' _) _ _ rfl, Option.some_inj, Option.some_inj, statusCode_faultStatus_inj]

/-! ### Each fault but ILLEGAL (R303 to R307) -/

/-- A fault other than EPORT is the first of the command's own checks to fail, on a port with the right. -/
theorem faultOf_eq_some_iff {s : State} {i : Instr} {k : FaultKind} (hk : .port ≠ k) :
    faultOf s i = some k ↔ portMay s.port i = true ∧ firstFailed (checksOf s i) = some k := by
  simp [faultOf, hk]

/-- EPORT is the fault of exactly the port check (R303). -/
theorem faultOf_eq_port_iff (s : State) (i : Instr) : faultOf s i = some .port ↔ portMay s.port i = false := by
  have hown : firstFailed (checksOf s i) ≠ some .port := by cases i <;> simp [checksOf]
  simp [faultOf, hown]

/-- The CRC byte index that is not legal (R145). -/
theorem crcByteIndexLegal_eq_false_iff (k : BitVec 2) : crcByteIndexLegal k = false ↔ k = 3 := by
  simp [crcByteIndexLegal]

/-- The commands with a range check, and when it fails (R304). -/
theorem firstFailed_eq_range_iff (s : State) (i : Instr) :
    firstFailed (checksOf s i) = some .range ↔
      i = .crcTxb 3 ∨ (∃ h, i = .hopSethop h ∧ (h.toNat < 5 ∨ 16 < h.toNat)) ∨
        (∃ am, i = .hopCommit am true ∧ (s.hopSh.toNat < 5 ∨ 16 < s.hopSh.toNat)) ∨
        (∃ c, i = .hopSetunm c ∧ 36 < c.toNat) ∨
        ∃ llid md len, i = .arqTxhdr llid md len ∧ (llid = 0 ∨ s.cfg.maxPayload < len.toNat) := by
  cases i with
  | crcTxb k => simp [checksOf, crcByteIndexLegal_eq_false_iff]
  | hopSethop h => simp [checksOf, hopLegal_eq_false_iff]
  | hopCommit am ah => simp [checksOf, hopLegal_eq_false_iff]
  | hopSetunm c => simp [checksOf, channelLegal_eq_false_iff]
  | arqTxhdr llid md len => simp [checksOf, headerLegal_eq_false_iff]
  | _ => simp [checksOf]

/-- HOP.NEXT alone checks that the unit is configured (R305). -/
theorem firstFailed_eq_unconf_iff (s : State) (i : Instr) :
    firstFailed (checksOf s i) = some .unconf ↔
      i = .hopNext ∧ (s.hopH.toNat < 5 ∨ 16 < s.hopH.toNat ∨ popcount s.hopMap < 2) := by
  cases i with
  | hopNext => simp [checksOf, hopConfigured_eq_false_iff]
  | _ => simp [checksOf]

/-- HOP.COMMIT alone checks the staged map, after its range check (R300, R306). -/
theorem firstFailed_eq_map_iff (s : State) (i : Instr) :
    firstFailed (checksOf s i) = some .map ↔
      ∃ ah, i = .hopCommit true ah ∧ popcount s.hopStg < 2 ∧ (ah = true → 5 ≤ s.hopSh.toNat ∧ s.hopSh.toNat ≤ 16) := by
  cases i with
  | hopCommit am ah =>
    have hrange : (!ah || hopLegal s.hopSh) = true ↔ (ah = true → 5 ≤ s.hopSh.toNat ∧ s.hopSh.toNat ≤ 16) := by
      rw [← hopLegal_iff]
      cases ah <;> simp
    have hmap : (!am || decide (Config.minUsed ≤ popcount s.hopStg)) = false ↔ am = true ∧ popcount s.hopStg < 2 := by
      rw [Bool.or_eq_false_iff, Bool.not_eq_false', decide_eq_false_iff_not, Nat.not_le, Config.minUsed]
    simp [checksOf, -Bool.or_eq_true, -Bool.or_eq_false_iff, hrange, hmap, and_comm, and_assoc]
  | _ => simp [checksOf]

/-- PQ.COMMIT and CQ.REL alone check that their side has a hold (R307). -/
theorem firstFailed_eq_seq_iff (s : State) (i : Instr) :
    firstFailed (checksOf s i) = some .seq ↔
      ∃ q, i = .pqCommit q ∧ (s.queue q).ph = .noHold ∨ i = .cqRel q ∧ (s.queue q).ch = .noHold := by
  cases i with
  | pqCommit q => simp [checksOf]
  | cqRel q => simp [checksOf]
  | _ => simp [checksOf]

/-- Settles O53: status 6 is the range fault, and its commands are those with a range check. -/
theorem rangeFaultsExactly : Obligations.RangeFaultsExactly := fun i s _ hexec =>
  calc
    _ ↔ faultOf s i = some .range := statusOf_eq_fault_iff hexec .range
    _ ↔ portMay s.port i = true ∧ firstFailed (checksOf s i) = some .range := faultOf_eq_some_iff nofun
    _ ↔ _ := and_congr_right' (firstFailed_eq_range_iff s i)

/-- Settles O54: each status is one fault, and the commands that can take it name the port with the right. -/
theorem otherFaultsExactly : Obligations.OtherFaultsExactly := by
  intro i s t hexec
  have own {k : FaultKind} (hk : .port ≠ k) := (statusOf_eq_fault_iff hexec k).trans (faultOf_eq_some_iff hk)
  refine ⟨(statusOf_eq_fault_iff hexec .port).trans (faultOf_eq_port_iff s i),
    (own (k := .unconf) nofun).trans ?_, (own (k := .map) nofun).trans ?_, (own (k := .seq) nofun).trans ?_⟩
  · rw [firstFailed_eq_unconf_iff]
    constructor
    · rintro ⟨hport, rfl, hunconf⟩
      exact ⟨rfl, beq_iff_eq.mp hport, hunconf⟩
    · rintro ⟨rfl, hport, hunconf⟩
      exact ⟨beq_iff_eq.mpr hport, rfl, hunconf⟩
  · rw [firstFailed_eq_map_iff]
    constructor
    · rintro ⟨hport, ah, rfl, hfew⟩
      exact ⟨ah, rfl, beq_iff_eq.mp hport, hfew⟩
    · rintro ⟨ah, rfl, hport, hfew⟩
      exact ⟨beq_iff_eq.mpr hport, ah, rfl, hfew⟩
  · rw [firstFailed_eq_seq_iff]
    constructor
    · rintro ⟨hport, q, ⟨rfl, hnone⟩ | ⟨rfl, hnone⟩⟩
      · exact ⟨q, .inl ⟨rfl, beq_iff_eq.mp hport, hnone⟩⟩
      · exact ⟨q, .inr ⟨rfl, beq_iff_eq.mp hport, hnone⟩⟩
    · rintro ⟨q, ⟨rfl, hport, hnone⟩ | ⟨rfl, hport, hnone⟩⟩
      · exact ⟨beq_iff_eq.mpr hport, q, .inl ⟨rfl, hnone⟩⟩
      · exact ⟨beq_iff_eq.mpr hport, q, .inr ⟨rfl, hnone⟩⟩

/-! ### The port rights (R303) -/

/-- Port I lacks the right to the queue sides of port A, and to nothing else. -/
theorem portMay_I_eq_false_iff (i : Instr) :
    portMay .I i = false ↔ i = .pqAcq .txq ∨ i = .pqCommit .txq ∨ i = .cqAcq .rxq ∨ i = .cqRel .rxq := by
  cases i with
  | pqAcq q | pqCommit q | cqAcq q | cqRel q => cases q <;> decide
  | _ => simp [portMay]

/-- Port A has the right to the SYS commands, its own queue sides and Q.STAT, and to nothing else. -/
theorem portMay_A_eq_true_iff (i : Instr) :
    portMay .A i = true ↔ i = .sysNop ∨ i = .sysRdfault ∨ (∃ h, i = .sysRdfcmd h) ∨ i = .pqAcq .txq ∨ i = .pqCommit .txq ∨
      i = .cqAcq .rxq ∨ i = .cqRel .rxq ∨ ∃ q sel, i = .qStat q sel := by
  cases i with
  | pqAcq q | pqCommit q | cqAcq q | cqRel q => cases q <;> simp [portMay, prod, cons]
  | _ => simp [portMay]

/-- Settles O52: the table of R303 is the two ports' rights, and status 5 is the fault of the port check. -/
theorem portRightsTable : Obligations.PortRightsTable := fun i =>
  ⟨portMay_I_eq_false_iff i, portMay_A_eq_true_iff i, fun s => ⟨faultsPort_of_no_right, fun hmay _ hexec hstatus =>
    have hno : portMay s.port i = false := (faultOf_eq_port_iff s i).mp ((statusOf_eq_fault_iff hexec .port).mp hstatus)
    Bool.false_ne_true (hno.symm.trans hmay)⟩⟩

end Sys2Proof.Machine

/-! PROOFS. The reset values (70_reset_and_hazards.md R340) and the start of a connection (R345), which is a run of commands whose
checks pass and so leaves the effects of its commands, one after the other. -/

namespace Sys2Proof.Machine

/-! ### The reset input (R340) -/

/-- With a well-formed configuration and the reset input asserted, the step is that reset. -/
theorem step_of_reset {s : State} (hwf : s.cfg.wellFormed = true) (hreset : s.resetIn = true) :
    step s = .next s.applyReset := by
  rw [step, if_pos hwf, if_pos hreset]

/-- The registers of either queue after the reset input. -/
@[simp] theorem State.applyReset_queue (s : State) (q : QueueId) : s.applyReset.queue q = Queue.reset := by
  cases q <;> rfl

/-- After the reset input no byte is written and no address is open, so every slot byte is the one drawn at that reset (U1). -/
theorem slotByte_applyReset (s : State) (a : Addr) :
    slotByte s.applyReset a = some (Config.byteAtReset s.applyReset.resets a.toNat) := rfl

/-- Settles O12: the registers are those of `State.resetWith`, and the flags follow from the queue registers and from the slots each
queue has. -/
theorem resetValues : Obligations.ResetValues := by
  intro s hwf hreset
  have hregs : ∀ q, (s.applyReset.queue q).rd = 0 ∧ (s.applyReset.queue q).wr = 0 ∧
      (s.applyReset.queue q).ph = .noHold ∧ (s.applyReset.queue q).ch = .noHold := fun q => by
    rw [State.applyReset_queue]
    exact ⟨rfl, rfl, rfl, rfl⟩
  have hflags : ∀ q, queueCount s.cfg q (s.applyReset.queue q) = 0 ∧ queueEmpty s.cfg q (s.applyReset.queue q) = true ∧
      queueFull s.cfg q (s.applyReset.queue q) = false := fun q => by
    rw [State.applyReset_queue]
    exact ⟨queueCount_zero s.cfg q _ _, queueFlags_reset (cap_of_wellFormed hwf q).1⟩
  exact ⟨s.applyReset, step_of_reset hwf hreset, rfl, rfl, rfl, rfl, rfl, rfl, rfl, hregs, rfl, rfl, rfl, rfl, rfl, rfl,
    rfl, rfl, hflags, rfl, popcount_zero, rfl, slotByte_applyReset s, rfl, rfl, rfl, rfl, rfl⟩

/-! ### A run of commands whose checks pass -/

/-- The state with another executing port and other last answers. -/
def State.withAnswers (s : State) (p : Port) (a b : Response) : State :=
  { s with port := p, respI := a, respA := b }

/-- A queue's registers are not the port's nor its answers. -/
@[simp] theorem State.withAnswers_queue (s : State) (p : Port) (a b : Response) (q : QueueId) :
    (s.withAnswers p a b).queue q = s.queue q := by
  cases q <;> rfl

/-- No check of a command but the port check reads the port or an answer. -/
theorem checksOf_withAnswers (s : State) (p : Port) (a b : Response) (i : Instr) :
    checksOf (s.withAnswers p a b) i = checksOf s i := by
  cases i with
  | pqCommit q | cqRel q => simp only [checksOf, State.withAnswers_queue]
  | _ => rfl

/-- No effect of a command reads the port or an answer. -/
theorem effectOf_withAnswers (s : State) (p : Port) (a b : Response) (i : Instr) :
    effectOf (s.withAnswers p a b) i = (effectOf s i).withAnswers p a b := by
  cases i with
  | pqAcq q | pqCommit q | cqAcq q | cqRel q | qFlush q => cases q <;> rfl
  | _ => rfl

/-- The checks of each command pass in the state the commands before it leave. -/
def ChecksPass (s : State) : List Instr → Prop
  | [] => True
  | i :: rest => (∀ c ∈ checksOf s i, c.1 = true) ∧ ChecksPass (effectOf s i) rest

/-- The checks along a sequence in two parts: the second part starts where the first ends. -/
theorem checksPass_append (s : State) (l l' : List Instr) :
    ChecksPass s (l ++ l') ↔ ChecksPass s l ∧ ChecksPass (l.foldl effectOf s) l' := by
  induction l generalizing s with
  | nil => exact (iff_of_eq (true_and _)).symm
  | cons i rest ih => exact (and_congr_right' (ih (effectOf s i))).trans and_assoc.symm

/-- A port's commands, each with the right and with its checks passed, run to the state their effects give one after the other, but
for the executing port and the answers. -/
theorem issueAll_of_good {p : Port} {l : List Instr} {s : State} (hright : ∀ i ∈ l, portMay p i = true)
    (hpass : ChecksPass s l) (p₀ : Port) (a₀ b₀ : Response) :
    ∃ p' a b, issueAll (onPort p l) (s.withAnswers p₀ a₀ b₀) = .next ((l.foldl effectOf s).withAnswers p' a b) := by
  induction l generalizing s p₀ a₀ b₀ with
  | nil => exact ⟨p₀, a₀, b₀, rfl⟩
  | cons i rest ih =>
    obtain ⟨hi, hrest⟩ := List.forall_mem_cons.mp hright
    obtain ⟨hchecks, hpass⟩ := hpass
    rw [← checksOf_withAnswers s p a₀ b₀] at hchecks
    obtain ⟨r, hissue⟩ := issue_of_good (s := s.withAnswers p₀ a₀ b₀) hi hchecks
    have heffect : effectOf { s.withAnswers p₀ a₀ b₀ with port := p } i = (effectOf s i).withAnswers p a₀ b₀ :=
      effectOf_withAnswers s p a₀ b₀ i
    rw [heffect] at hissue
    obtain ⟨p', a, b, hrun⟩ := ih hrest hpass p (if p = .I then r else a₀) (if p = .A then r else b₀)
    exact ⟨p', a, b, (issueAll_cons hissue).trans hrun⟩

/-! ### The start of a connection (R345) -/

/-- A queue's registers after a flush (R180). -/
def Queue.flushed (v : Queue) : Queue :=
  { rd := 0, wr := 0, ph := holdFlushed v.ph, ch := holdFlushed v.ch }

/-- The state the commands of R345 leave, but for the executing port and the answers. -/
def State.connectionStarted (s : State) (h : BitVec 5) (m : ChanMap) : State :=
  { s with
    txq := s.txq.flushed
    rxq := s.rxq.flushed
    arqSn := false
    arqNesn := false
    hopMap := m
    hopStg := m
    hopH := h
    hopSh := h
    hopUnm := 0 }

/-- Staging both parts of a map stages the map (R101, R211, R212). -/
theorem foldl_effectOf_pseudoStageMap (s : State) (m : ChanMap) :
    (pseudoStageMap m).foldl effectOf s = { s with hopStg := m } := by
  simp only [pseudoStageMap, List.foldl_cons, List.foldl_nil, effectOf, stagedMap_eq]

/-- The effects of R345's commands, one after the other: HOP.COMMIT installs the increment and the map staged before it. -/
theorem foldl_effectOf_connectionStart (s : State) (h : BitVec 5) (m : ChanMap) :
    (connectionStart h m).foldl effectOf s = s.connectionStarted h m := by
  rw [connectionStart, List.foldl_append, List.foldl_append, foldl_effectOf_pseudoStageMap]
  rfl

/-- R345's commands find a legal increment and a legal map staged, and 0 is a legal channel; no other of them has a check. -/
theorem checksPass_connectionStart (s : State) {h : BitVec 5} {m : ChanMap} (hh : hopLegal h = true) (hm : 2 ≤ popcount m) :
    ChecksPass s (connectionStart h m) := by
  have hinstall : ∀ c ∈ [(!true || hopLegal h, FaultKind.range), (!true || decide (Config.minUsed ≤ popcount m), .map)],
      c.1 = true := List.forall_mem_cons.mpr ⟨hh, List.forall_mem_singleton.mpr (decide_eq_true hm)⟩
  rw [connectionStart, checksPass_append, checksPass_append, List.foldl_append, foldl_effectOf_pseudoStageMap]
  exact ⟨⟨⟨nofun, nofun, nofun, trivial⟩, nofun, nofun, trivial⟩,
    List.forall_mem_singleton.mpr hh, hinstall, List.forall_mem_singleton.mpr rfl, trivial⟩

/-- Port I has the right to each of R345's commands (R303). -/
theorem portMay_connectionStart (h : BitVec 5) (m : ChanMap) : ∀ i ∈ connectionStart h m, portMay .I i = true :=
  List.all_eq_true.mp rfl

/-- A flushed queue has its indices 0 and is empty (R33). -/
theorem Queue.flushed_empty (c : Config) (q : QueueId) (v : Queue) :
    v.flushed.rd = 0 ∧ v.flushed.wr = 0 ∧ queueEmpty c q v.flushed = true :=
  ⟨rfl, rfl, (queueEmpty_iff c q _).mpr (queueCount_zero c q _ _)⟩

/-- Settles O44: every command's checks pass, so the run leaves the commands' effects. -/
theorem connectionStartInstalls : Obligations.ConnectionStartInstalls := by
  intro s h m h5 h16 hm
  have hh : hopLegal h = true := (hopLegal_iff h).mpr ⟨h5, h16⟩
  obtain ⟨p, a, b, hrun⟩ :=
    issueAll_of_good (portMay_connectionStart h m) (checksPass_connectionStart s hh hm) s.port s.respI s.respA
  rw [foldl_effectOf_connectionStart] at hrun
  have hqueues : ∀ q, ((s.connectionStarted h m).withAnswers p a b).queue q = (s.queue q).flushed := fun q => by
    cases q <;> rfl
  refine ⟨_, hrun, fun q => ?_, rfl, rfl, rfl, rfl, rfl, rfl, ?_, rfl, rfl, rfl, rfl⟩
  · rw [hqueues]
    exact (s.queue q).flushed_empty _ q
  · exact (hopConfigured_iff _).mpr ⟨⟨h5, h16⟩, hm⟩

end Sys2Proof.Machine
